-- ==== Sys2Proof/Word.lean ====
section
/-! DEFINITION. The words of the machine: bytes and quadwords, and the names of the two kinds of size (of data and of
addresses) of spec/00_scope.md R7 and R9. What is computed with them stands in Machine/Sizes.lean. -/

namespace Sys2Proof

/-- One byte, the unit of addressing (R50). -/
abbrev Byte := BitVec 8

/-- A quadword, the widest datum (R9). Narrower data travel zero-extended in a quadword. -/
abbrev Quad := BitVec 64

/-- The operand sizes of R9: byte, word, doubleword, quadword. -/
inductive Size where
  | byte
  | word
  | dword
  | qword
deriving DecidableEq, Repr

/-- The address sizes: 16, 32 or 64 bits (R59, R94). -/
inductive AddrSize where
  | a16
  | a32
  | a64
deriving DecidableEq, Repr

end Sys2Proof
end

