-- ==== Sys2Proof/Config.lean ====
section
/-! DEFINITION. What an implementation fixes and what the spec leaves free: the operating modes, the parameters of
spec/00_scope.md R6, and the free values (opaque constants: nothing can prove what they are). -/

namespace Sys2Proof

/-- MODE (R34): the five contexts for which the page gives an exception list. -/
inductive Mode where
  | real
  | prot
  | v8086
  | compat
  | long64
deriving DecidableEq, Repr

/-- CS_D (R35): the default operand and address size outside 64-bit mode. -/
inductive CodeSize where
  | d16
  | d32
deriving DecidableEq, Repr

/-- What decoding depends on beside the bytes (R13: decode(bytes, MODE, CS_D)). -/
structure Ctx where
  mode : Mode
  csD : CodeSize
deriving DecidableEq, Repr

/-- SREG_STORE_UPPER (R6, D11): what bits 31:16 of `MOV r32, Sreg` become. -/
inductive StoreUpper where
  | zero
  | undefined
deriving DecidableEq, Repr

/-- LINADDR_WIDTH (R6, D19). -/
inductive LinAddrWidth where
  | w48
  | w57
deriving DecidableEq, Repr

/-- The number of bits of a canonical address. -/
def LinAddrWidth.bits : LinAddrWidth → Nat
  | .w48 => 48
  | .w57 => 57

/-- SREG_LOAD_M64_WIDTH (R6, R169, D16): the bytes `MOV Sreg, m64` reads. -/
inductive LoadM64Width where
  | two
  | eight
deriving DecidableEq, Repr

/-- The parameters of R6 that "the model takes as an argument". They stand in State, are changed by no step, and so
every statement about all states holds for all their values (log 13). -/
structure Params where
  /-- SREG_STORE_UPPER -/
  sregStoreUpper : StoreUpper
  /-- LINADDR_WIDTH -/
  linAddrWidth : LinAddrWidth
  /-- SREG_LOAD_M64_WIDTH -/
  sregLoadM64Width : LoadM64Width
  /-- PRIORITY (R243): true when #AC is reported before #PF, the order coded in R64 and R65. -/
  alignBeforePage : Bool
deriving DecidableEq, Repr

namespace Config

/-- The parameter values the spec names (D7, D11, D19) and, for D16, the width the hardware uses by R169's general
knowledge (PRESUMED, log 14). -/
def specParams : Params where
  sregStoreUpper := .zero
  linAddrWidth := .w48
  sregLoadM64Width := .two
  alignBeforePage := true

/-- MAX_INSN_LEN (R6, R91, D20): no instruction without LOCK is longer. -/
def maxInsnLen : Nat := 15

/-- The bytes of the longest sequence that D13 accepts, by the sum of R91: one prefix of each class, LOCK among them, then
REX, opcode, ModRM, SIB, four bytes of displacement and four of immediate. It raises #UD (R120, D20, log 23). -/
def maxBytes : Nat := 16

/-- The context of the machine after reset: real-address mode, CS_D = 16 (R43's last column, log 2). -/
def resetCtx : Ctx where
  mode := .real
  csD := .d16

/-- FREE VALUE (U1, log 18): bits 31:16 of `MOV r32, Sreg` when SREG_STORE_UPPER is undefined, one draw an execution. -/
opaque freeUpper16 : Nat → BitVec 16

/-- FREE VALUE (U3, D12, log 18): `inhibit_events` after a MOV to SS that itself ran under inhibition. -/
opaque freeInhibit : Nat → Bool

/-- FREE VALUE (U5, R174, log 19): the base left in the hidden part by the load of a NULL selector. -/
opaque freeSegBase : Nat → BitVec 64

/-- FREE VALUE (U5, R174, log 19): the limit left in the hidden part by the load of a NULL selector. -/
opaque freeSegLimit : Nat → BitVec 32

/-- FREE VALUE (U5, R174, log 19): the attribute bits left in the hidden part by the load of a NULL selector, and the
attribute bits R173 does not name for a load in virtual-8086 mode (log 20). -/
opaque freeSegAttr : Nat → BitVec 12

end Config

end Sys2Proof
end

