-- ==== Sys2Proof/Syntax.lean ====
section
/-! DEFINITION. The syntax of MOV: one constructor of `Instr` for each of the 35 rows T1 to T35 of the opcode table
(spec/30_encoding.md R111), with its operands as the decoder understands them. -/

namespace Sys2Proof

/-- A general register number, 0 to 15: `x[i]` of R12 (names in R21). -/
abbrev RegNum := Fin 16

/-- The six segment registers (R30). -/
inductive SegReg where
  | es
  | cs
  | ss
  | ds
  | fs
  | gs
deriving DecidableEq, Repr

/-- What the ModRM `reg` field of 8C and 8E names (R31): a segment register, or one of the two numbers that name none
and raise #UD. -/
inductive SregField where
  | seg (r : SegReg)
  | none6
  | none7
deriving DecidableEq, Repr

/-- What stands before the opcode byte (R92, R93, R95): at most one of each class (D13). `rex` says that a REX byte is
present; its bits are in the register numbers and in the row. -/
structure Head where
  /-- F0 -/
  lock : Bool
  /-- the segment override -/
  seg : Option SegReg
  /-- 66 -/
  p66 : Bool
  /-- 67 -/
  p67 : Bool
  /-- 40 to 4F, in 64-bit mode -/
  rex : Bool
deriving DecidableEq, Repr

/-- No byte before the opcode. -/
def Head.empty : Head where
  lock := false
  seg := none
  p66 := false
  p67 := false
  rex := false

/-- The register sums of the 16-bit addressing table (R101), in the order of `rm` 0 to 7. -/
inductive Base16 where
  | bxsi
  | bxdi
  | bpsi
  | bpdi
  | si
  | di
  | bp
  | bx
deriving DecidableEq, Repr

/-- The displacement of a 16-bit address form (R101): absent, disp8 or disp16. -/
inductive Disp16 where
  | none
  | d8 (v : BitVec 8)
  | d16 (v : BitVec 16)
deriving DecidableEq, Repr

/-- The displacement of a 32- or 64-bit address form (R102, R103): absent, disp8 or disp32. -/
inductive Disp32 where
  | none
  | d8 (v : BitVec 8)
  | d32 (v : BitVec 32)
deriving DecidableEq, Repr

/-- The memory forms of the ModRM `r/m` operand (R101 to R104). -/
inductive MemOp where
  /-- 16-bit form with registers (R101) -/
  | sum16 (b : Base16) (d : Disp16)
  /-- 16-bit form, disp16 alone (R101, `mod` 0, `rm` 6) -/
  | abs16 (d : BitVec 16)
  /-- base register without SIB (R102) -/
  | base (b : RegNum) (d : Disp32)
  /-- disp32 alone, outside 64-bit mode (R102, `mod` 0, `rm` 5) -/
  | abs32 (d : BitVec 32)
  /-- RIP-relative, 64-bit mode (R104) -/
  | rip (d : BitVec 32)
  /-- SIB with a base register (R103); `index` is none for index number 4 -/
  | sib (scale : BitVec 2) (index : Option RegNum) (b : RegNum) (d : Disp32)
  /-- SIB without a base register (R103, `mod` 0, base 5) -/
  | sibAbs (scale : BitVec 2) (index : Option RegNum) (d : BitVec 32)
deriving DecidableEq, Repr

/-- The ModRM `r/m` operand (R100, R105): a general register or memory. -/
inductive RM where
  | reg (n : RegNum)
  | mem (m : MemOp)
deriving DecidableEq, Repr

/-- The offset field of A0 to A3: its size is the address size (R108). -/
inductive Moffs where
  | o16 (v : BitVec 16)
  | o32 (v : BitVec 32)
  | o64 (v : BitVec 64)
deriving DecidableEq, Repr

/-- The 35 rows of the opcode table, in its order (R111). -/
inductive Instr where
  /-- T1, 88 /r, MOV r/m8, r8 -/
  | movRm8R8 (h : Head) (dst : RM) (src : RegNum)
  /-- T2, REX + 88 /r, MOV r/m8, r8 -/
  | movRm8R8Rex (h : Head) (dst : RM) (src : RegNum)
  /-- T3, 89 /r, MOV r/m16, r16 -/
  | movRm16R16 (h : Head) (dst : RM) (src : RegNum)
  /-- T4, 89 /r, MOV r/m32, r32 -/
  | movRm32R32 (h : Head) (dst : RM) (src : RegNum)
  /-- T5, REX.W + 89 /r, MOV r/m64, r64 -/
  | movRm64R64 (h : Head) (dst : RM) (src : RegNum)
  /-- T6, 8A /r, MOV r8, r/m8 -/
  | movR8Rm8 (h : Head) (dst : RegNum) (src : RM)
  /-- T7, REX + 8A /r, MOV r8, r/m8 -/
  | movR8Rm8Rex (h : Head) (dst : RegNum) (src : RM)
  /-- T8, 8B /r, MOV r16, r/m16 -/
  | movR16Rm16 (h : Head) (dst : RegNum) (src : RM)
  /-- T9, 8B /r, MOV r32, r/m32 -/
  | movR32Rm32 (h : Head) (dst : RegNum) (src : RM)
  /-- T10, REX.W + 8B /r, MOV r64, r/m64 -/
  | movR64Rm64 (h : Head) (dst : RegNum) (src : RM)
  /-- T11, 8C /r, MOV r/m16, Sreg -/
  | movRm16Sreg (h : Head) (dst : RM) (src : SregField)
  /-- T12, 8C /r, MOV r16/r32/m16, Sreg -/
  | movR32M16Sreg (h : Head) (dst : RM) (src : SregField)
  /-- T13, REX.W + 8C /r, MOV r64/m16, Sreg -/
  | movR64M16Sreg (h : Head) (dst : RM) (src : SregField)
  /-- T14, 8E /r, MOV Sreg, r/m16 -/
  | movSregRm16 (h : Head) (dst : SregField) (src : RM)
  /-- T15, REX.W + 8E /r, MOV Sreg, r/m64 -/
  | movSregRm64 (h : Head) (dst : SregField) (src : RM)
  /-- T16, A0, MOV AL, moffs8 -/
  | movAlMoffs8 (h : Head) (src : Moffs)
  /-- T17, REX.W + A0, MOV AL, moffs8 -/
  | movAlMoffs8RexW (h : Head) (src : Moffs)
  /-- T18, A1, MOV AX, moffs16 -/
  | movAxMoffs16 (h : Head) (src : Moffs)
  /-- T19, A1, MOV EAX, moffs32 -/
  | movEaxMoffs32 (h : Head) (src : Moffs)
  /-- T20, REX.W + A1, MOV RAX, moffs64 -/
  | movRaxMoffs64 (h : Head) (src : Moffs)
  /-- T21, A2, MOV moffs8, AL -/
  | movMoffs8Al (h : Head) (dst : Moffs)
  /-- T22, REX.W + A2, MOV moffs8, AL -/
  | movMoffs8AlRexW (h : Head) (dst : Moffs)
  /-- T23, A3, MOV moffs16, AX -/
  | movMoffs16Ax (h : Head) (dst : Moffs)
  /-- T24, A3, MOV moffs32, EAX -/
  | movMoffs32Eax (h : Head) (dst : Moffs)
  /-- T25, REX.W + A3, MOV moffs64, RAX -/
  | movMoffs64Rax (h : Head) (dst : Moffs)
  /-- T26, B0+rb ib, MOV r8, imm8 -/
  | movR8Imm8 (h : Head) (dst : RegNum) (imm : BitVec 8)
  /-- T27, REX + B0+rb ib, MOV r8, imm8 -/
  | movR8Imm8Rex (h : Head) (dst : RegNum) (imm : BitVec 8)
  /-- T28, B8+rw iw, MOV r16, imm16 -/
  | movR16Imm16 (h : Head) (dst : RegNum) (imm : BitVec 16)
  /-- T29, B8+rd id, MOV r32, imm32 -/
  | movR32Imm32 (h : Head) (dst : RegNum) (imm : BitVec 32)
  /-- T30, REX.W + B8+rd io, MOV r64, imm64 -/
  | movR64Imm64 (h : Head) (dst : RegNum) (imm : BitVec 64)
  /-- T31, C6 /0 ib, MOV r/m8, imm8 -/
  | movRm8Imm8 (h : Head) (dst : RM) (imm : BitVec 8)
  /-- T32, REX + C6 /0 ib, MOV r/m8, imm8 -/
  | movRm8Imm8Rex (h : Head) (dst : RM) (imm : BitVec 8)
  /-- T33, C7 /0 iw, MOV r/m16, imm16 -/
  | movRm16Imm16 (h : Head) (dst : RM) (imm : BitVec 16)
  /-- T34, C7 /0 id, MOV r/m32, imm32 -/
  | movRm32Imm32 (h : Head) (dst : RM) (imm : BitVec 32)
  /-- T35, REX.W + C7 /0 id, MOV r/m64, imm32 -/
  | movRm64Imm32 (h : Head) (dst : RM) (imm : BitVec 32)
deriving DecidableEq, Repr

end Sys2Proof
end

