-- ==== Sys2Proof/Machine/State.lean ====
section
/-! DEFINITION. The state of the machine as plain data (spec/10_state.md R20 to R43), the reasons a step can stop, and the
state after reset. -/

namespace Sys2Proof.Machine

/-- The attribute record of the hidden part of a segment register (R30). -/
structure SegAttr where
  code : Bool
  writable : Bool
  readable : Bool
  expandDown : Bool
  conforming : Bool
  dpl : BitVec 2
  present : Bool
  db : Bool
  l : Bool
  g : Bool
  avl : Bool
deriving DecidableEq, Repr

/-- One segment register: the visible selector and the hidden part (R30). -/
structure Segment where
  sel : BitVec 16
  base : BitVec 64
  limit : BitVec 32
  attr : SegAttr
  usable : Bool
deriving DecidableEq, Repr

/-- The six segment registers (R30). -/
structure SegFile where
  es : Segment
  cs : Segment
  ss : Segment
  ds : Segment
  fs : Segment
  gs : Segment
deriving DecidableEq, Repr

/-- GDTR (R38: a linear base address and a 16-bit limit; the base is held as 64 bits, log 43). -/
structure Gdtr where
  base : BitVec 64
  limit : BitVec 16
deriving DecidableEq, Repr

/-- LDTR (R38: a 16-bit selector and a hidden base, limit and usable flag). DESIGN CHOICE (log 43): R38 gives the hidden
limit no width; it is held as 32 bits, the width of the hidden limits of R30. -/
structure Ldtr where
  sel : BitVec 16
  base : BitVec 64
  limit : BitVec 32
  usable : Bool
deriving DecidableEq, Repr

/-- Memory: (address, byte) pairs by physical address, in the canonical form of `Memory.wf`. -/
abbrev Memory := List Host.Cell

/-- A run of addresses, both ends included. -/
structure Region where
  first : Nat
  last : Nat
deriving DecidableEq, Repr

/-- The kinds of access that `Translate` is told (R70). -/
inductive Access where
  | read
  | write
  | fetch
deriving DecidableEq, Repr

/-- The answers of `Translate` (R70): a physical address for the first byte of the rule, or a page fault with its code. -/
inductive PageResult where
  | mapsTo (pa : BitVec 64)
  | faults (code : BitVec 32)
deriving DecidableEq, Repr

/-- One rule of the paging configuration behind `Translate` (R39, R70, log 10): the linear addresses it covers, the kind of
access and the privilege it speaks of (none: any), and the answer. -/
structure PageRule where
  first : BitVec 64
  last : BitVec 64
  kind : Option Access
  user : Option Bool
  result : PageResult
deriving DecidableEq, Repr

/-- The state of the machine. INVENTORY.md lists every field with the rule that names it. -/
structure State where
  /-- the sixteen general registers (R20) -/
  x : Vector (BitVec 64) 16
  /-- the instruction pointer, the offset of the instruction's first byte (R26) -/
  pc : BitVec 64
  /-- the flags register, which no MOV writes (R29) -/
  rflags : BitVec 64
  /-- the segment registers (R30) -/
  sreg : SegFile
  /-- MODE (R34) -/
  mode : Mode
  /-- CS_D (R35) -/
  csD : CodeSize
  /-- CPL (R36) -/
  cpl : BitVec 2
  /-- AC_ENABLED (R37) -/
  acEnabled : Bool
  /-- GDTR (R38) -/
  gdtr : Gdtr
  /-- LDTR (R38) -/
  ldtr : Ldtr
  /-- inhibit_events (R40) -/
  inhibitEvents : Bool
  /-- the bytes of memory (R50, R52) -/
  mem : Memory
  /-- the populated address set (R75, D18) -/
  populated : List Region
  /-- the program text (R83, R238, D18, D20) -/
  text : List Region
  /-- the paging configuration behind Translate (R39, R70, D9) -/
  translation : List PageRule
  /-- the parameters of R6 (log 13) -/
  params : Params
  /-- the end address the launch names (R266, D24) -/
  endAddr : Option (BitVec 64)
  /-- the external events to come, one Boolean an instruction boundary (R13, R248, D12, log 17) -/
  events : List Bool
  /-- the MODEL's own counter of free values used so far (log 18) -/
  draws : Nat
deriving DecidableEq, Repr

/-- The six exceptions of the page (R230). -/
inductive ExcKind where
  | ud
  | np
  | ss
  | gp
  | pf
  | ac
deriving DecidableEq, Repr

/-- The mnemonic a fault outcome carries (R245): the one instruction of the spec. -/
inductive Mnemonic where
  | mov
deriving DecidableEq, Repr

/-- What a raised exception reports (R245): the mnemonic, the exception (its vector is `ExcKind.vector`), the error code if
it has one (R239; held as 32 bits, log 43), the faulting linear address for #PF (R236). -/
structure Exception where
  mnemonic : Mnemonic
  kind : ExcKind
  code : Option (BitVec 32)
  addr : Option (BitVec 64)
deriving DecidableEq, Repr

/-- Why the machine stops. -/
inductive Fault where
  /-- An exception is raised: the outcome Fault of R245, by any meaning or by the fetch. `left` is the state it leaves: the
  state before the instruction with `inhibit_events` false (R13, R40, R240). SAFE: the hardware goes on into a handler, of
  which the spec says nothing (D6). -/
  | exception (e : Exception) (left : State)
  /-- An access to an address outside the populated set has no step (R75, D18), by any access. SAFE. -/
  | unpopulated (pa : Nat)
  /-- The program counter is outside the program text (R238, D20), by the fetch. SAFE. -/
  | pcOutsideText (pa : Nat)
  /-- An external event is delivered (R13, R248, D12), by the step, before the fetch. SAFE. -/
  | interrupted
deriving DecidableEq, Repr

/-- Why a step is refused: the byte sequence or the access has no meaning in the spec. -/
inductive Refusal where
  /-- An instruction without a meaning yet, by `exec`. SAFE. -/
  | notModelled (mnemonic : String)
  /-- The opcode byte is no MOV opcode (R125, D2), by the decoder. SAFE. -/
  | notMov (op : BitVec 8)
  /-- C6 or C7 with ModRM `reg` other than 0 (R123, D13), by the decoder. SAFE. -/
  | groupDigit
  /-- F2 or F3 before a MOV (R123, D13), by the decoder. SAFE. -/
  | repeatPrefix
  /-- Two prefixes of one class (R124, D13), by the decoder. SAFE. -/
  | sameClassTwice
  /-- A REX byte that is not directly before the opcode (R96, D13), by the decoder. SAFE. -/
  | rexNotLast
  /-- REX.R = 1 on 8C or 8E (R122, D14), by the decoder. SAFE. -/
  | rexRWithSreg
  /-- The bytes of the instruction wrap around the end of the offset space (R28, D20), by the fetch. SAFE. -/
  | wrapsOffsetSpace
  /-- A write overlaps the program text (R83, D18), by any store. SAFE. -/
  | storesIntoText (pa : Nat)
deriving DecidableEq, Repr

/-- The attributes of a data segment after reset (R43: "present, writable, accessed"; the other bits log 3). -/
def resetDataAttr : SegAttr where
  code := false
  writable := true
  readable := false
  expandDown := false
  conforming := false
  dpl := 0
  present := true
  db := false
  l := false
  g := false
  avl := false

/-- DS, ES, FS, GS, SS after reset (R43, logs 2 and 3). -/
def resetData : Segment where
  sel := 0
  base := 0
  limit := 0xFFFF
  attr := resetDataAttr
  usable := true

/-- CS after reset (R43: selector 0xF000, base 0xFFFF0000, "present, readable, accessed"; logs 2 and 3). -/
def resetCode : Segment where
  sel := 0xF000
  base := 0xFFFF0000
  limit := 0xFFFF
  attr := { resetDataAttr with code := true, writable := false, readable := true }
  usable := true

/-- The machine right after reset: R43's last column where the spec names no value of its own (logs 2 to 7). -/
def State.reset : State where
  x := Vector.replicate 16 0
  pc := 0xFFF0
  rflags := 2
  sreg := {
    es := resetData
    cs := resetCode
    ss := resetData
    ds := resetData
    fs := resetData
    gs := resetData }
  mode := Config.resetCtx.mode
  csD := Config.resetCtx.csD
  cpl := 0
  acEnabled := false
  gdtr := { base := 0, limit := 0xFFFF }
  ldtr := { sel := 0, base := 0, limit := 0xFFFF, usable := false }
  inhibitEvents := false
  mem := []
  populated := [{ first := 0, last := 0xFFFFFFFFFFFFFFFF }]
  text := []
  translation := []
  params := Config.specParams
  endAddr := none
  events := []
  draws := 0

end Sys2Proof.Machine
end

