-- ==== Sys2Proof/Machine/Flags.lean ====
section
/-! DEFINITION. What the control bits decide. MOV computes no flag ("Flags Affected: None.", spec/10_state.md R29), so no
operation writes `rflags`; the one control flag MOV reads is AC_ENABLED (R37, R58), and the one bit it sets is
inhibit_events (R40). -/

namespace Sys2Proof.Machine

/-- AlignFault of R58: a reference of more than one byte, to an address that is no multiple of its size, at CPL 3 with
alignment checking enabled, never in real-address mode. -/
def alignFault (s : State) (la : Quad) (n : Nat) : Bool :=
  s.acEnabled && decide (s.cpl = 3) && decide (s.mode ≠ .real) && decide (1 < n) && decide (la.toNat % n ≠ 0)

/-- InhibitAfter of R40, with the count of free values: after a MOV to SS that completes, true; after one that itself ran
under inhibition, a free value (U3); after anything else, false. -/
def inhibitAfter (loadedSS was : Bool) (draws : Nat) : Bool × Nat :=
  if loadedSS then
    if was then (Config.freeInhibit draws, draws + 1) else (true, draws)
  else (false, draws)

end Sys2Proof.Machine
end

