-- ==== Sys2Proof/Machine/Sizes.lean ====
section
/-! DEFINITION. Sizes and lengths: truncation, little-endian bytes, the operand-size and address-size attributes
(spec/30_encoding.md R94) and the length of an instruction (R91). Shared by WellFormed, Decode and the meanings. -/

namespace Sys2Proof

/-- The number of bytes of an operand: n = size/8 (R9). -/
def Size.bytes : Size → Nat
  | .byte => 1
  | .word => 2
  | .dword => 4
  | .qword => 8

/-- The low 8, 16, 32 or 64 bits of a quadword, zero-extended again: trunc then zext of R12. -/
def Size.trunc (sz : Size) (v : Quad) : Quad :=
  match sz with
  | .byte => (v.setWidth 8).setWidth 64
  | .word => (v.setWidth 16).setWidth 64
  | .dword => (v.setWidth 32).setWidth 64
  | .qword => v

/-- The number of bytes of an offset of this address size (R108). -/
def AddrSize.bytes : AddrSize → Nat
  | .a16 => 2
  | .a32 => 4
  | .a64 => 8

/-- trunc_A of R59, the result zero-extended to 64 bits. -/
def AddrSize.trunc (a : AddrSize) (v : Quad) : Quad :=
  match a with
  | .a16 => (v.setWidth 16).setWidth 64
  | .a32 => (v.setWidth 32).setWidth 64
  | .a64 => v

/-- The first `n` bytes of `v`, least significant first (R52, D4). -/
def bytesLE : Nat → Quad → List Byte
  | 0, _ => []
  | n + 1, v => v.setWidth 8 :: bytesLE n (v >>> 8)

/-- The value whose bytes these are, least significant first (R52, D4). -/
def ofBytesLE : List Byte → Quad
  | [] => 0
  | b :: bs => (ofBytesLE bs <<< 8) ||| b.setWidth 64

/-- OperandSize of R94 for a full-size form: REX.W wins over 66; outside 64-bit mode the prefix toggles CS_D. -/
def operandSize (c : Ctx) (w p66 : Bool) : Size :=
  match c.mode with
  | .long64 => if w then .qword else if p66 then .word else .dword
  | _ => if xor (decide (c.csD = .d32)) p66 then .dword else .word

/-- AddressSize of R94. -/
def addressSize (c : Ctx) (p67 : Bool) : AddrSize :=
  match c.mode with
  | .long64 => if p67 then .a32 else .a64
  | _ => if xor (decide (c.csD = .d32)) p67 then .a32 else .a16

/-- The prefix bytes before the opcode, REX included (R91). -/
def Head.length (h : Head) : Nat :=
  h.lock.toNat + h.seg.isSome.toNat + h.p66.toNat + h.p67.toNat + h.rex.toNat

/-- The displacement bytes of a 16-bit form (R101, R106). -/
def Disp16.length : Disp16 → Nat
  | .none => 0
  | .d8 _ => 1
  | .d16 _ => 2

/-- The displacement bytes of a 32- or 64-bit form (R102, R103, R106). -/
def Disp32.length : Disp32 → Nat
  | .none => 0
  | .d8 _ => 1
  | .d32 _ => 4

/-- The bytes after the ModRM byte that a memory form takes: SIB and displacement (R91). -/
def MemOp.length : MemOp → Nat
  | .sum16 _ d => d.length
  | .abs16 _ => 2
  | .base _ d => d.length
  | .abs32 _ => 4
  | .rip _ => 4
  | .sib _ _ _ d => 1 + d.length
  | .sibAbs _ _ _ => 5

/-- ModRM, SIB and displacement together (R91, R105). -/
def RM.length : RM → Nat
  | .reg _ => 1
  | .mem m => 1 + m.length

/-- The bytes of a moffs offset (R108). -/
def Moffs.length : Moffs → Nat
  | .o16 _ => 2
  | .o32 _ => 4
  | .o64 _ => 8

/-- The length of an instruction with a ModRM byte and `imm` immediate bytes (R91). -/
def modrmLength (h : Head) (rm : RM) (imm : Nat) : Nat := h.length + 1 + rm.length + imm

/-- `len` of R12: the length in bytes of the instruction, prefixes included (R91, R107, R108). -/
def Instr.length : Instr → Nat
  | .movRm8R8 h rm _ => modrmLength h rm 0
  | .movRm8R8Rex h rm _ => modrmLength h rm 0
  | .movRm16R16 h rm _ => modrmLength h rm 0
  | .movRm32R32 h rm _ => modrmLength h rm 0
  | .movRm64R64 h rm _ => modrmLength h rm 0
  | .movR8Rm8 h _ rm => modrmLength h rm 0
  | .movR8Rm8Rex h _ rm => modrmLength h rm 0
  | .movR16Rm16 h _ rm => modrmLength h rm 0
  | .movR32Rm32 h _ rm => modrmLength h rm 0
  | .movR64Rm64 h _ rm => modrmLength h rm 0
  | .movRm16Sreg h rm _ => modrmLength h rm 0
  | .movR32M16Sreg h rm _ => modrmLength h rm 0
  | .movR64M16Sreg h rm _ => modrmLength h rm 0
  | .movSregRm16 h _ rm => modrmLength h rm 0
  | .movSregRm64 h _ rm => modrmLength h rm 0
  | .movAlMoffs8 h o => h.length + 1 + o.length
  | .movAlMoffs8RexW h o => h.length + 1 + o.length
  | .movAxMoffs16 h o => h.length + 1 + o.length
  | .movEaxMoffs32 h o => h.length + 1 + o.length
  | .movRaxMoffs64 h o => h.length + 1 + o.length
  | .movMoffs8Al h o => h.length + 1 + o.length
  | .movMoffs8AlRexW h o => h.length + 1 + o.length
  | .movMoffs16Ax h o => h.length + 1 + o.length
  | .movMoffs32Eax h o => h.length + 1 + o.length
  | .movMoffs64Rax h o => h.length + 1 + o.length
  | .movR8Imm8 h _ _ => h.length + 1 + 1
  | .movR8Imm8Rex h _ _ => h.length + 1 + 1
  | .movR16Imm16 h _ _ => h.length + 1 + 2
  | .movR32Imm32 h _ _ => h.length + 1 + 4
  | .movR64Imm64 h _ _ => h.length + 1 + 8
  | .movRm8Imm8 h rm _ => modrmLength h rm 1
  | .movRm8Imm8Rex h rm _ => modrmLength h rm 1
  | .movRm16Imm16 h rm _ => modrmLength h rm 2
  | .movRm32Imm32 h rm _ => modrmLength h rm 4
  | .movRm64Imm32 h rm _ => modrmLength h rm 4

/-- The prefixes of an instruction. -/
def Instr.head : Instr → Head
  | .movRm8R8 h _ _ => h
  | .movRm8R8Rex h _ _ => h
  | .movRm16R16 h _ _ => h
  | .movRm32R32 h _ _ => h
  | .movRm64R64 h _ _ => h
  | .movR8Rm8 h _ _ => h
  | .movR8Rm8Rex h _ _ => h
  | .movR16Rm16 h _ _ => h
  | .movR32Rm32 h _ _ => h
  | .movR64Rm64 h _ _ => h
  | .movRm16Sreg h _ _ => h
  | .movR32M16Sreg h _ _ => h
  | .movR64M16Sreg h _ _ => h
  | .movSregRm16 h _ _ => h
  | .movSregRm64 h _ _ => h
  | .movAlMoffs8 h _ => h
  | .movAlMoffs8RexW h _ => h
  | .movAxMoffs16 h _ => h
  | .movEaxMoffs32 h _ => h
  | .movRaxMoffs64 h _ => h
  | .movMoffs8Al h _ => h
  | .movMoffs8AlRexW h _ => h
  | .movMoffs16Ax h _ => h
  | .movMoffs32Eax h _ => h
  | .movMoffs64Rax h _ => h
  | .movR8Imm8 h _ _ => h
  | .movR8Imm8Rex h _ _ => h
  | .movR16Imm16 h _ _ => h
  | .movR32Imm32 h _ _ => h
  | .movR64Imm64 h _ _ => h
  | .movRm8Imm8 h _ _ => h
  | .movRm8Imm8Rex h _ _ => h
  | .movRm16Imm16 h _ _ => h
  | .movRm32Imm32 h _ _ => h
  | .movRm64Imm32 h _ _ => h

end Sys2Proof
end

