-- ==== Sys2Proof/Machine/Ops.lean ====
section
/-! DEFINITION. The named operations over registers and memory: register views (spec/10_state.md R23, R24), taking an
exception (R13, R240, R245), memory as a canonical list, Translate (R70), MemRead and MemWrite (R71, R72), the segment
checks and SegRead, SegWrite (R60 to R66). -/

namespace Sys2Proof.Machine

/-! Registers. -/

/-- `x[i]` (R12, R20). -/
def State.reg (s : State) (n : RegNum) : Quad := s.x[n]

/-- `x[i] <- v` (R12). -/
def State.setReg (s : State) (n : RegNum) (v : Quad) : State := { s with x := s.x.set n.val v n.isLt }

/-- `sreg[s]` of a file (R30). -/
def SegFile.get (f : SegFile) : SegReg → Segment
  | .es => f.es
  | .cs => f.cs
  | .ss => f.ss
  | .ds => f.ds
  | .fs => f.fs
  | .gs => f.gs

/-- The file with one register replaced. -/
def SegFile.set (f : SegFile) (r : SegReg) (v : Segment) : SegFile :=
  match r with
  | .es => { f with es := v }
  | .cs => { f with cs := v }
  | .ss => { f with ss := v }
  | .ds => { f with ds := v }
  | .fs => { f with fs := v }
  | .gs => { f with gs := v }

/-- `sreg[s]` (R12). -/
def State.seg (s : State) (r : SegReg) : Segment := s.sreg.get r

/-- `sreg[s] <- v`, both parts. -/
def State.setSeg (s : State) (r : SegReg) (v : Segment) : State := { s with sreg := s.sreg.set r v }

/-- The memory replaced. -/
def State.setMem (s : State) (m : Memory) : State := { s with mem := m }

/-- `pc <- target` (R12). -/
def State.setPc (s : State) (v : Quad) : State := { s with pc := v }

/-- `inhibit_events <- b` (R40). -/
def State.setInhibit (s : State) (b : Bool) : State := { s with inhibitEvents := b }

/-- The count of free values used. -/
def State.setDraws (s : State) (n : Nat) : State := { s with draws := n }

/-- The external events to come. -/
def State.setEvents (s : State) (es : List Bool) : State := { s with events := es }

/-- What decoding depends on (R13). -/
def State.ctx (s : State) : Ctx where
  mode := s.mode
  csD := s.csD

/-- Does a byte operand of this number name AH, CH, DH or BH (R21, R23)? -/
def isHighByte (n : RegNum) (rex : Bool) : Bool := !rex && decide (4 ≤ n.val) && decide (n.val ≤ 7)

/-- The register whose bits 15:8 the byte register number 4 to 7 names (R21). -/
def highByteHome (n : RegNum) : RegNum := n - 4

/-- RegRead of R23, the value zero-extended. -/
def regRead (s : State) (n : RegNum) (sz : Size) (rex : Bool) : Quad :=
  match sz with
  | .byte => if isHighByte n rex then ((s.reg (highByteHome n)).extractLsb' 8 8).setWidth 64 else Size.byte.trunc (s.reg n)
  | sz => sz.trunc (s.reg n)

/-- RegWrite of R24: the low bits of `v` at the operand's size; 8 and 16 bits merge, 32 bits zero-extend in 64-bit mode. -/
def regWrite (s : State) (n : RegNum) (sz : Size) (rex : Bool) (v : Quad) : State :=
  match sz with
  | .byte =>
    if isHighByte n rex then
      s.setReg (highByteHome n)
        ((s.reg (highByteHome n)).extractLsb' 16 48 ++ (v.setWidth 8 ++ (s.reg (highByteHome n)).extractLsb' 0 8))
    else s.setReg n ((s.reg n).extractLsb' 8 56 ++ v.setWidth 8)
  | .word => s.setReg n ((s.reg n).extractLsb' 16 48 ++ v.setWidth 16)
  | .dword =>
    if s.mode = .long64 then s.setReg n ((v.setWidth 32).setWidth 64)
    else s.setReg n ((s.reg n).extractLsb' 32 32 ++ v.setWidth 32)
  | .qword => s.setReg n v

/-! Taking an exception. -/

/-- Why an operation does not go on: it raises an exception, it has no step (R75, R238), or it is refused. -/
inductive Stop where
  | raise (e : Exception)
  | unpopulated (pa : Nat)
  | outsideText (pa : Nat)
  | refuse (r : Refusal)
deriving DecidableEq, Repr

/-- The vector numbers (R230). -/
def ExcKind.vector : ExcKind → Nat
  | .ud => 6
  | .np => 11
  | .ss => 12
  | .gp => 13
  | .pf => 14
  | .ac => 17

/-- TAKING AN EXCEPTION, as far as the spec goes (R13, R240, R245): the run stops with the outcome Fault; no register, no
segment register, no byte of memory and not the pc has changed, and `inhibit_events` is false. -/
def takeException (s : State) (e : Exception) : Host.Outcome State Fault Refusal :=
  .fault (.exception e (s.setInhibit false))

/-- The outcome of an operation begun in `s`. -/
def settle (s : State) : Except Stop State → Host.Outcome State Fault Refusal
  | .ok t => .next t
  | .error (.raise e) => takeException s e
  | .error (.unpopulated a) => .fault (.unpopulated a)
  | .error (.outsideText a) => .fault (.pcOutsideText a)
  | .error (.refuse r) => .refused r

/-- An exception with this code. -/
def Stop.exc (k : ExcKind) (code : Option (BitVec 32)) : Stop :=
  .raise { mnemonic := .mov, kind := k, code := code, addr := none }

/-- Error code 0, or none in real-address mode (R239). -/
def code0 (s : State) : Option (BitVec 32) := if s.mode = .real then none else some 0

/-- `#XX(selector)`: the selector without its RPL bits (R181, R239). -/
def selectorCode (sel : BitVec 16) : Option (BitVec 32) := some ((sel &&& 0xFFFC).setWidth 32)

/-- #UD, no error code (R231). -/
def Stop.ud : Stop := .exc .ud none

/-- #GP(0) (R232). -/
def Stop.gp0 (s : State) : Stop := .exc .gp (code0 s)

/-- #AC(0) (R237). -/
def Stop.ac0 (s : State) : Stop := .exc .ac (code0 s)

/-- #SS(0) for an access through SS, #GP(0) for any other (R64, R234). -/
def Stop.seg0 (r : SegReg) (s : State) : Stop := .exc (if r = .ss then .ss else .gp) (code0 s)

/-- #PF(fault-code), with the linear address that faulted (R71, R236). -/
def Stop.pf (code : BitVec 32) (la : Quad) : Stop :=
  .raise { mnemonic := .mov, kind := .pf, code := some code, addr := some la }

/-! Memory as a list. -/

/-- What a populated byte that nothing has written reads as (DESIGN CHOICE, log 5). -/
def Memory.unlisted : Byte := 0

/-- The byte at an address. -/
def Memory.read : Memory → Nat → Byte
  | [], _ => Memory.unlisted
  | (k, v) :: rest, a => if a = k then v else Memory.read rest a

/-- The entry for an address set to `v`, in its place among rising addresses. -/
def Memory.put : Memory → Nat → Byte → Memory
  | [], a, v => [(a, v)]
  | (k, w) :: rest, a, v =>
    if a < k then (a, v) :: (k, w) :: rest else if a = k then (a, v) :: rest else (k, w) :: Memory.put rest a v

/-- No entry for an address. -/
def Memory.forget (m : Memory) (a : Nat) : Memory := m.filter fun c => c.1 != a

/-- One byte written; the canonical form is kept (`Memory.wf_write`). -/
def Memory.write (m : Memory) (a : Nat) (v : Byte) : Memory :=
  if v = Memory.unlisted then m.forget a else m.put a v

/-- Several bytes written, in order. -/
def Memory.writeAll (m : Memory) : List (Nat × Byte) → Memory
  | [] => m
  | (a, v) :: rest => (m.write a v).writeAll rest

/-- The canonical form: addresses strictly rising, and no entry equal to what an unlisted address reads as. -/
def Memory.wf (m : Memory) : Bool :=
  decide (m.Pairwise fun c d => c.1 < d.1) && m.all fun c => c.2 != Memory.unlisted

/-! Translation and the linear address space. -/

/-- Is the address in one of the regions? -/
def inRegions (rs : List Region) (a : Nat) : Bool := rs.any fun r => decide (r.first ≤ a) && decide (a ≤ r.last)

/-- Does a rule of the paging configuration speak of this access? -/
def PageRule.covers (r : PageRule) (la : Quad) (kind : Access) (user : Bool) : Bool :=
  decide (r.first ≤ la) && decide (la ≤ r.last) && (r.kind.isNone || decide (r.kind = some kind))
    && (r.user.isNone || decide (r.user = some user))

/-- Translate of R70, as the first rule of the configuration that covers the access says it, the identity where none does;
in real-address mode the identity (D9). -/
def translate (s : State) (la : Quad) (kind : Access) (user : Bool) : Except (BitVec 32) Quad :=
  if s.mode = .real then .ok la
  else
    match s.translation.find? fun r => r.covers la kind user with
    | none => .ok la
    | some r =>
      match r.result with
      | .mapsTo pa => .ok (pa + (la - r.first))
      | .faults code => .error code

/-- A linear address at the width of the mode: 64 bits in 64-bit mode, 32 bits outside it (R50, R61). -/
def linearWidth (s : State) (la : Quad) : Quad :=
  if s.mode = .long64 then la else AddrSize.a32.trunc la

/-- The linear address of byte `k` of an access (R71). -/
def byteAddr (s : State) (la : Quad) (k : Nat) : Quad := linearWidth s (la + BitVec.ofNat 64 k)

/-- The physical addresses of bytes `k`, `k + 1`, … of an access: translation byte by byte, the lowest byte that faults
reported (R71, R72). -/
def translateFrom (s : State) (la : Quad) (kind : Access) (user : Bool) : Nat → Nat → Except Stop (List Nat)
  | 0, _ => .ok []
  | n + 1, k =>
    match translate s (byteAddr s la k) kind user with
    | .error code => .error (.pf code (byteAddr s la k))
    | .ok pa =>
      match translateFrom s la kind user n (k + 1) with
      | .error e => .error e
      | .ok pas => .ok (pa.toNat :: pas)

/-- The physical addresses of the `n` bytes of an access. -/
def translateAll (s : State) (la : Quad) (n : Nat) (kind : Access) (user : Bool) : Except Stop (List Nat) :=
  translateFrom s la kind user n 0

/-- The first of these addresses outside the populated set (R75). -/
def firstUnpopulated (s : State) (pas : List Nat) : Option Nat := pas.find? fun a => !inRegions s.populated a

/-- The first of these addresses inside the program text (R83). -/
def firstInText (s : State) (pas : List Nat) : Option Nat := pas.find? fun a => inRegions s.text a

/-- MemRead of R71. -/
def memRead (s : State) (la : Quad) (n : Nat) (user : Bool) : Except Stop Quad := do
  let pas ← translateAll s la n .read user
  match firstUnpopulated s pas with
  | some a => .error (.unpopulated a)
  | none => .ok (ofBytesLE (pas.map s.mem.read))

/-- MemWrite of R72: nothing is written unless every byte can be. -/
def memWrite (s : State) (la : Quad) (n : Nat) (v : Quad) (user : Bool) : Except Stop State := do
  let pas ← translateAll s la n .write user
  match firstUnpopulated s pas with
  | some a => .error (.unpopulated a)
  | none =>
    match firstInText s pas with
    | some a => .error (.refuse (.storesIntoText a))
    | none => .ok (s.setMem (s.mem.writeAll (pas.zip (bytesLE n v))))

/-! Segmentation. -/

/-- Linear of R61: in 64-bit mode only FS and GS have a base. -/
def linear (s : State) (r : SegReg) (ea : Quad) : Quad :=
  if s.mode = .long64 then (if r = .fs ∨ r = .gs then (s.seg r).base else 0) + ea
  else AddrSize.a32.trunc ((s.seg r).base + ea)

/-- Canonical form (R62): bits 63 down to LINADDR_WIDTH − 1 all equal. -/
def canonical (w : LinAddrWidth) (la : Quad) : Bool :=
  decide (la.sshiftRight (w.bits - 1) = 0) || decide (la.sshiftRight (w.bits - 1) = BitVec.allOnes 64)

/-- CanonicalRange of R62: every byte canonical and no wrap past the top. -/
def canonicalRange (w : LinAddrWidth) (la : Quad) (n : Nat) : Bool :=
  decide (la.toNat + n ≤ 2 ^ 64) && (List.range n).all fun k => canonical w (la + BitVec.ofNat 64 k)

/-- InLimit of R66, on unbounded integers. -/
def inLimit (g : Segment) (ea : Quad) (n : Nat) : Bool :=
  if !g.attr.code && g.attr.expandDown then
    decide (g.limit.toNat < ea.toNat) && decide (ea.toNat + n - 1 ≤ if g.attr.db then 0xFFFFFFFF else 0xFFFF)
  else decide (ea.toNat + n - 1 ≤ g.limit.toNat)

/-- The checks of protected and compatibility mode (R64): NULL register, writability or readability, limit, in that order. -/
def protChecks (s : State) (r : SegReg) (ea : Quad) (n : Nat) (kind : Access) : Except Stop Unit :=
  if (r = .ds ∨ r = .es ∨ r = .fs ∨ r = .gs) ∧ !(s.seg r).usable then .error (.gp0 s)
  else if kind = .write ∧ ((s.seg r).attr.code || !(s.seg r).attr.writable) then .error (.gp0 s)
  else if kind = .read ∧ ((s.seg r).attr.code && !(s.seg r).attr.readable) then .error (.gp0 s)
  else if !inLimit (s.seg r) ea n then .error (.seg0 r s)
  else .ok ()

/-- SegChecks of R64. -/
def segChecks (s : State) (r : SegReg) (ea : Quad) (n : Nat) (kind : Access) : Except Stop Unit :=
  match s.mode with
  | .long64 => if canonicalRange s.params.linAddrWidth (linear s r ea) n then .ok () else .error (.seg0 r s)
  | .prot => protChecks s r ea n kind
  | .compat => protChecks s r ea n kind
  | .v8086 => if inLimit (s.seg r) ea n then .ok () else .error (.seg0 r s)
  | .real => if inLimit (s.seg r) ea n then .ok () else .error (.seg0 r s)

/-- `user` of an operand access (R70). -/
def isUser (s : State) : Bool := decide (s.cpl = 3)

/-- The alignment check of an operand access (R58) against its page fault: PRIORITY says which of the two is reported when
both apply (R243). -/
def alignCheck (s : State) (la : Quad) (n : Nat) (kind : Access) : Except Stop Unit :=
  if alignFault s la n then
    if s.params.alignBeforePage then .error (.ac0 s)
    else
      match translateAll s la n kind (isUser s) with
      | .error e => .error e
      | .ok _ => .error (.ac0 s)
  else .ok ()

/-- SegRead of R64. -/
def segRead (s : State) (r : SegReg) (ea : Quad) (n : Nat) : Except Stop Quad := do
  segChecks s r ea n .read
  alignCheck s (linear s r ea) n .read
  memRead s (linear s r ea) n (isUser s)

/-- SegWrite of R65. -/
def segWrite (s : State) (r : SegReg) (ea : Quad) (n : Nat) (v : Quad) : Except Stop State := do
  segChecks s r ea n .write
  alignCheck s (linear s r ea) n .write
  memWrite s (linear s r ea) n v (isUser s)

end Sys2Proof.Machine
end

