-- ==== Sys2Proof/Machine/Operands.lean ====
section
/-! DEFINITION. Every operand form (spec/30_encoding.md R100 to R108, spec/20_memory.md R59, R60): where an `r/m` or moffs
operand lies, and reading and writing it. -/

namespace Sys2Proof.Machine

/-- r(n) of R101, R102: the view of a register at the address size. -/
def regAddr (s : State) (a : AddrSize) (n : RegNum) : Quad := a.trunc (s.reg n)

/-- The register sums of R101 (BX = 3, BP = 5, SI = 6, DI = 7, R21). -/
def sum16 (s : State) : Base16 → Quad
  | .bxsi => regAddr s .a16 3 + regAddr s .a16 6
  | .bxdi => regAddr s .a16 3 + regAddr s .a16 7
  | .bpsi => regAddr s .a16 5 + regAddr s .a16 6
  | .bpdi => regAddr s .a16 5 + regAddr s .a16 7
  | .si => regAddr s .a16 6
  | .di => regAddr s .a16 7
  | .bp => regAddr s .a16 5
  | .bx => regAddr s .a16 3

/-- The displacement of a 16-bit form, sign-extended (R101, R106). -/
def disp16Value : Disp16 → Quad
  | .none => 0
  | .d8 v => v.signExtend 64
  | .d16 v => v.signExtend 64

/-- The displacement of a 32- or 64-bit form, sign-extended (R102, R103, R106). -/
def disp32Value : Disp32 → Quad
  | .none => 0
  | .d8 v => v.signExtend 64
  | .d32 v => v.signExtend 64

/-- The scaled index of R103; none is 0. -/
def indexValue (s : State) (a : AddrSize) (scale : BitVec 2) : Option RegNum → Quad
  | none => 0
  | some n => regAddr s a n <<< scale.toNat

/-- The effective address of a memory form (R59, R101 to R104), truncated to the address size. `len` is the length of the
whole instruction: `pc + len` is the address of the next one. -/
def effAddr (s : State) (a : AddrSize) (len : Nat) : MemOp → Quad
  | .sum16 b d => AddrSize.a16.trunc (sum16 s b + disp16Value d)
  | .abs16 d => d.setWidth 64
  | .base b d => a.trunc (regAddr s a b + disp32Value d)
  | .abs32 d => a.trunc (d.signExtend 64)
  | .rip d => a.trunc (s.pc + BitVec.ofNat 64 len + d.signExtend 64)
  | .sib sc i b d => a.trunc (regAddr s a b + indexValue s a sc i + disp32Value d)
  | .sibAbs sc i d => a.trunc (indexValue s a sc i + d.signExtend 64)

/-- The default segment of a memory form (R60, R101 to R104): SS for a BP sum, for base rSP or rBP (not R12, R13). -/
def defaultSeg : MemOp → SegReg
  | .sum16 .bpsi _ => .ss
  | .sum16 .bpdi _ => .ss
  | .sum16 .bp _ => .ss
  | .base b d => if b.val = 5 ∧ d ≠ .none then .ss else .ds
  | .sib _ _ b _ => if b.val = 4 ∨ b.val = 5 then .ss else .ds
  | _ => .ds

/-- The segment an operand goes through (R60, R93): an override replaces the default, but in 64-bit mode only FS and GS do. -/
def effSeg (m : Mode) (override : Option SegReg) (dflt : SegReg) : SegReg :=
  match override with
  | none => dflt
  | some r => if m = .long64 ∧ ¬(r = .fs ∨ r = .gs) then dflt else r

/-- What DecodeRM of R105 answers: a register or a place in memory. -/
inductive Place where
  | reg (n : RegNum)
  | mem (seg : SegReg) (ea : Quad)
deriving DecidableEq, Repr

/-- DecodeRM of R105, evaluated in the state before the instruction (R152). -/
def place (s : State) (h : Head) (len : Nat) : RM → Place
  | .reg n => .reg n
  | .mem m => .mem (effSeg s.mode h.seg (defaultSeg m)) (effAddr s (addressSize s.ctx h.p67) len m)

/-- The place of a moffs operand (R108, R200): default segment DS, the offset zero-extended. -/
def moffsPlace (s : State) (h : Head) (o : Moffs) : Place :=
  .mem (effSeg s.mode h.seg .ds)
    (match o with
     | .o16 v => v.setWidth 64
     | .o32 v => v.setWidth 64
     | .o64 v => v)

/-- Reading an operand: RegRead or SegRead (R100, R64). -/
def readPlace (s : State) (sz : Size) (rex : Bool) : Place → Except Stop Quad
  | .reg n => .ok (regRead s n sz rex)
  | .mem seg ea => segRead s seg ea sz.bytes

/-- Writing an operand: RegWrite or SegWrite (R100, R65). -/
def writePlace (s : State) (sz : Size) (rex : Bool) (v : Quad) : Place → Except Stop State
  | .reg n => .ok (regWrite s n sz rex v)
  | .mem seg ea => segWrite s seg ea sz.bytes v

/-- "if LOCK prefix: raise #UD" (R120), before every operand check (R242). -/
def noLock (h : Head) : Except Stop Unit := if h.lock then .error .ud else .ok ()

/-- Rows MR and MI: a value into an `r/m` operand (R110, R152). -/
def storeRM (s : State) (h : Head) (len : Nat) (sz : Size) (rex : Bool) (dst : RM) (v : Quad) : Except Stop State := do
  noLock h
  writePlace s sz rex v (place s h len dst)

/-- Row RM: an `r/m` operand into a register, written only after the read succeeded (R110, R152). -/
def loadRM (s : State) (h : Head) (len : Nat) (sz : Size) (rex : Bool) (dst : RegNum) (src : RM) : Except Stop State := do
  noLock h
  let v ← readPlace s sz rex (place s h len src)
  .ok (regWrite s dst sz rex v)

/-- Row FD: memory at an absolute offset into the accumulator (R110, R200). -/
def loadMoffs (s : State) (h : Head) (sz : Size) (src : Moffs) : Except Stop State := do
  noLock h
  let v ← readPlace s sz true (moffsPlace s h src)
  .ok (regWrite s 0 sz true v)

/-- Row TD: the accumulator into memory at an absolute offset (R110, R200). -/
def storeMoffs (s : State) (h : Head) (sz : Size) (dst : Moffs) : Except Stop State := do
  noLock h
  writePlace s sz true (regRead s 0 sz true) (moffsPlace s h dst)

/-- Row OI: an immediate into the register of the opcode (R110). -/
def immReg (s : State) (h : Head) (sz : Size) (rex : Bool) (dst : RegNum) (v : Quad) : Except Stop State := do
  noLock h
  .ok (regWrite s dst sz rex v)

end Sys2Proof.Machine
end

