-- ==== Sys2Proof/Machine/MovImm.lean ====
section
/-! DEFINITION. MOV of an immediate: B0+rb, B8+rd, C6 /0, C7 /0 (spec/43_mov_imm.md R210 to R219). -/

namespace Sys2Proof.Machine

/-- T26 (R210): "Move imm8 to r8.", no REX. -/
def execMovR8Imm8 (h : Head) (dst : RegNum) (imm : BitVec 8) (s : State) : Host.Outcome State Fault Refusal :=
  settle s (immReg s h .byte false dst (imm.setWidth 64))

/-- T27 (R211): "Move imm8 to r8." with a REX byte. -/
def execMovR8Imm8Rex (h : Head) (dst : RegNum) (imm : BitVec 8) (s : State) : Host.Outcome State Fault Refusal :=
  settle s (immReg s h .byte true dst (imm.setWidth 64))

/-- T28 (R212): "Move imm16 to r16." -/
def execMovR16Imm16 (h : Head) (dst : RegNum) (imm : BitVec 16) (s : State) : Host.Outcome State Fault Refusal :=
  settle s (immReg s h .word h.rex dst (imm.setWidth 64))

/-- T29 (R213): "Move imm32 to r32." -/
def execMovR32Imm32 (h : Head) (dst : RegNum) (imm : BitVec 32) (s : State) : Host.Outcome State Fault Refusal :=
  settle s (immReg s h .dword h.rex dst (imm.setWidth 64))

/-- T30 (R214): "Move imm64 to r64." -/
def execMovR64Imm64 (h : Head) (dst : RegNum) (imm : BitVec 64) (s : State) : Host.Outcome State Fault Refusal :=
  settle s (immReg s h .qword true dst imm)

/-- T31 (R215): "Move imm8 to r/m8.", no REX. -/
def execMovRm8Imm8 (h : Head) (dst : RM) (imm : BitVec 8) (s : State) : Host.Outcome State Fault Refusal :=
  settle s (storeRM s h (modrmLength h dst 1) .byte false dst (imm.setWidth 64))

/-- T32 (R216): "Move imm8 to r/m8." with a REX byte. -/
def execMovRm8Imm8Rex (h : Head) (dst : RM) (imm : BitVec 8) (s : State) : Host.Outcome State Fault Refusal :=
  settle s (storeRM s h (modrmLength h dst 1) .byte true dst (imm.setWidth 64))

/-- T33 (R217): "Move imm16 to r/m16." -/
def execMovRm16Imm16 (h : Head) (dst : RM) (imm : BitVec 16) (s : State) : Host.Outcome State Fault Refusal :=
  settle s (storeRM s h (modrmLength h dst 2) .word h.rex dst (imm.setWidth 64))

/-- T34 (R218): "Move imm32 to r/m32." -/
def execMovRm32Imm32 (h : Head) (dst : RM) (imm : BitVec 32) (s : State) : Host.Outcome State Fault Refusal :=
  settle s (storeRM s h (modrmLength h dst 4) .dword h.rex dst (imm.setWidth 64))

/-- T35 (R219): "Move imm32 sign extended to 64-bits to r/m64." -/
def execMovRm64Imm32 (h : Head) (dst : RM) (imm : BitVec 32) (s : State) : Host.Outcome State Fault Refusal :=
  settle s (storeRM s h (modrmLength h dst 4) .qword true dst (imm.signExtend 64))

end Sys2Proof.Machine
end

