-- ==== Sys2Proof/Machine/MovMoffs.lean ====
section
/-! DEFINITION. MOV between the accumulator and an absolute offset: A0 to A3 (spec/42_mov_moffs.md R190 to R199). -/

namespace Sys2Proof.Machine

/-- T16 (R190): "Move byte at (seg:offset) to AL." -/
def execMovAlMoffs8 (h : Head) (src : Moffs) (s : State) : Host.Outcome State Fault Refusal :=
  settle s (loadMoffs s h .byte src)

/-- T17 (R191): "Move byte at (offset) to AL.", an FS or GS override kept (C13). -/
def execMovAlMoffs8RexW (h : Head) (src : Moffs) (s : State) : Host.Outcome State Fault Refusal :=
  settle s (loadMoffs s h .byte src)

/-- T18 (R192): "Move word at (seg:offset) to AX." -/
def execMovAxMoffs16 (h : Head) (src : Moffs) (s : State) : Host.Outcome State Fault Refusal :=
  settle s (loadMoffs s h .word src)

/-- T19 (R193): "Move doubleword at (seg:offset) to EAX." -/
def execMovEaxMoffs32 (h : Head) (src : Moffs) (s : State) : Host.Outcome State Fault Refusal :=
  settle s (loadMoffs s h .dword src)

/-- T20 (R194): "Move quadword at (offset) to RAX.", an FS or GS override kept (C13). -/
def execMovRaxMoffs64 (h : Head) (src : Moffs) (s : State) : Host.Outcome State Fault Refusal :=
  settle s (loadMoffs s h .qword src)

/-- T21 (R195): "Move AL to (seg:offset)." -/
def execMovMoffs8Al (h : Head) (dst : Moffs) (s : State) : Host.Outcome State Fault Refusal :=
  settle s (storeMoffs s h .byte dst)

/-- T22 (R196): "Move AL to (offset).", an FS or GS override kept (C13). -/
def execMovMoffs8AlRexW (h : Head) (dst : Moffs) (s : State) : Host.Outcome State Fault Refusal :=
  settle s (storeMoffs s h .byte dst)

/-- T23 (R197): "Move AX to (seg:offset)." -/
def execMovMoffs16Ax (h : Head) (dst : Moffs) (s : State) : Host.Outcome State Fault Refusal :=
  settle s (storeMoffs s h .word dst)

/-- T24 (R198): "Move EAX to (seg:offset)." -/
def execMovMoffs32Eax (h : Head) (dst : Moffs) (s : State) : Host.Outcome State Fault Refusal :=
  settle s (storeMoffs s h .dword dst)

/-- T25 (R199): "Move RAX to (offset).", an FS or GS override kept (C13). -/
def execMovMoffs64Rax (h : Head) (dst : Moffs) (s : State) : Host.Outcome State Fault Refusal :=
  settle s (storeMoffs s h .qword dst)

end Sys2Proof.Machine
end

