-- ==== Sys2Proof/Machine/MovRegRm.lean ====
section
/-! DEFINITION. MOV between general registers and memory: 88, 89, 8A, 8B (spec/40_mov_reg_rm.md R140 to R149). -/

namespace Sys2Proof.Machine

/-- T1 (R140): "Move r8 to r/m8.", no REX: numbers 4 to 7 are AH, CH, DH, BH. -/
def execMovRm8R8 (h : Head) (dst : RM) (src : RegNum) (s : State) : Host.Outcome State Fault Refusal :=
  settle s (storeRM s h (modrmLength h dst 0) .byte false dst (regRead s src .byte false))

/-- T2 (R141): "Move r8 to r/m8." with a REX byte: numbers 4 to 7 are SPL, BPL, SIL, DIL. -/
def execMovRm8R8Rex (h : Head) (dst : RM) (src : RegNum) (s : State) : Host.Outcome State Fault Refusal :=
  settle s (storeRM s h (modrmLength h dst 0) .byte true dst (regRead s src .byte true))

/-- T3 (R142): "Move r16 to r/m16." -/
def execMovRm16R16 (h : Head) (dst : RM) (src : RegNum) (s : State) : Host.Outcome State Fault Refusal :=
  settle s (storeRM s h (modrmLength h dst 0) .word h.rex dst (regRead s src .word h.rex))

/-- T4 (R143): "Move r32 to r/m32." -/
def execMovRm32R32 (h : Head) (dst : RM) (src : RegNum) (s : State) : Host.Outcome State Fault Refusal :=
  settle s (storeRM s h (modrmLength h dst 0) .dword h.rex dst (regRead s src .dword h.rex))

/-- T5 (R144): "Move r64 to r/m64." -/
def execMovRm64R64 (h : Head) (dst : RM) (src : RegNum) (s : State) : Host.Outcome State Fault Refusal :=
  settle s (storeRM s h (modrmLength h dst 0) .qword true dst (regRead s src .qword true))

/-- T6 (R145): "Move r/m8 to r8.", no REX. -/
def execMovR8Rm8 (h : Head) (dst : RegNum) (src : RM) (s : State) : Host.Outcome State Fault Refusal :=
  settle s (loadRM s h (modrmLength h src 0) .byte false dst src)

/-- T7 (R146): "Move r/m8 to r8." with a REX byte. -/
def execMovR8Rm8Rex (h : Head) (dst : RegNum) (src : RM) (s : State) : Host.Outcome State Fault Refusal :=
  settle s (loadRM s h (modrmLength h src 0) .byte true dst src)

/-- T8 (R147): "Move r/m16 to r16." -/
def execMovR16Rm16 (h : Head) (dst : RegNum) (src : RM) (s : State) : Host.Outcome State Fault Refusal :=
  settle s (loadRM s h (modrmLength h src 0) .word h.rex dst src)

/-- T9 (R148): "Move r/m32 to r32." -/
def execMovR32Rm32 (h : Head) (dst : RegNum) (src : RM) (s : State) : Host.Outcome State Fault Refusal :=
  settle s (loadRM s h (modrmLength h src 0) .dword h.rex dst src)

/-- T10 (R149): "Move r/m64 to r64." -/
def execMovR64Rm64 (h : Head) (dst : RegNum) (src : RM) (s : State) : Host.Outcome State Fault Refusal :=
  settle s (loadRM s h (modrmLength h src 0) .qword true dst src)

end Sys2Proof.Machine
end

