-- ==== Sys2Proof/Machine/Segments.lean ====
section
/-! DEFINITION. The segment registers as operands: the descriptor behind a selector (spec/41_mov_sreg.md R170, R171, R175),
LoadSeg (R168, R173, R174), and the shared parts of opcodes 8C and 8E (R163 to R169). -/

namespace Sys2Proof.Machine

/-- The kinds of descriptor (R170). -/
inductive DescKind where
  | data
  | code
  | system
deriving DecidableEq, Repr

/-- A segment descriptor as R170 names its parts. -/
structure Desc where
  kind : DescKind
  writable : Bool
  readable : Bool
  expandDown : Bool
  conforming : Bool
  dpl : BitVec 2
  present : Bool
  base : BitVec 32
  limit : BitVec 32
  db : Bool
  l : Bool
  g : Bool
  avl : Bool
deriving DecidableEq, Repr

/-- The 20-bit limit scaled by the granularity bit (R171). -/
def scaledLimit (limit20 : BitVec 20) (g : Bool) : BitVec 32 :=
  if g then limit20 ++ 0xFFF#12 else limit20.setWidth 32

/-- Desc(raw) of R171: the bits of the eight bytes. -/
def descOf (raw : Quad) : Desc :=
  let kind : DescKind := if raw.getLsbD 44 then (if raw.getLsbD 43 then .code else .data) else .system
  { kind := kind
    writable := decide (kind = .data) && raw.getLsbD 41
    readable := decide (kind = .code) && raw.getLsbD 41
    expandDown := decide (kind = .data) && raw.getLsbD 42
    conforming := decide (kind = .code) && raw.getLsbD 42
    dpl := raw.extractLsb' 45 2
    present := raw.getLsbD 47
    base := raw.extractLsb' 56 8 ++ raw.extractLsb' 16 24
    limit := scaledLimit (raw.extractLsb' 48 4 ++ raw.extractLsb' 0 16) (raw.getLsbD 55)
    db := raw.getLsbD 54
    l := raw.getLsbD 53
    g := raw.getLsbD 55
    avl := raw.getLsbD 52 }

/-- IsData (R170). -/
def Desc.isData (d : Desc) : Bool := decide (d.kind = .data)

/-- IsWritableData (R170). -/
def Desc.isWritableData (d : Desc) : Bool := decide (d.kind = .data) && d.writable

/-- IsReadableCode (R170). -/
def Desc.isReadableCode (d : Desc) : Bool := decide (d.kind = .code) && d.readable

/-- IsNonconformingCode (R170). -/
def Desc.isNonconformingCode (d : Desc) : Bool := decide (d.kind = .code) && !d.conforming

/-- Hidden(s) <- d of R172, with the selector: base (zero-extended), limit, all attribute bits, usable. -/
def Desc.segment (d : Desc) (sel : BitVec 16) : Segment where
  sel := sel
  base := d.base.setWidth 64
  limit := d.limit
  attr := {
    code := decide (d.kind = .code)
    writable := d.writable
    readable := d.readable
    expandDown := d.expandDown
    conforming := d.conforming
    dpl := d.dpl
    present := d.present
    db := d.db
    l := d.l
    g := d.g
    avl := d.avl }
  usable := true

/-- RPL = sel[1:0] (R168). -/
def selRpl (sel : BitVec 16) : BitVec 2 := sel.extractLsb' 0 2

/-- TI = sel[2] (R171). -/
def selTi (sel : BitVec 16) : Bool := sel.getLsbD 2

/-- The offset of a selector's entry in its table: index times 8 (R171). -/
def selOffset (sel : BitVec 16) : Nat := (sel.extractLsb' 3 13).toNat * 8

/-- IsNull(sel): sel[15:2] = 0, the values 0000 to 0003 (R33, R168). -/
def selIsNull (sel : BitVec 16) : Bool := decide (sel.extractLsb' 2 14 = 0)

/-- The base of the table a selector names (R171). -/
def tableBase (s : State) (sel : BitVec 16) : Quad := if selTi sel then s.ldtr.base else s.gdtr.base

/-- The limit of the table a selector names (R171). -/
def tableLimit (s : State) (sel : BitVec 16) : Nat := if selTi sel then s.ldtr.limit.toNat else s.gdtr.limit.toNat

/-- Is the selector's entry outside its table (R171)? -/
def outsideTable (s : State) (sel : BitVec 16) : Bool :=
  (selTi sel && !s.ldtr.usable) || decide (tableLimit s sel < selOffset sel + 7)

/-- The linear address of the selector's descriptor (R171). -/
def descAddr (s : State) (sel : BitVec 16) : Quad := linearWidth s (tableBase s sel + BitVec.ofNat 64 (selOffset sel))

/-- #GP(selector) (R181, R233). -/
def Stop.gpSel (sel : BitVec 16) : Stop := .exc .gp (selectorCode sel)

/-- #SS(selector) (R181, R234). -/
def Stop.ssSel (sel : BitVec 16) : Stop := .exc .ss (selectorCode sel)

/-- #NP(selector) (R181, R235). -/
def Stop.npSel (sel : BitVec 16) : Stop := .exc .np (selectorCode sel)

/-- Lookup(sel) of R170 in the concrete form of R171: the eight bytes of the descriptor, read with supervisor privilege and
no alignment check. -/
def lookup (s : State) (sel : BitVec 16) : Except Stop Quad :=
  if outsideTable s sel then .error (.gpSel sel)
  else if s.mode = .long64 ∧ canonicalRange s.params.linAddrWidth (descAddr s sel) 8 = false then .error (.gpSel sel)
  else memRead s (descAddr s sel) 8 false

/-- The accessed bit (R175, D22): set in the table, by a supervisor write of byte 5, when it is 0. -/
def markAccessed (s : State) (sel : BitVec 16) (raw : Quad) : Except Stop State :=
  if raw.getLsbD 40 then .ok s
  else memWrite s (byteAddr s (descAddr s sel) 5) 1 ((raw.extractLsb' 40 8 ||| 1).setWidth 64) false

/-- Attribute bits from a free value. -/
def SegAttr.ofBits (b : BitVec 12) : SegAttr where
  code := b.getLsbD 0
  writable := b.getLsbD 1
  readable := b.getLsbD 2
  expandDown := b.getLsbD 3
  conforming := b.getLsbD 4
  dpl := b.extractLsb' 5 2
  present := b.getLsbD 7
  db := b.getLsbD 8
  l := b.getLsbD 9
  g := b.getLsbD 10
  avl := b.getLsbD 11

/-- What the load of a NULL selector leaves (R168, R174): the selector, not usable; in 64-bit mode base 0 in FS and GS and
the RPL as SS's DPL. The other hidden fields are free values (U5, log 19). -/
def nullSegment (s : State) (r : SegReg) (sel : BitVec 16) : Segment where
  sel := sel
  base := if s.mode = .long64 ∧ (r = .fs ∨ r = .gs) then 0 else Config.freeSegBase s.draws
  limit := Config.freeSegLimit s.draws
  attr :=
    if r = .ss then { SegAttr.ofBits (Config.freeSegAttr s.draws) with dpl := selRpl sel }
    else SegAttr.ofBits (Config.freeSegAttr s.draws)
  usable := false

/-- The load of a NULL selector: one draw of free values. -/
def loadNull (s : State) (r : SegReg) (sel : BitVec 16) : State :=
  (s.setSeg r (nullSegment s r sel)).setDraws (s.draws + 1)

/-- The load of SS with a NULL selector (R168, C4): never outside 64-bit mode; there at CPL 0 to 2 with RPL = CPL. -/
def loadNullSS (s : State) (sel : BitVec 16) : Except Stop State :=
  if s.mode ≠ .long64 then .error (.gp0 s)
  else if s.cpl = 3 then .error (.gp0 s)
  else if selRpl sel ≠ s.cpl then .error (.gp0 s)
  else .ok (loadNull s .ss sel)

/-- The load of SS with a selector that is not NULL (R168): lookup, the #GP(selector) group, presence, the accessed bit,
then both parts. -/
def loadSS (s : State) (sel : BitVec 16) : Except Stop State := do
  let raw ← lookup s sel
  let d := descOf raw
  if selRpl sel ≠ s.cpl ∨ d.isWritableData = false ∨ d.dpl ≠ s.cpl then .error (.gpSel sel)
  else if d.present = false then .error (.ssSel sel)
  else do
    let t ← markAccessed s sel raw
    .ok (t.setSeg .ss (d.segment sel))

/-- The load of DS, ES, FS or GS with a selector that is not NULL (R168, C3): lookup, kind, privilege, presence, the
accessed bit, then both parts. -/
def loadDataSeg (s : State) (r : SegReg) (sel : BitVec 16) : Except Stop State := do
  let raw ← lookup s sel
  let d := descOf raw
  if (d.isData || d.isReadableCode) = false then .error (.gpSel sel)
  else if (d.isData || d.isNonconformingCode) ∧ (d.dpl < selRpl sel ∨ d.dpl < s.cpl) then .error (.gpSel sel)
  else if d.present = false then .error (.npSel sel)
  else do
    let t ← markAccessed s sel raw
    .ok (t.setSeg r (d.segment sel))

/-- The attributes a load leaves in virtual-8086 mode (R173): present, writable data, expand-up, dpl 3. The bits the rule
does not name (db, l, g, avl) are free values (log 20). -/
def v8086Attr (free : BitVec 12) : SegAttr :=
  { SegAttr.ofBits free with
    code := false, writable := true, readable := false, expandDown := false, conforming := false, dpl := 3, present := true }

/-- LoadSegReal of R173 in real-address mode: base = selector times 16, limit and attributes unchanged, no checks. -/
def loadSegReal (s : State) (r : SegReg) (sel : BitVec 16) : State :=
  s.setSeg r { s.seg r with sel := sel, base := sel.setWidth 64 <<< 4, usable := true }

/-- LoadSegReal of R173 in virtual-8086 mode: base = selector times 16, limit FFFF, ring-3 writable data, no checks. -/
def loadSegV8086 (s : State) (r : SegReg) (sel : BitVec 16) : State :=
  (s.setSeg r {
    sel := sel
    base := sel.setWidth 64 <<< 4
    limit := 0xFFFF
    attr := v8086Attr (Config.freeSegAttr s.draws)
    usable := true }).setDraws (s.draws + 1)

/-- LoadSeg of R168 in protected, compatibility and 64-bit mode. -/
def loadSegProt (s : State) (r : SegReg) (sel : BitVec 16) : Except Stop State :=
  if r = .ss then (if selIsNull sel then loadNullSS s sel else loadSS s sel)
  else if selIsNull sel then .ok (loadNull s r sel)
  else loadDataSeg s r sel

/-- LoadSeg(s, sel) of R168. -/
def loadSeg (s : State) (r : SegReg) (sel : BitVec 16) : Except Stop State :=
  match s.mode with
  | .real => .ok (loadSegReal s r sel)
  | .v8086 => .ok (loadSegV8086 s r sel)
  | .prot => loadSegProt s r sel
  | .compat => loadSegProt s r sel
  | .long64 => loadSegProt s r sel

/-- The checks of R163 for 8C: LOCK, then a number that names no segment register. -/
def storeField (h : Head) (f : SregField) : Except Stop SegReg :=
  if h.lock then .error .ud
  else
    match f with
    | .seg r => .ok r
    | .none6 => .error .ud
    | .none7 => .error .ud

/-- The checks of R163 for 8E: those of 8C, then #UD for CS, before the source is read. -/
def loadField (h : Head) (f : SregField) : Except Stop SegReg := do
  let r ← storeField h f
  if r = .cs then .error .ud else .ok r

/-- 8C with a memory destination, always 2 bytes, or with a 16-bit register (R164, D27). -/
def storeSeg16 (s : State) (h : Head) (len : Nat) (dst : RM) (f : SregField) : Except Stop State := do
  let r ← storeField h f
  writePlace s .word h.rex ((s.seg r).sel.setWidth 64) (place s h len dst)

/-- What `MOV r32, Sreg` writes (R165, U1): the selector, above it zero or a free value; and the draws it takes. -/
def upperSel (s : State) (r : SegReg) : Quad × Nat :=
  match s.params.sregStoreUpper with
  | .zero => ((s.seg r).sel.setWidth 64, s.draws)
  | .undefined => ((Config.freeUpper16 s.draws ++ (s.seg r).sel).setWidth 64, s.draws + 1)

/-- 8C at operand size 32 (R165): a 32-bit register zero-extended (or its upper half free), or two bytes of memory. -/
def storeSeg32 (s : State) (h : Head) (len : Nat) (dst : RM) (f : SregField) : Except Stop State := do
  let r ← storeField h f
  match place s h len dst with
  | .mem seg ea => segWrite s seg ea 2 ((s.seg r).sel.setWidth 64)
  | .reg n => .ok ((regWrite s n .dword h.rex (upperSel s r).1).setDraws (upperSel s r).2)

/-- 8C with REX.W (R166): a 64-bit register zero-extended, or two bytes of memory. -/
def storeSeg64 (s : State) (h : Head) (len : Nat) (dst : RM) (f : SregField) : Except Stop State := do
  let r ← storeField h f
  match place s h len dst with
  | .mem seg ea => segWrite s seg ea 2 ((s.seg r).sel.setWidth 64)
  | .reg n => .ok (regWrite s n .qword true ((s.seg r).sel.setWidth 64))

/-- 8E (R167): the 16-bit source first, then LoadSeg. -/
def loadSeg16 (s : State) (h : Head) (len : Nat) (f : SregField) (src : RM) : Except Stop State := do
  let r ← loadField h f
  let v ← readPlace s .word h.rex (place s h len src)
  loadSeg s r (v.setWidth 16)

/-- The bytes a memory source of REX.W + 8E takes (R169, D16). -/
def m64Bytes (s : State) : Nat :=
  match s.params.sregLoadM64Width with
  | .two => 2
  | .eight => 8

/-- 8E with REX.W (R169): bits 15:0 of a 64-bit register, or of 2 or 8 bytes of memory. -/
def loadSeg64 (s : State) (h : Head) (len : Nat) (f : SregField) (src : RM) : Except Stop State := do
  let r ← loadField h f
  let v ← match place s h len src with
    | .reg n => .ok (s.reg n)
    | .mem seg ea => segRead s seg ea (m64Bytes s)
  loadSeg s r (v.setWidth 16)

end Sys2Proof.Machine
end

