-- ==== Sys2Proof/Machine/MovSreg.lean ====
section
/-! DEFINITION. MOV to and from segment registers: 8C, 8E (spec/41_mov_sreg.md R164 to R169). -/

namespace Sys2Proof.Machine

/-- T11 (R164): "Move segment register to r/m16." -/
def execMovRm16Sreg (h : Head) (dst : RM) (src : SregField) (s : State) : Host.Outcome State Fault Refusal :=
  settle s (storeSeg16 s h (modrmLength h dst 0) dst src)

/-- T12 (R165): "Move zero extended 16-bit segment register to r16/r32/m16."; at operand size 16 it is R164's case. -/
def execMovR32M16Sreg (h : Head) (dst : RM) (src : SregField) (s : State) : Host.Outcome State Fault Refusal :=
  settle s
    (if operandSize s.ctx false h.p66 = .word then storeSeg16 s h (modrmLength h dst 0) dst src
     else storeSeg32 s h (modrmLength h dst 0) dst src)

/-- T13 (R166): "Move zero extended 16-bit segment register to r64/m16." -/
def execMovR64M16Sreg (h : Head) (dst : RM) (src : SregField) (s : State) : Host.Outcome State Fault Refusal :=
  settle s (storeSeg64 s h (modrmLength h dst 0) dst src)

/-- T14 (R167): "Move r/m16 to segment register." -/
def execMovSregRm16 (h : Head) (dst : SregField) (src : RM) (s : State) : Host.Outcome State Fault Refusal :=
  settle s (loadSeg16 s h (modrmLength h src 0) dst src)

/-- T15 (R169): "Move lower 16 bits of r/m64 to segment register." -/
def execMovSregRm64 (h : Head) (dst : SregField) (src : RM) (s : State) : Host.Outcome State Fault Refusal :=
  settle s (loadSeg64 s h (modrmLength h src 0) dst src)

end Sys2Proof.Machine
end

