-- ==== Sys2Proof/Machine/Dispatch.lean ====
section
/-! DEFINITION. One arm for each constructor of Instr: "execute insn" of the step frame (spec/00_scope.md R13). -/

namespace Sys2Proof.Machine

-- What an instruction does, before the frame of R13 advances the pc.
def exec (i : Instr) (s : State) : Host.Outcome State Fault Refusal :=
  match i with
  | .movRm8R8 h dst src => Sys2Proof.Machine.execMovRm8R8 h dst src s
  | .movRm8R8Rex h dst src => Sys2Proof.Machine.execMovRm8R8Rex h dst src s
  | .movRm16R16 h dst src => Sys2Proof.Machine.execMovRm16R16 h dst src s
  | .movRm32R32 h dst src => Sys2Proof.Machine.execMovRm32R32 h dst src s
  | .movRm64R64 h dst src => Sys2Proof.Machine.execMovRm64R64 h dst src s
  | .movR8Rm8 h dst src => Sys2Proof.Machine.execMovR8Rm8 h dst src s
  | .movR8Rm8Rex h dst src => Sys2Proof.Machine.execMovR8Rm8Rex h dst src s
  | .movR16Rm16 h dst src => Sys2Proof.Machine.execMovR16Rm16 h dst src s
  | .movR32Rm32 h dst src => Sys2Proof.Machine.execMovR32Rm32 h dst src s
  | .movR64Rm64 h dst src => Sys2Proof.Machine.execMovR64Rm64 h dst src s
  | .movRm16Sreg h dst src => Sys2Proof.Machine.execMovRm16Sreg h dst src s
  | .movR32M16Sreg h dst src => Sys2Proof.Machine.execMovR32M16Sreg h dst src s
  | .movR64M16Sreg h dst src => Sys2Proof.Machine.execMovR64M16Sreg h dst src s
  | .movSregRm16 h dst src => Sys2Proof.Machine.execMovSregRm16 h dst src s
  | .movSregRm64 h dst src => Sys2Proof.Machine.execMovSregRm64 h dst src s
  | .movAlMoffs8 h src => Sys2Proof.Machine.execMovAlMoffs8 h src s
  | .movAlMoffs8RexW h src => Sys2Proof.Machine.execMovAlMoffs8RexW h src s
  | .movAxMoffs16 h src => Sys2Proof.Machine.execMovAxMoffs16 h src s
  | .movEaxMoffs32 h src => Sys2Proof.Machine.execMovEaxMoffs32 h src s
  | .movRaxMoffs64 h src => Sys2Proof.Machine.execMovRaxMoffs64 h src s
  | .movMoffs8Al h dst => Sys2Proof.Machine.execMovMoffs8Al h dst s
  | .movMoffs8AlRexW h dst => Sys2Proof.Machine.execMovMoffs8AlRexW h dst s
  | .movMoffs16Ax h dst => Sys2Proof.Machine.execMovMoffs16Ax h dst s
  | .movMoffs32Eax h dst => Sys2Proof.Machine.execMovMoffs32Eax h dst s
  | .movMoffs64Rax h dst => Sys2Proof.Machine.execMovMoffs64Rax h dst s
  | .movR8Imm8 h dst imm => Sys2Proof.Machine.execMovR8Imm8 h dst imm s
  | .movR8Imm8Rex h dst imm => Sys2Proof.Machine.execMovR8Imm8Rex h dst imm s
  | .movR16Imm16 h dst imm => Sys2Proof.Machine.execMovR16Imm16 h dst imm s
  | .movR32Imm32 h dst imm => Sys2Proof.Machine.execMovR32Imm32 h dst imm s
  | .movR64Imm64 h dst imm => Sys2Proof.Machine.execMovR64Imm64 h dst imm s
  | .movRm8Imm8 h dst imm => Sys2Proof.Machine.execMovRm8Imm8 h dst imm s
  | .movRm8Imm8Rex h dst imm => Sys2Proof.Machine.execMovRm8Imm8Rex h dst imm s
  | .movRm16Imm16 h dst imm => Sys2Proof.Machine.execMovRm16Imm16 h dst imm s
  | .movRm32Imm32 h dst imm => Sys2Proof.Machine.execMovRm32Imm32 h dst imm s
  | .movRm64Imm32 h dst imm => Sys2Proof.Machine.execMovRm64Imm32 h dst imm s

end Sys2Proof.Machine
end

