-- ==== Sys2Proof/WellFormed.lean ====
section
/-! DEFINITION. Which terms of `Instr` an encoding exists for in a given mode and CS_D (spec/30_encoding.md R94 to R113):
the row's REX condition and operand size, the register numbers a REX bit must reach, and the address form the address
size admits. -/

namespace Sys2Proof

/-- A register number above 7 needs a REX byte (R97). -/
def regOk (h : Head) (n : RegNum) : Bool := h.rex || decide (n.val < 8)

/-- A REX byte exists in 64-bit mode only (R95). -/
def headOk (c : Ctx) (h : Head) : Bool := !h.rex || decide (c.mode = .long64)

/-- A SIB index: number 4 means no index (R103), so it is never written as an index. -/
def indexOk (h : Head) : Option RegNum → Bool
  | none => true
  | some n => regOk h n && decide (n.val ≠ 4)

/-- The memory forms that exist at this address size (R101 to R104). -/
def memOk (c : Ctx) (h : Head) : MemOp → Bool
  | .sum16 b d => decide (addressSize c h.p67 = .a16) && !(decide (b = .bp) && decide (d = .none))
  | .abs16 _ => decide (addressSize c h.p67 = .a16)
  | .base b d => decide (addressSize c h.p67 ≠ .a16) && regOk h b && decide (b.val % 8 ≠ 4)
      && !(decide (b.val % 8 = 5) && decide (d = .none))
  | .abs32 _ => decide (addressSize c h.p67 ≠ .a16) && decide (c.mode ≠ .long64)
  | .rip _ => decide (c.mode = .long64)
  | .sib _ i b d => decide (addressSize c h.p67 ≠ .a16) && indexOk h i && regOk h b
      && !(decide (b.val % 8 = 5) && decide (d = .none))
  | .sibAbs _ i _ => decide (addressSize c h.p67 ≠ .a16) && indexOk h i

/-- The `r/m` operands that exist. -/
def rmOk (c : Ctx) (h : Head) : RM → Bool
  | .reg n => regOk h n
  | .mem m => memOk c h m

/-- A moffs offset has the address size (R108). -/
def moffsOk (c : Ctx) (h : Head) : Moffs → Bool
  | .o16 _ => decide (addressSize c h.p67 = .a16)
  | .o32 _ => decide (addressSize c h.p67 = .a32)
  | .o64 _ => decide (addressSize c h.p67 = .a64)

/-- The row's operand size without REX.W (R94, R112). -/
def sizeOk (c : Ctx) (h : Head) (sz : Size) : Bool := decide (operandSize c false h.p66 = sz)

/-- The row's own conditions: its REX column and operand size (R111, R112), its operands. -/
def rowOk (c : Ctx) : Instr → Bool
  | .movRm8R8 h d r => !h.rex && rmOk c h d && regOk h r
  | .movRm8R8Rex h d r => h.rex && rmOk c h d && regOk h r
  | .movRm16R16 h d r => sizeOk c h .word && rmOk c h d && regOk h r
  | .movRm32R32 h d r => sizeOk c h .dword && rmOk c h d && regOk h r
  | .movRm64R64 h d r => h.rex && rmOk c h d && regOk h r
  | .movR8Rm8 h d r => !h.rex && regOk h d && rmOk c h r
  | .movR8Rm8Rex h d r => h.rex && regOk h d && rmOk c h r
  | .movR16Rm16 h d r => sizeOk c h .word && regOk h d && rmOk c h r
  | .movR32Rm32 h d r => sizeOk c h .dword && regOk h d && rmOk c h r
  | .movR64Rm64 h d r => h.rex && regOk h d && rmOk c h r
  | .movRm16Sreg h d _ => sizeOk c h .word && rmOk c h d
  | .movR32M16Sreg h d _ => sizeOk c h .dword && rmOk c h d
  | .movR64M16Sreg h d _ => h.rex && rmOk c h d
  | .movSregRm16 h _ r => rmOk c h r
  | .movSregRm64 h _ r => h.rex && rmOk c h r
  | .movAlMoffs8 h o => moffsOk c h o
  | .movAlMoffs8RexW h o => h.rex && moffsOk c h o
  | .movAxMoffs16 h o => sizeOk c h .word && moffsOk c h o
  | .movEaxMoffs32 h o => sizeOk c h .dword && moffsOk c h o
  | .movRaxMoffs64 h o => h.rex && moffsOk c h o
  | .movMoffs8Al h o => moffsOk c h o
  | .movMoffs8AlRexW h o => h.rex && moffsOk c h o
  | .movMoffs16Ax h o => sizeOk c h .word && moffsOk c h o
  | .movMoffs32Eax h o => sizeOk c h .dword && moffsOk c h o
  | .movMoffs64Rax h o => h.rex && moffsOk c h o
  | .movR8Imm8 h d _ => !h.rex && regOk h d
  | .movR8Imm8Rex h d _ => h.rex && regOk h d
  | .movR16Imm16 h d _ => sizeOk c h .word && regOk h d
  | .movR32Imm32 h d _ => sizeOk c h .dword && regOk h d
  | .movR64Imm64 h d _ => h.rex && regOk h d
  | .movRm8Imm8 h d _ => !h.rex && rmOk c h d
  | .movRm8Imm8Rex h d _ => h.rex && rmOk c h d
  | .movRm16Imm16 h d _ => sizeOk c h .word && rmOk c h d
  | .movRm32Imm32 h d _ => sizeOk c h .dword && rmOk c h d
  | .movRm64Imm32 h d _ => h.rex && rmOk c h d

/-- An instruction that some bytes encode in context `c`. No length limit is needed: without LOCK no such instruction
exceeds MAX_INSN_LEN (R91, D20, log 23). -/
def wellFormed (c : Ctx) (i : Instr) : Bool := headOk c i.head && rowOk c i

end Sys2Proof
end

