-- ==== Sys2Proof/Decode.lean ====
section
/-! DEFINITION. The decoder (spec/30_encoding.md R90 to R125), total on any bytes and rejecting by name, and after it the
encoder written from the same tables. -/

namespace Sys2Proof

/-- Why a byte sequence has no decoding. `needMore` says only that the bytes given end too early; every other name is one
the spec refuses (R96, R122 to R125). -/
inductive DecodeError where
  /-- the bytes end before the instruction does -/
  | needMore
  /-- the opcode byte is no MOV opcode (R125, D2) -/
  | notMov (op : Byte)
  /-- C6 or C7 with ModRM `reg` other than 0 (R123, D13) -/
  | groupDigit
  /-- F2 or F3 (R123, D13) -/
  | repeatPrefix
  /-- two prefixes of one class (R124, D13) -/
  | sameClassTwice
  /-- a REX byte not directly before the opcode, or two of them (R96, D13) -/
  | rexNotLast
  /-- REX.R = 1 on 8C or 8E (R122, D14) -/
  | rexRWithSreg
deriving DecidableEq, Repr

/-- The legacy prefixes of R93. -/
inductive Legacy where
  | opSize
  | addrSize
  | segment (s : SegReg)
  | lock
  | rep
deriving DecidableEq, Repr

/-- The prefix byte values (R93). -/
def legacyOf (b : Byte) : Option Legacy :=
  if b = 0x66 then some .opSize
  else if b = 0x67 then some .addrSize
  else if b = 0x2E then some (.segment .cs)
  else if b = 0x36 then some (.segment .ss)
  else if b = 0x3E then some (.segment .ds)
  else if b = 0x26 then some (.segment .es)
  else if b = 0x64 then some (.segment .fs)
  else if b = 0x65 then some (.segment .gs)
  else if b = 0xF0 then some .lock
  else if b = 0xF2 then some .rep
  else if b = 0xF3 then some .rep
  else none

/-- One more prefix: at most one of each class, F2 and F3 refused (R123, R124, D13). -/
def Head.add (h : Head) : Legacy → Except DecodeError Head
  | .opSize => if h.p66 then .error .sameClassTwice else .ok { h with p66 := true }
  | .addrSize => if h.p67 then .error .sameClassTwice else .ok { h with p67 := true }
  | .segment s => if h.seg.isSome then .error .sameClassTwice else .ok { h with seg := some s }
  | .lock => if h.lock then .error .sameClassTwice else .ok { h with lock := true }
  | .rep => .error .repeatPrefix

/-- The legacy prefixes at the front, in any order (R90). -/
def decodeLegacy (h : Head) : List Byte → Except DecodeError (Head × List Byte)
  | [] => .error .needMore
  | b :: bs =>
    match legacyOf b with
    | none => .ok (h, b :: bs)
    | some l =>
      match h.add l with
      | .error e => .error e
      | .ok h' => decodeLegacy h' bs

/-- The four bits of a REX byte (R95). -/
structure Rex where
  w : Bool
  r : Bool
  x : Bool
  b : Bool
deriving DecidableEq, Repr

/-- Without a REX byte every extension bit is 0 (R97). -/
def Rex.zero : Rex where
  w := false
  r := false
  x := false
  b := false

/-- 0100WRXB (R95). -/
def isRex (b : Byte) : Bool := decide (b.extractLsb' 4 4 = 0b0100#4)

/-- The bits of a REX byte (R95). -/
def rexOf (b : Byte) : Rex where
  w := b.getLsbD 3
  r := b.getLsbD 2
  x := b.getLsbD 1
  b := b.getLsbD 0

/-- The REX byte, in 64-bit mode only, and only directly before the opcode (R95, R96). Answers whether one is present, its
bits, and the bytes from the opcode on. -/
def decodeRex (m : Mode) : List Byte → Except DecodeError (Bool × Rex × List Byte)
  | [] => .error .needMore
  | b :: bs =>
    if m = .long64 ∧ isRex b then
      match bs with
      | [] => .error .needMore
      | o :: _ => if isRex o || (legacyOf o).isSome then .error .rexNotLast else .ok (true, rexOf b, bs)
    else .ok (false, Rex.zero, b :: bs)

/-- The opcode bytes of MOV (R98, R112). -/
inductive Opcode where
  | rm8R8
  | rmR
  | r8Rm8
  | rRm
  | rmSreg
  | sregRm
  | alMoffs
  | accMoffs
  | moffsAl
  | moffsAcc
  | r8Imm (n : BitVec 3)
  | rImm (n : BitVec 3)
  | rm8Imm
  | rmImm
deriving DecidableEq, Repr

/-- The opcode byte of each group (R98, R112): B0+n and B8+n hold a register number. -/
def opcodeOf (b : Byte) : Option Opcode :=
  if b = 0x88 then some .rm8R8
  else if b = 0x89 then some .rmR
  else if b = 0x8A then some .r8Rm8
  else if b = 0x8B then some .rRm
  else if b = 0x8C then some .rmSreg
  else if b = 0x8E then some .sregRm
  else if b = 0xA0 then some .alMoffs
  else if b = 0xA1 then some .accMoffs
  else if b = 0xA2 then some .moffsAl
  else if b = 0xA3 then some .moffsAcc
  else if b.extractLsb' 3 5 = 0b10110#5 then some (.r8Imm (b.extractLsb' 0 3))
  else if b.extractLsb' 3 5 = 0b10111#5 then some (.rImm (b.extractLsb' 0 3))
  else if b = 0xC6 then some .rm8Imm
  else if b = 0xC7 then some .rmImm
  else none

/-- A register number: the extension bit before the three bits of the field (R97). -/
def regNum (ext : Bool) (field : BitVec 3) : RegNum := (BitVec.ofBool ext ++ field).toFin

/-- The segment register number of 8C and 8E (R31), never extended by REX.R (R97). -/
def sregField (n : BitVec 3) : SregField :=
  match n.toFin with
  | 0 => .seg .es
  | 1 => .seg .cs
  | 2 => .seg .ss
  | 3 => .seg .ds
  | 4 => .seg .fs
  | 5 => .seg .gs
  | 6 => .none6
  | 7 => .none7

/-- `n` little-endian bytes (R106 to R108). -/
def takeLE (n : Nat) (bs : List Byte) : Except DecodeError (Quad × List Byte) :=
  if bs.length < n then .error .needMore else .ok (ofBytesLE (bs.take n), bs.drop n)

/-- The register sums of R101 by `rm`. -/
def base16Of (rm : BitVec 3) : Base16 :=
  match rm.toFin with
  | 0 => .bxsi
  | 1 => .bxdi
  | 2 => .bpsi
  | 3 => .bpdi
  | 4 => .si
  | 5 => .di
  | 6 => .bp
  | 7 => .bx

/-- The memory form after a ModRM byte with 16-bit addresses (R101). -/
def decodeMem16 (md : BitVec 2) (rm : BitVec 3) (bs : List Byte) : Except DecodeError (MemOp × List Byte) := do
  if md = 0 then
    if rm = 6 then
      let (v, bs) ← takeLE 2 bs
      .ok (.abs16 (v.setWidth 16), bs)
    else .ok (.sum16 (base16Of rm) .none, bs)
  else if md = 1 then
    let (v, bs) ← takeLE 1 bs
    .ok (.sum16 (base16Of rm) (.d8 (v.setWidth 8)), bs)
  else
    let (v, bs) ← takeLE 2 bs
    .ok (.sum16 (base16Of rm) (.d16 (v.setWidth 16)), bs)

/-- The displacement `mod` asks for (R102, R103). -/
def decodeDisp32 (md : BitVec 2) (bs : List Byte) : Except DecodeError (Disp32 × List Byte) := do
  if md = 0 then .ok (.none, bs)
  else if md = 1 then
    let (v, bs) ← takeLE 1 bs
    .ok (.d8 (v.setWidth 8), bs)
  else
    let (v, bs) ← takeLE 4 bs
    .ok (.d32 (v.setWidth 32), bs)

/-- The SIB byte and what follows it (R103): index number 4 means no index, base 5 with `mod` 0 no base. -/
def decodeSib (x : Rex) (md : BitVec 2) : List Byte → Except DecodeError (MemOp × List Byte)
  | [] => .error .needMore
  | s :: bs => do
    let idx := regNum x.x (s.extractLsb' 3 3)
    let index := if idx.val = 4 then none else some idx
    if md = 0 ∧ s.extractLsb' 0 3 = 5 then
      let (v, bs) ← takeLE 4 bs
      .ok (.sibAbs (s.extractLsb' 6 2) index (v.setWidth 32), bs)
    else
      let (d, bs) ← decodeDisp32 md bs
      .ok (.sib (s.extractLsb' 6 2) index (regNum x.b (s.extractLsb' 0 3)) d, bs)

/-- The memory form after a ModRM byte with 32- or 64-bit addresses (R102 to R104). The tests look at the three ModRM bits
only, not at REX.B. -/
def decodeMem32 (m : Mode) (x : Rex) (md : BitVec 2) (rm : BitVec 3) (bs : List Byte) :
    Except DecodeError (MemOp × List Byte) := do
  if rm = 4 then decodeSib x md bs
  else if md = 0 ∧ rm = 5 then
    let (v, bs) ← takeLE 4 bs
    if m = .long64 then .ok (.rip (v.setWidth 32), bs) else .ok (.abs32 (v.setWidth 32), bs)
  else
    let (d, bs) ← decodeDisp32 md bs
    .ok (.base (regNum x.b rm) d, bs)

/-- The ModRM byte, SIB and displacement (R99, R105): the `reg` field, the `r/m` operand, the bytes left. -/
def decodeModRM (c : Ctx) (h : Head) (x : Rex) : List Byte → Except DecodeError (BitVec 3 × RM × List Byte)
  | [] => .error .needMore
  | b :: bs => do
    let md := b.extractLsb' 6 2
    let reg := b.extractLsb' 3 3
    let rm := b.extractLsb' 0 3
    if md = 3 then .ok (reg, .reg (regNum x.b rm), bs)
    else
      let (m, bs) ← if addressSize c h.p67 = .a16 then decodeMem16 md rm bs else decodeMem32 c.mode x md rm bs
      .ok (reg, .mem m, bs)

/-- The moffs offset, of the address size (R108). -/
def decodeMoffs (c : Ctx) (h : Head) (bs : List Byte) : Except DecodeError (Moffs × List Byte) := do
  match addressSize c h.p67 with
  | .a16 =>
    let (v, bs) ← takeLE 2 bs
    .ok (.o16 (v.setWidth 16), bs)
  | .a32 =>
    let (v, bs) ← takeLE 4 bs
    .ok (.o32 (v.setWidth 32), bs)
  | .a64 =>
    let (v, bs) ← takeLE 8 bs
    .ok (.o64 v, bs)

/-- The row an opcode selects, and its operands (R112). `h` has its `rex` set. DESIGN CHOICE (log 42): the whole ModRM
operand is read before C6 or C7 with another digit than 0 (R123) and REX.R on 8C or 8E (R122) are refused, so where its
bytes end too early the answer is `needMore`, and the stop of the fetch comes before the refusal. -/
def decodeRow (c : Ctx) (h : Head) (x : Rex) (op : Opcode) (bs : List Byte) :
    Except DecodeError (Instr × List Byte) := do
  let sz := operandSize c x.w h.p66
  match op with
  | .rm8R8 =>
    let (reg, rm, bs) ← decodeModRM c h x bs
    .ok (if h.rex then .movRm8R8Rex h rm (regNum x.r reg) else .movRm8R8 h rm (regNum x.r reg), bs)
  | .rmR =>
    let (reg, rm, bs) ← decodeModRM c h x bs
    match sz with
    | .qword => .ok (.movRm64R64 h rm (regNum x.r reg), bs)
    | .dword => .ok (.movRm32R32 h rm (regNum x.r reg), bs)
    | _ => .ok (.movRm16R16 h rm (regNum x.r reg), bs)
  | .r8Rm8 =>
    let (reg, rm, bs) ← decodeModRM c h x bs
    .ok (if h.rex then .movR8Rm8Rex h (regNum x.r reg) rm else .movR8Rm8 h (regNum x.r reg) rm, bs)
  | .rRm =>
    let (reg, rm, bs) ← decodeModRM c h x bs
    match sz with
    | .qword => .ok (.movR64Rm64 h (regNum x.r reg) rm, bs)
    | .dword => .ok (.movR32Rm32 h (regNum x.r reg) rm, bs)
    | _ => .ok (.movR16Rm16 h (regNum x.r reg) rm, bs)
  | .rmSreg =>
    let (reg, rm, bs) ← decodeModRM c h x bs
    if x.r then .error .rexRWithSreg
    else
      match sz with
      | .qword => .ok (.movR64M16Sreg h rm (sregField reg), bs)
      | .dword => .ok (.movR32M16Sreg h rm (sregField reg), bs)
      | _ => .ok (.movRm16Sreg h rm (sregField reg), bs)
  | .sregRm =>
    let (reg, rm, bs) ← decodeModRM c h x bs
    if x.r then .error .rexRWithSreg
    else if x.w then .ok (.movSregRm64 h (sregField reg) rm, bs)
    else .ok (.movSregRm16 h (sregField reg) rm, bs)
  | .alMoffs =>
    let (o, bs) ← decodeMoffs c h bs
    .ok (if x.w then .movAlMoffs8RexW h o else .movAlMoffs8 h o, bs)
  | .accMoffs =>
    let (o, bs) ← decodeMoffs c h bs
    match sz with
    | .qword => .ok (.movRaxMoffs64 h o, bs)
    | .dword => .ok (.movEaxMoffs32 h o, bs)
    | _ => .ok (.movAxMoffs16 h o, bs)
  | .moffsAl =>
    let (o, bs) ← decodeMoffs c h bs
    .ok (if x.w then .movMoffs8AlRexW h o else .movMoffs8Al h o, bs)
  | .moffsAcc =>
    let (o, bs) ← decodeMoffs c h bs
    match sz with
    | .qword => .ok (.movMoffs64Rax h o, bs)
    | .dword => .ok (.movMoffs32Eax h o, bs)
    | _ => .ok (.movMoffs16Ax h o, bs)
  | .r8Imm n =>
    let (v, bs) ← takeLE 1 bs
    .ok (if h.rex then .movR8Imm8Rex h (regNum x.b n) (v.setWidth 8) else .movR8Imm8 h (regNum x.b n) (v.setWidth 8), bs)
  | .rImm n =>
    match sz with
    | .qword =>
      let (v, bs) ← takeLE 8 bs
      .ok (.movR64Imm64 h (regNum x.b n) v, bs)
    | .dword =>
      let (v, bs) ← takeLE 4 bs
      .ok (.movR32Imm32 h (regNum x.b n) (v.setWidth 32), bs)
    | _ =>
      let (v, bs) ← takeLE 2 bs
      .ok (.movR16Imm16 h (regNum x.b n) (v.setWidth 16), bs)
  | .rm8Imm =>
    let (reg, rm, bs) ← decodeModRM c h x bs
    if reg = 0 then
      let (v, bs) ← takeLE 1 bs
      .ok (if h.rex then .movRm8Imm8Rex h rm (v.setWidth 8) else .movRm8Imm8 h rm (v.setWidth 8), bs)
    else .error .groupDigit
  | .rmImm =>
    let (reg, rm, bs) ← decodeModRM c h x bs
    if reg = 0 then
      match sz with
      | .qword =>
        let (v, bs) ← takeLE 4 bs
        .ok (.movRm64Imm32 h rm (v.setWidth 32), bs)
      | .dword =>
        let (v, bs) ← takeLE 4 bs
        .ok (.movRm32Imm32 h rm (v.setWidth 32), bs)
      | _ =>
        let (v, bs) ← takeLE 2 bs
        .ok (.movRm16Imm16 h rm (v.setWidth 16), bs)
    else .error .groupDigit

/-- decode(bytes, MODE, CS_D) of R13: the instruction at the front of the bytes, and the bytes after it. -/
def decode (c : Ctx) (bs : List Byte) : Except DecodeError (Instr × List Byte) := do
  let (h, bs) ← decodeLegacy Head.empty bs
  let (present, x, bs) ← decodeRex c.mode bs
  match bs with
  | [] => .error .needMore
  | o :: bs =>
    match opcodeOf o with
    | none => .error (.notMov o)
    | some op => decodeRow c { h with rex := present } x op bs

/-! The encoder. It writes the prefixes in one order and every ignored REX bit as 0 (log 32). -/

/-- The byte of a segment override (R93). -/
def segByte : SegReg → Byte
  | .cs => 0x2E
  | .ss => 0x36
  | .ds => 0x3E
  | .es => 0x26
  | .fs => 0x64
  | .gs => 0x65

/-- The legacy prefixes of a head (R93). -/
def Head.legacyBytes (h : Head) : List Byte :=
  (if h.lock then [0xF0#8] else []) ++ (if h.p66 then [0x66#8] else []) ++ (if h.p67 then [0x67#8] else [])
    ++ (match h.seg with
        | none => []
        | some s => [segByte s])

/-- The REX byte 0100WRXB (R95). -/
def rexByte (x : Rex) : Byte :=
  0b0100#4 ++ (BitVec.ofBool x.w ++ (BitVec.ofBool x.r ++ (BitVec.ofBool x.x ++ BitVec.ofBool x.b)))

/-- Bit 3 of a register number, which a REX bit holds (R97). -/
def regHigh (n : RegNum) : Bool := (BitVec.ofFin (w := 4) n).getLsbD 3

/-- The three bits of a register number that stand in its field (R97). -/
def regLow (n : RegNum) : BitVec 3 := (BitVec.ofFin (w := 4) n).setWidth 3

/-- REX.X of an index (R97). -/
def indexHigh : Option RegNum → Bool
  | none => false
  | some n => regHigh n

/-- The SIB index field (R103): 4 for no index. -/
def indexLow : Option RegNum → BitVec 3
  | none => 4
  | some n => regLow n

/-- REX.X of an `r/m` operand (R97). -/
def RM.rexX : RM → Bool
  | .mem (.sib _ i _ _) => indexHigh i
  | .mem (.sibAbs _ i _) => indexHigh i
  | _ => false

/-- REX.B of an `r/m` operand (R97). -/
def RM.rexB : RM → Bool
  | .reg n => regHigh n
  | .mem (.base b _) => regHigh b
  | .mem (.sib _ _ b _) => regHigh b
  | _ => false

/-- The `rm` field of a 16-bit form (R101). -/
def base16Bits : Base16 → BitVec 3
  | .bxsi => 0
  | .bxdi => 1
  | .bpsi => 2
  | .bpdi => 3
  | .si => 4
  | .di => 5
  | .bp => 6
  | .bx => 7

/-- The segment register number (R31). -/
def sregBits : SregField → BitVec 3
  | .seg .es => 0
  | .seg .cs => 1
  | .seg .ss => 2
  | .seg .ds => 3
  | .seg .fs => 4
  | .seg .gs => 5
  | .none6 => 6
  | .none7 => 7

/-- The ModRM byte (R99). -/
def modrmByte (md : BitVec 2) (reg rm : BitVec 3) : Byte := md ++ (reg ++ rm)

/-- The SIB byte (R103). -/
def sibByte (scale : BitVec 2) (index base : BitVec 3) : Byte := scale ++ (index ++ base)

/-- `mod` of a 16-bit form (R101). -/
def Disp16.md : Disp16 → BitVec 2
  | .none => 0
  | .d8 _ => 1
  | .d16 _ => 2

/-- The displacement bytes of a 16-bit form (R106). -/
def Disp16.encode : Disp16 → List Byte
  | .none => []
  | .d8 v => bytesLE 1 (v.setWidth 64)
  | .d16 v => bytesLE 2 (v.setWidth 64)

/-- `mod` of a 32- or 64-bit form (R102, R103). -/
def Disp32.md : Disp32 → BitVec 2
  | .none => 0
  | .d8 _ => 1
  | .d32 _ => 2

/-- The displacement bytes of a 32- or 64-bit form (R106). -/
def Disp32.encode : Disp32 → List Byte
  | .none => []
  | .d8 v => bytesLE 1 (v.setWidth 64)
  | .d32 v => bytesLE 4 (v.setWidth 64)

/-- ModRM, SIB and displacement of an operand, with `reg` in the reg field (R99 to R104). -/
def RM.encode (reg : BitVec 3) : RM → List Byte
  | .reg n => [modrmByte 3 reg (regLow n)]
  | .mem (.sum16 b d) => modrmByte d.md reg (base16Bits b) :: d.encode
  | .mem (.abs16 d) => modrmByte 0 reg 6 :: bytesLE 2 (d.setWidth 64)
  | .mem (.base b d) => modrmByte d.md reg (regLow b) :: d.encode
  | .mem (.abs32 d) => modrmByte 0 reg 5 :: bytesLE 4 (d.setWidth 64)
  | .mem (.rip d) => modrmByte 0 reg 5 :: bytesLE 4 (d.setWidth 64)
  | .mem (.sib sc i b d) => modrmByte d.md reg 4 :: sibByte sc (indexLow i) (regLow b) :: d.encode
  | .mem (.sibAbs sc i d) => modrmByte 0 reg 4 :: sibByte sc (indexLow i) 5 :: bytesLE 4 (d.setWidth 64)

/-- The bytes of a moffs offset (R108). -/
def Moffs.encode : Moffs → List Byte
  | .o16 v => bytesLE 2 (v.setWidth 64)
  | .o32 v => bytesLE 4 (v.setWidth 64)
  | .o64 v => bytesLE 8 v

/-- Prefixes, REX and opcode (R90). -/
def Head.encode (h : Head) (x : Rex) (op : Byte) : List Byte :=
  h.legacyBytes ++ (if h.rex then [rexByte x] else []) ++ [op]

/-- A row with a ModRM byte whose `reg` field names a general register (R97, R110). -/
def encodeRmReg (h : Head) (w : Bool) (op : Byte) (rm : RM) (r : RegNum) : List Byte :=
  h.encode { w := w, r := regHigh r, x := rm.rexX, b := rm.rexB } op ++ rm.encode (regLow r)

/-- A row with a ModRM byte whose `reg` field is a segment register number or the digit 0 (R31, R110). -/
def encodeRmField (h : Head) (w : Bool) (op : Byte) (rm : RM) (f : BitVec 3) : List Byte :=
  h.encode { w := w, r := false, x := rm.rexX, b := rm.rexB } op ++ rm.encode f

/-- A moffs row (R108). -/
def encodeMoffs (h : Head) (w : Bool) (op : Byte) (o : Moffs) : List Byte :=
  h.encode { w := w, r := false, x := false, b := false } op ++ o.encode

/-- A row with the register number in the opcode byte (R98): five fixed bits, then the number. -/
def encodeOpReg (h : Head) (w : Bool) (five : BitVec 5) (r : RegNum) (imm : List Byte) : List Byte :=
  h.encode { w := w, r := false, x := false, b := regHigh r } (five ++ regLow r) ++ imm

/-- The bytes of an instruction (R111), in ascending address order. -/
def encode : Instr → List Byte
  | .movRm8R8 h d r => encodeRmReg h false 0x88 d r
  | .movRm8R8Rex h d r => encodeRmReg h false 0x88 d r
  | .movRm16R16 h d r => encodeRmReg h false 0x89 d r
  | .movRm32R32 h d r => encodeRmReg h false 0x89 d r
  | .movRm64R64 h d r => encodeRmReg h true 0x89 d r
  | .movR8Rm8 h d r => encodeRmReg h false 0x8A r d
  | .movR8Rm8Rex h d r => encodeRmReg h false 0x8A r d
  | .movR16Rm16 h d r => encodeRmReg h false 0x8B r d
  | .movR32Rm32 h d r => encodeRmReg h false 0x8B r d
  | .movR64Rm64 h d r => encodeRmReg h true 0x8B r d
  | .movRm16Sreg h d f => encodeRmField h false 0x8C d (sregBits f)
  | .movR32M16Sreg h d f => encodeRmField h false 0x8C d (sregBits f)
  | .movR64M16Sreg h d f => encodeRmField h true 0x8C d (sregBits f)
  | .movSregRm16 h f r => encodeRmField h false 0x8E r (sregBits f)
  | .movSregRm64 h f r => encodeRmField h true 0x8E r (sregBits f)
  | .movAlMoffs8 h o => encodeMoffs h false 0xA0 o
  | .movAlMoffs8RexW h o => encodeMoffs h true 0xA0 o
  | .movAxMoffs16 h o => encodeMoffs h false 0xA1 o
  | .movEaxMoffs32 h o => encodeMoffs h false 0xA1 o
  | .movRaxMoffs64 h o => encodeMoffs h true 0xA1 o
  | .movMoffs8Al h o => encodeMoffs h false 0xA2 o
  | .movMoffs8AlRexW h o => encodeMoffs h true 0xA2 o
  | .movMoffs16Ax h o => encodeMoffs h false 0xA3 o
  | .movMoffs32Eax h o => encodeMoffs h false 0xA3 o
  | .movMoffs64Rax h o => encodeMoffs h true 0xA3 o
  | .movR8Imm8 h d v => encodeOpReg h false 0b10110 d (bytesLE 1 (v.setWidth 64))
  | .movR8Imm8Rex h d v => encodeOpReg h false 0b10110 d (bytesLE 1 (v.setWidth 64))
  | .movR16Imm16 h d v => encodeOpReg h false 0b10111 d (bytesLE 2 (v.setWidth 64))
  | .movR32Imm32 h d v => encodeOpReg h false 0b10111 d (bytesLE 4 (v.setWidth 64))
  | .movR64Imm64 h d v => encodeOpReg h true 0b10111 d (bytesLE 8 v)
  | .movRm8Imm8 h d v => encodeRmField h false 0xC6 d 0 ++ bytesLE 1 (v.setWidth 64)
  | .movRm8Imm8Rex h d v => encodeRmField h false 0xC6 d 0 ++ bytesLE 1 (v.setWidth 64)
  | .movRm16Imm16 h d v => encodeRmField h false 0xC7 d 0 ++ bytesLE 2 (v.setWidth 64)
  | .movRm32Imm32 h d v => encodeRmField h false 0xC7 d 0 ++ bytesLE 4 (v.setWidth 64)
  | .movRm64Imm32 h d v => encodeRmField h true 0xC7 d 0 ++ bytesLE 4 (v.setWidth 64)

/-! The opcode table's words. -/

/-- The opcode bytes that a ModRM byte follows (R111). -/
def takesModRM (b : Byte) : Bool :=
  match opcodeOf b with
  | some .rm8R8 => true
  | some .rmR => true
  | some .r8Rm8 => true
  | some .rRm => true
  | some .rmSreg => true
  | some .sregRm => true
  | some .rm8Imm => true
  | some .rmImm => true
  | _ => false

/-- The bytes of a word of spec/opcode_table.json, zeros after them up to the longest instruction. R132: a row with a ModRM
byte is numbered with "opcode byte first, as the high byte" of sixteen bits; a row without one has its opcode in bits 7
to 0. Bits above those sixteen (or eight) are the following bytes in order (log 33). -/
def tableBytes (nbits w : Nat) : List Byte :=
  let bs := bytesLE Config.maxBytes (BitVec.ofNat 64 (w % 2 ^ nbits))
  match bs with
  | b0 :: b1 :: rest => if takesModRM b1 then b1 :: b0 :: rest else b0 :: b1 :: rest
  | _ => bs

/-- What the decoder reads from a word of the opcode table, in the mode of the machine after reset. -/
def decodeTableWord (nbits w : Nat) : Option Instr :=
  match decode Config.resetCtx (tableBytes nbits w) with
  | .ok (i, _) => some i
  | .error _ => none

end Sys2Proof
end

