-- ==== Sys2Proof/Machine/Fetch.lean ====
section
/-! DEFINITION. Around an instruction: external events, the fetch of its bytes (spec/60_exceptions.md R238, spec/10_state.md
R28), decoding, and the advance of the step frame (spec/00_scope.md R13, R27, R40). -/

namespace Sys2Proof.Machine

/-- Is an external event pending at this boundary (R13, R248)? -/
def State.eventPending (s : State) : Bool := s.events.headD false

/-- "if inhibit_events = false and an external event is pending: deliver it" (R13). -/
def State.delivers (s : State) : Bool := !s.inhibitEvents && s.eventPending

/-- The state past this boundary: its entry of the schedule is used up. -/
def State.passBoundary (s : State) : State := s.setEvents s.events.tail

/-- The size of the offset space of the mode (R26, R28): where instruction bytes would wrap. -/
def offsetSpace (s : State) : Nat :=
  match s.mode with
  | .long64 => 2 ^ 64
  | _ =>
    match s.csD with
    | .d32 => 2 ^ 32
    | .d16 => 2 ^ 16

/-- May byte `off` of the code segment be fetched (R28, R238): canonical in 64-bit mode, within the CS limit outside it. -/
def fetchAllowed (s : State) (off : Nat) : Bool :=
  match s.mode with
  | .long64 => canonical s.params.linAddrWidth (linear s .cs (BitVec.ofNat 64 off))
  | _ => decide (off ≤ (s.seg .cs).limit.toNat)

/-- One byte of the instruction, at `pc + k` in CS (R50, R238): refused where the bytes wrap, #GP(0) outside the code
segment, #PF by translation, stuck outside the program text or the populated set. -/
def fetchByte (s : State) (k : Nat) : Except Stop Byte :=
  if offsetSpace s ≤ s.pc.toNat + k then .error (.refuse .wrapsOffsetSpace)
  else if fetchAllowed s (s.pc.toNat + k) = false then .error (.gp0 s)
  else
    match translate s (linear s .cs (BitVec.ofNat 64 (s.pc.toNat + k))) .fetch (isUser s) with
    | .error code => .error (.pf code (linear s .cs (BitVec.ofNat 64 (s.pc.toNat + k))))
    | .ok pa =>
      if inRegions s.text pa.toNat = false then .error (.outsideText pa.toNat)
      else if inRegions s.populated pa.toNat = false then .error (.unpopulated pa.toNat)
      else .ok (s.mem.read pa.toNat)

/-- Up to `n` bytes from byte `k` on, and why they end early. -/
def fetchFrom (s : State) : Nat → Nat → List Byte × Option Stop
  | 0, _ => ([], none)
  | n + 1, k =>
    match fetchByte s k with
    | .error e => ([], some e)
    | .ok b => (b :: (fetchFrom s n (k + 1)).1, (fetchFrom s n (k + 1)).2)

/-- The bytes an instruction at `pc` may have: as many as the longest sequence that D13 accepts (R90, R91, log 23). -/
def fetchBytes (s : State) : List Byte × Option Stop := fetchFrom s Config.maxBytes 0

/-- The names of the decoder's refusals; bytes that end early end for the reason the fetch gives. An instruction that needs
more bytes than the fetch supplies would raise #GP(0) (R91, R238); as D20 says, there is none (log 23). -/
def decodeStop (s : State) (ended : Option Stop) : DecodeError → Stop
  | .needMore =>
    match ended with
    | some e => e
    | none => .gp0 s
  | .notMov op => .refuse (.notMov op)
  | .groupDigit => .refuse .groupDigit
  | .repeatPrefix => .refuse .repeatPrefix
  | .sameClassTwice => .refuse .sameClassTwice
  | .rexNotLast => .refuse .rexNotLast
  | .rexRWithSreg => .refuse .rexRWithSreg

/-- "bytes <- fetch at pc; insn <- decode(bytes, MODE, CS_D)" of R13. A byte that cannot be fetched matters only if the
instruction reaches it. -/
def fetchInstr (s : State) : Except Stop Instr :=
  match decode s.ctx (fetchBytes s).1 with
  | .ok (i, _) => .ok i
  | .error e => .error (decodeStop s (fetchBytes s).2 e)

/-- next_pc of R27. -/
def nextPc (s : State) (len : Nat) : Quad :=
  match s.mode with
  | .long64 => s.pc + BitVec.ofNat 64 len
  | _ =>
    match s.csD with
    | .d32 => AddrSize.a32.trunc (s.pc + BitVec.ofNat 64 len)
    | .d16 => AddrSize.a16.trunc (s.pc + BitVec.ofNat 64 len)

/-- "insn is MOV Sreg with Sreg = SS" (R40, R167, R169). -/
def loadsSS : Instr → Bool
  | .movSregRm16 _ f _ => decide (f = .seg .ss)
  | .movSregRm64 _ f _ => decide (f = .seg .ss)
  | .movRm8R8 .. | .movRm8R8Rex .. | .movRm16R16 .. | .movRm32R32 .. | .movRm64R64 .. | .movR8Rm8 ..
  | .movR8Rm8Rex .. | .movR16Rm16 .. | .movR32Rm32 .. | .movR64Rm64 .. | .movRm16Sreg .. | .movR32M16Sreg ..
  | .movR64M16Sreg .. | .movAlMoffs8 .. | .movAlMoffs8RexW .. | .movAxMoffs16 .. | .movEaxMoffs32 ..
  | .movRaxMoffs64 .. | .movMoffs8Al .. | .movMoffs8AlRexW .. | .movMoffs16Ax .. | .movMoffs32Eax ..
  | .movMoffs64Rax .. | .movR8Imm8 .. | .movR8Imm8Rex .. | .movR16Imm16 .. | .movR32Imm32 .. | .movR64Imm64 ..
  | .movRm8Imm8 .. | .movRm8Imm8Rex .. | .movRm16Imm16 .. | .movRm32Imm32 .. | .movRm64Imm32 .. => false

/-- The last lines of the frame of R13 for an instruction that completed: the pc advances and `inhibit_events` becomes
InhibitAfter (R27, R40). -/
def advance (i : Instr) (t : State) : State :=
  ((t.setPc (nextPc t i.length)).setInhibit (inhibitAfter (loadsSS i) t.inhibitEvents t.draws).1).setDraws
    (inhibitAfter (loadsSS i) t.inhibitEvents t.draws).2

/-- The frame around an executed instruction (R13): only one that completed advances. -/
def frame (i : Instr) : Host.Outcome State Fault Refusal → Host.Outcome State Fault Refusal
  | .next t => .next (advance i t)
  | .fault f => .fault f
  | .refused r => .refused r

/-- A run is finished when the pc is the end address at a boundary (R266, D24). DESIGN CHOICE (log 44): it looks at the pc
alone, also where an event is pending there and not inhibited; a step taken from that state is still interrupted. -/
def State.finished (s : State) : Bool := decide (s.endAddr = some s.pc)

/-- Where the fetch looks for byte `k`, when its translation succeeds. -/
def fetchAddr (s : State) (k : Nat) : Option Nat :=
  match translate s (linear s .cs (BitVec.ofNat 64 (s.pc.toNat + k))) .fetch (isUser s) with
  | .ok pa => some pa.toNat
  | .error _ => none

/-- One instruction byte loaded from outside the machine: written, and made populated and part of the program text
where it is not yet. -/
def placeByte (s : State) (k : Nat) (b : Byte) : State :=
  match fetchAddr s k with
  | none => s
  | some a =>
    { s with
      mem := s.mem.write a b
      populated := if inRegions s.populated a then s.populated else { first := a, last := a } :: s.populated
      text := if inRegions s.text a then s.text else { first := a, last := a } :: s.text }

/-- The instruction bytes loaded where the fetch looks for them, from byte `k` on. -/
def placeBytes (s : State) : Nat → List Byte → State
  | _, [] => s
  | k, b :: bs => placeBytes (placeByte s k b) (k + 1) bs

/-- No external event at the coming boundary. -/
def State.quietBoundary (s : State) : State :=
  match s.events with
  | [] => s
  | _ :: es => s.setEvents (false :: es)

end Sys2Proof.Machine
end

