-- ==== Sys2Proof/Machine/Step.lean ====
section
/-! DEFINITION. One step of the machine: the frame of spec/00_scope.md R13. -/

namespace Sys2Proof.Machine

/-- Fetch, decode, execute, advance, at a boundary where no event is delivered (R13). -/
def runInstr (s : State) : Host.Outcome State Fault Refusal :=
  match fetchInstr s with
  | .error e => settle s (.error e)
  | .ok i => frame i (exec i s)

/-- step() of R13. -/
def step (s : State) : Host.Outcome State Fault Refusal :=
  if s.delivers then .fault .interrupted else runInstr s.passBoundary

/-- The instruction of an opcode-table word, loaded from outside where the next fetch looks (logs 7 and 33). -/
def State.withFetchWord (s : State) (nbits w : Nat) : State := placeBytes s.quietBoundary 0 (tableBytes nbits w)

end Sys2Proof.Machine
end

