-- ==== Sys2Proof/Safety.lean ====
section
/-! DEFINITION. The terms claims use: what a completed, a faulted and a safe step are, when an access is allowed, said from
the rules and not through the operations that check it, what each instruction accesses and writes, and the invariants. -/

namespace Sys2Proof.Machine

/-! Values. -/

/-- `x` with its `w` bits from bit `lo` on replaced by the low bits of `v` (the merges of R24). -/
def replaceBits (lo w : Nat) (x v : Quad) : Quad :=
  (x &&& ~~~(BitVec.ofNat 64 (2 ^ w - 1) <<< lo)) ||| ((v &&& BitVec.ofNat 64 (2 ^ w - 1)) <<< lo)

/-- The register and the lowest bit a byte register number names (R21). -/
def byteReg (n : RegNum) (rex : Bool) : RegNum × Nat :=
  if rex = false ∧ 4 ≤ n.val ∧ n.val ≤ 7 then (n - 4, 8) else (n, 0)

/-- The bits a byte register number names, moved down to bit 0. -/
def byteValue (s : State) (n : RegNum) (rex : Bool) : Quad := s.reg (byteReg n rex).1 >>> (byteReg n rex).2

/-- The state after a byte register is written: the other 56 bits unchanged (R24). -/
def withByte (s : State) (n : RegNum) (rex : Bool) (v : Quad) : State :=
  s.setReg (byteReg n rex).1 (replaceBits (byteReg n rex).2 8 (s.reg (byteReg n rex).1) v)

/-- The state after a 16-bit register is written: bits 63:16 unchanged (R24). -/
def withWord (s : State) (n : RegNum) (v : Quad) : State := s.setReg n (replaceBits 0 16 (s.reg n) v)

/-- The state after a 32-bit register is written: bits 63:32 zero in 64-bit mode, not state outside it (R24). -/
def withDword (s : State) (n : RegNum) (v : Quad) : State :=
  s.setReg n (replaceBits 0 32 (if s.mode = .long64 then 0 else s.reg n) v)

/-- The number that bytes stand for, least significant first (R52). -/
def littleEndian : List Byte → Nat
  | [] => 0
  | b :: bs => b.toNat + 256 * littleEndian bs

/-- The value in memory at these physical addresses. -/
def valueAt (s : State) (pas : List Nat) : Quad := BitVec.ofNat 64 (littleEndian (pas.map s.mem.read))

/-- From `s` to `t` the bytes of `v` were stored at `pas`, least significant first, and nothing else changed (R72). -/
def StoresBytes (s t : State) (pas : List Nat) (v : Quad) : Prop :=
  t = s.setMem t.mem ∧ (∀ a, a ∉ pas → t.mem.read a = s.mem.read a)
    ∧ (pas.Nodup → ∀ k (h : k < pas.length), t.mem.read pas[k] = (v >>> (8 * k)).setWidth 8)

/-! Outcomes. -/

/-- The outcome of raising an exception in `s` (R13, R240, R245). -/
def raised (s : State) (k : ExcKind) (code : Option (BitVec 32)) (addr : Option (BitVec 64)) :
    Host.Outcome State Fault Refusal :=
  .fault (.exception { mnemonic := .mov, kind := k, code := code, addr := addr } (s.setInhibit false))

/-- Error code 0, which real-address mode does not have (R239). -/
def zeroCode (m : Mode) : Option (BitVec 32) := if m = .real then none else some 0

/-- A safe step: it completes, or raises an exception the spec names; it is not stuck, interrupted or refused. -/
def SafeOutcome : Host.Outcome State Fault Refusal → Prop
  | .next _ => True
  | .fault (.exception _ _) => True
  | .fault (.unpopulated _) => False
  | .fault (.pcOutsideText _) => False
  | .fault .interrupted => False
  | .refused _ => False

/-! When an access is allowed. -/

/-- Outside the segment limit (R66), the last byte counted without wrap. -/
def OutsideLimit (g : Segment) (ea : Quad) (n : Nat) : Prop :=
  if g.attr.code = false ∧ g.attr.expandDown = true then
    ea.toNat ≤ g.limit.toNat ∨ (if g.attr.db = true then 0xFFFFFFFF else 0xFFFF) < ea.toNat + n - 1
  else g.limit.toNat < ea.toNat + n - 1

/-- Canonical form (R62): bits 63 down to LINADDR_WIDTH − 1 all equal. -/
def Canonical (w : LinAddrWidth) (la : Quad) : Prop :=
  ∀ b, w.bits - 1 ≤ b → b < 64 → la.getLsbD b = la.getLsbD (w.bits - 1)

/-- Every byte of the access canonical, no wrap past 2^64 − 1 (R62). -/
def CanonicalAccess (w : LinAddrWidth) (la : Quad) (n : Nat) : Prop :=
  la.toNat + n ≤ 2 ^ 64 ∧ ∀ k, k < n → Canonical w (la + BitVec.ofNat 64 k)

/-- DS, ES, FS or GS: the registers a NULL selector makes unusable (R63). -/
def isDataSeg (r : SegReg) : Bool := decide (r ≠ .cs) && decide (r ≠ .ss)

/-- Protected or compatibility mode. -/
def isProt (m : Mode) : Bool := decide (m = .prot) || decide (m = .compat)

/-- The NULL check passes (R63). -/
def NotNull (s : State) (r : SegReg) : Prop := isDataSeg r = true → (s.seg r).usable = true

/-- The writability and readability checks pass (R64). -/
def KindAllowed (s : State) (r : SegReg) (kind : Access) : Prop :=
  (kind = .write → (s.seg r).attr.code = false ∧ (s.seg r).attr.writable = true)
    ∧ (kind = .read → (s.seg r).attr.code = true → (s.seg r).attr.readable = true)

/-- The segment checks of the mode all pass (R64). -/
def SegAllowed (s : State) (r : SegReg) (ea : Quad) (n : Nat) (kind : Access) : Prop :=
  (s.mode = .long64 → CanonicalAccess s.params.linAddrWidth (linear s r ea) n)
    ∧ (isProt s.mode = true → NotNull s r ∧ KindAllowed s r kind)
    ∧ (s.mode ≠ .long64 → ¬OutsideLimit (s.seg r) ea n)

/-- The alignment check fails (R58). -/
def Misaligned (s : State) (la : Quad) (n : Nat) : Prop :=
  s.acEnabled = true ∧ s.cpl = 3 ∧ s.mode ≠ .real ∧ 1 < n ∧ ¬n ∣ la.toNat

/-- The `n` bytes at linear address `la` are translated to `pas`, byte by byte (R71). -/
def MapsTo (s : State) (la : Quad) (n : Nat) (kind : Access) (user : Bool) (pas : List Nat) : Prop :=
  pas.length = n ∧ ∀ k (h : k < pas.length), ∃ pa, translate s (byteAddr s la k) kind user = .ok pa ∧ pas[k] = pa.toNat

/-- The physical bytes can be reached: all populated, and for a write none in the program text (R75, R83). -/
def Reachable (s : State) (kind : Access) (pas : List Nat) : Prop :=
  ∀ a ∈ pas, inRegions s.populated a = true ∧ (kind = .write → inRegions s.text a = false)

/-- An operand access of `n` bytes at `r:ea` passes every check, and `pas` are its physical addresses (R64, R65). -/
def AccessAllowed (s : State) (r : SegReg) (ea : Quad) (n : Nat) (kind : Access) (pas : List Nat) : Prop :=
  SegAllowed s r ea n kind ∧ ¬Misaligned s (linear s r ea) n ∧ MapsTo s (linear s r ea) n kind (decide (s.cpl = 3)) pas
    ∧ Reachable s kind pas

/-- The place of an `r/m` memory operand: segment and effective address (R105). -/
def memPlace (s : State) (h : Head) (len : Nat) (m : MemOp) : SegReg × Quad :=
  (effSeg s.mode h.seg (defaultSeg m), effAddr s (addressSize s.ctx h.p67) len m)

/-- The place of a moffs operand (R200). -/
def offPlace (s : State) (h : Head) (o : Moffs) : SegReg × Quad :=
  (effSeg s.mode h.seg .ds,
    match o with
    | .o16 v => v.setWidth 64
    | .o32 v => v.setWidth 64
    | .o64 v => v)

/-! What an instruction accesses. -/

/-- One data access (R54). -/
structure DataAccess where
  seg : SegReg
  ea : Quad
  bytes : Nat
  kind : Access
deriving DecidableEq, Repr

/-- The access of an `r/m` operand; a register is none. -/
def rmAccess (s : State) (h : Head) (imm n : Nat) (kind : Access) : RM → Option DataAccess
  | .reg _ => none
  | .mem m =>
    let p := memPlace s h (modrmLength h (.mem m) imm) m
    some { seg := p.1, ea := p.2, bytes := n, kind := kind }

/-- The access of a moffs operand. -/
def offAccess (s : State) (h : Head) (n : Nat) (kind : Access) (o : Moffs) : Option DataAccess :=
  some { seg := (offPlace s h o).1, ea := (offPlace s h o).2, bytes := n, kind := kind }

/-- The bytes REX.W + 8E reads from memory (R169). -/
def m64Width (s : State) : Nat := if s.params.sregLoadM64Width = .two then 2 else 8

/-- The data access of each form (R54): at most one, a read or a write. -/
def dataAccess (s : State) : Instr → Option DataAccess
  | .movRm8R8 h d _ => rmAccess s h 0 1 .write d
  | .movRm8R8Rex h d _ => rmAccess s h 0 1 .write d
  | .movRm16R16 h d _ => rmAccess s h 0 2 .write d
  | .movRm32R32 h d _ => rmAccess s h 0 4 .write d
  | .movRm64R64 h d _ => rmAccess s h 0 8 .write d
  | .movR8Rm8 h _ m => rmAccess s h 0 1 .read m
  | .movR8Rm8Rex h _ m => rmAccess s h 0 1 .read m
  | .movR16Rm16 h _ m => rmAccess s h 0 2 .read m
  | .movR32Rm32 h _ m => rmAccess s h 0 4 .read m
  | .movR64Rm64 h _ m => rmAccess s h 0 8 .read m
  | .movRm16Sreg h d _ => rmAccess s h 0 2 .write d
  | .movR32M16Sreg h d _ => rmAccess s h 0 2 .write d
  | .movR64M16Sreg h d _ => rmAccess s h 0 2 .write d
  | .movSregRm16 h _ m => rmAccess s h 0 2 .read m
  | .movSregRm64 h _ m => rmAccess s h 0 (m64Width s) .read m
  | .movAlMoffs8 h o => offAccess s h 1 .read o
  | .movAlMoffs8RexW h o => offAccess s h 1 .read o
  | .movAxMoffs16 h o => offAccess s h 2 .read o
  | .movEaxMoffs32 h o => offAccess s h 4 .read o
  | .movRaxMoffs64 h o => offAccess s h 8 .read o
  | .movMoffs8Al h o => offAccess s h 1 .write o
  | .movMoffs8AlRexW h o => offAccess s h 1 .write o
  | .movMoffs16Ax h o => offAccess s h 2 .write o
  | .movMoffs32Eax h o => offAccess s h 4 .write o
  | .movMoffs64Rax h o => offAccess s h 8 .write o
  | .movR8Imm8 _ _ _ => none
  | .movR8Imm8Rex _ _ _ => none
  | .movR16Imm16 _ _ _ => none
  | .movR32Imm32 _ _ _ => none
  | .movR64Imm64 _ _ _ => none
  | .movRm8Imm8 h d _ => rmAccess s h 1 1 .write d
  | .movRm8Imm8Rex h d _ => rmAccess s h 1 1 .write d
  | .movRm16Imm16 h d _ => rmAccess s h 2 2 .write d
  | .movRm32Imm32 h d _ => rmAccess s h 4 4 .write d
  | .movRm64Imm32 h d _ => rmAccess s h 4 8 .write d

/-- A segment register number that names none (R163). -/
def namesNone : SregField → Bool
  | .seg _ => false
  | .none6 => true
  | .none7 => true

/-- Does the instruction raise #UD whatever the state: LOCK, a segment number 6 or 7, a load of CS (R120, R121, R122)? -/
def raisesUD (i : Instr) : Bool :=
  i.head.lock ||
    match i with
    | .movRm16Sreg _ _ f => namesNone f
    | .movR32M16Sreg _ _ f => namesNone f
    | .movR64M16Sreg _ _ f => namesNone f
    | .movSregRm16 _ f _ => namesNone f || decide (f = .seg .cs)
    | .movSregRm64 _ f _ => namesNone f || decide (f = .seg .cs)
    | .movRm8R8 .. | .movRm8R8Rex .. | .movRm16R16 .. | .movRm32R32 .. | .movRm64R64 .. | .movR8Rm8 ..
    | .movR8Rm8Rex .. | .movR16Rm16 .. | .movR32Rm32 .. | .movR64Rm64 .. | .movAlMoffs8 .. | .movAlMoffs8RexW ..
    | .movAxMoffs16 .. | .movEaxMoffs32 .. | .movRaxMoffs64 .. | .movMoffs8Al .. | .movMoffs8AlRexW ..
    | .movMoffs16Ax .. | .movMoffs32Eax .. | .movMoffs64Rax .. | .movR8Imm8 .. | .movR8Imm8Rex .. | .movR16Imm16 ..
    | .movR32Imm32 .. | .movR64Imm64 .. | .movRm8Imm8 .. | .movRm8Imm8Rex .. | .movRm16Imm16 .. | .movRm32Imm32 ..
    | .movRm64Imm32 .. => false

/-- The general register an `r/m` destination names, if it is one. -/
def rmReg : RM → Option RegNum
  | .reg n => some n
  | .mem _ => none

/-- The general register whose bits an instruction writes, if any (R24): the home of AH..DH for a byte form without REX. -/
def destReg : Instr → Option RegNum
  | .movRm8R8 _ d _ => (rmReg d).map fun n => (byteReg n false).1
  | .movRm8R8Rex _ d _ => rmReg d
  | .movRm16R16 _ d _ => rmReg d
  | .movRm32R32 _ d _ => rmReg d
  | .movRm64R64 _ d _ => rmReg d
  | .movR8Rm8 _ d _ => some (byteReg d false).1
  | .movR8Rm8Rex _ d _ => some d
  | .movR16Rm16 _ d _ => some d
  | .movR32Rm32 _ d _ => some d
  | .movR64Rm64 _ d _ => some d
  | .movRm16Sreg _ d _ => rmReg d
  | .movR32M16Sreg _ d _ => rmReg d
  | .movR64M16Sreg _ d _ => rmReg d
  | .movSregRm16 _ _ _ => none
  | .movSregRm64 _ _ _ => none
  | .movAlMoffs8 _ _ => some 0
  | .movAlMoffs8RexW _ _ => some 0
  | .movAxMoffs16 _ _ => some 0
  | .movEaxMoffs32 _ _ => some 0
  | .movRaxMoffs64 _ _ => some 0
  | .movMoffs8Al _ _ => none
  | .movMoffs8AlRexW _ _ => none
  | .movMoffs16Ax _ _ => none
  | .movMoffs32Eax _ _ => none
  | .movMoffs64Rax _ _ => none
  | .movR8Imm8 _ d _ => some (byteReg d false).1
  | .movR8Imm8Rex _ d _ => some d
  | .movR16Imm16 _ d _ => some d
  | .movR32Imm32 _ d _ => some d
  | .movR64Imm64 _ d _ => some d
  | .movRm8Imm8 _ d _ => (rmReg d).map fun n => (byteReg n false).1
  | .movRm8Imm8Rex _ d _ => rmReg d
  | .movRm16Imm16 _ d _ => rmReg d
  | .movRm32Imm32 _ d _ => rmReg d
  | .movRm64Imm32 _ d _ => rmReg d

/-- The segment register a load names, if the instruction is one (R167, R169). -/
def destSeg : Instr → Option SregField
  | .movSregRm16 _ f _ => some f
  | .movSregRm64 _ f _ => some f
  | .movRm8R8 .. | .movRm8R8Rex .. | .movRm16R16 .. | .movRm32R32 .. | .movRm64R64 .. | .movR8Rm8 ..
  | .movR8Rm8Rex .. | .movR16Rm16 .. | .movR32Rm32 .. | .movR64Rm64 .. | .movRm16Sreg .. | .movR32M16Sreg ..
  | .movR64M16Sreg .. | .movAlMoffs8 .. | .movAlMoffs8RexW .. | .movAxMoffs16 .. | .movEaxMoffs32 ..
  | .movRaxMoffs64 .. | .movMoffs8Al .. | .movMoffs8AlRexW .. | .movMoffs16Ax .. | .movMoffs32Eax ..
  | .movMoffs64Rax .. | .movR8Imm8 .. | .movR8Imm8Rex .. | .movR16Imm16 .. | .movR32Imm32 .. | .movR64Imm64 ..
  | .movRm8Imm8 .. | .movRm8Imm8Rex .. | .movRm16Imm16 .. | .movRm32Imm32 .. | .movRm64Imm32 .. => none

/-- The value an `r/m` source of `n` bytes has, when it can be read: a register's bits, or memory's (R100, R64). -/
def SourceIs (s : State) (h : Head) (len n : Nat) (src : RM) (v : Quad) : Prop :=
  match src with
  | .reg k => v = s.reg k
  | .mem m => ∃ pas, AccessAllowed s (memPlace s h len m).1 (memPlace s h len m).2 n .read pas ∧ v = valueAt s pas

/-- Protected, compatibility or 64-bit mode: the modes whose segment loads are checked (R168). -/
def isChecked (m : Mode) : Bool := isProt m || decide (m = .long64)

/-- The selector's entry lies outside its table (R171): index times 8, plus 7, beyond the limit, or no LDT. -/
def OutsideTable (s : State) (sel : BitVec 16) : Prop :=
  if sel.getLsbD 2 = true then s.ldtr.usable = false ∨ s.ldtr.limit.toNat < sel.toNat / 8 * 8 + 7
  else s.gdtr.limit.toNat < sel.toNat / 8 * 8 + 7

/-- The linear address of the selector's entry (R171). -/
def entryAddr (s : State) (sel : BitVec 16) : Quad :=
  linearWidth s ((if sel.getLsbD 2 = true then s.ldtr.base else s.gdtr.base) + BitVec.ofNat 64 (sel.toNat / 8 * 8))

/-- The eight bytes of the descriptor a selector names, when the table can be read (R171). -/
def DescriptorIs (s : State) (sel : BitVec 16) (raw : Quad) : Prop :=
  ¬OutsideTable s sel ∧ (s.mode = .long64 → CanonicalAccess s.params.linAddrWidth (entryAddr s sel) 8)
    ∧ ∃ pas, MapsTo s (entryAddr s sel) 8 .read false pas ∧ Reachable s .read pas ∧ raw = valueAt s pas

/-- `i` loads segment register `q` with the selector `sel`: no LOCK prefix, and the source can be read and holds `sel` in its
low 16 bits (R167, R169). -/
def LoadsSelector (s : State) (i : Instr) (q : SegReg) (sel : BitVec 16) : Prop :=
  ∃ h src v, h.lock = false ∧ sel = BitVec.setWidth 16 v
    ∧ ((i = .movSregRm16 h (.seg q) src ∧ SourceIs s h (modrmLength h src 0) 2 src v)
      ∨ (i = .movSregRm64 h (.seg q) src ∧ SourceIs s h (modrmLength h src 0) (m64Width s) src v))

/-- The linear address of byte 5 of a descriptor, which holds the accessed bit (R175). -/
def accessedAddr (s : State) (sel : BitVec 16) : Quad := byteAddr s (entryAddr s sel) 5

/-- The physical address of that byte. -/
def accessByte (s : State) (sel : BitVec 16) : Option Nat :=
  match translate s (accessedAddr s sel) .write false with
  | .ok pa => some pa.toNat
  | .error _ => none

/-- What a segment load that passes every check does (R168, R172, R175): both parts of `q` are replaced; the accessed bit of
the descriptor, if it is 0, is set in the table, or the page fault of that write is raised and nothing changes. -/
def LoadCompletes (s : State) (i : Instr) (q : SegReg) (sel : BitVec 16) (raw : Quad) : Prop :=
  if raw.getLsbD 40 = true then exec i s = .next (s.setSeg q ((descOf raw).segment sel))
  else
    (∀ b, accessByte s sel = some b → inRegions s.populated b = true → inRegions s.text b = false →
        ∃ t, StoresBytes s t [b] ((raw >>> 40) ||| 1) ∧ exec i s = .next (t.setSeg q ((descOf raw).segment sel)))
      ∧ (∀ code, translate s (accessedAddr s sel) .write false = .error code →
          exec i s = raised s .pf (some code) (some (accessedAddr s sel)))

/-- `i` stores `n` bytes of `v` at the place `p` and completes, whenever the access is allowed; nothing else changes. -/
def StoreCompletes (s : State) (i : Instr) (p : SegReg × Quad) (n : Nat) (v : Quad) : Prop :=
  ∀ pas, AccessAllowed s p.1 p.2 n .write pas → ∃ t, exec i s = .next t ∧ StoresBytes s t pas v

/-- The first of the `n` bytes at `la` whose translation faults: its code and its address (R71). -/
def PageFaultAt (s : State) (la : Quad) (n : Nat) (kind : Access) (user : Bool) (code : BitVec 32) (addr : Quad) : Prop :=
  ∃ k, k < n ∧ addr = byteAddr s la k ∧ translate s addr kind user = .error code
    ∧ ∀ j, j < k → ∃ pa, translate s (byteAddr s la j) kind user = .ok pa

/-- The exceptions a data access raises, each with its code and recorded address: the lists R250 to R254 for memory operands,
in the order of R64, R65 and R243. -/
inductive AccessRaises (s : State) (a : DataAccess) : ExcKind → Option (BitVec 32) → Option (BitVec 64) → Prop where
  /-- a NULL register, a store to a segment that is not writable, a load from code that is not readable -/
  | protection (hm : isProt s.mode = true) (h : ¬(NotNull s a.seg ∧ KindAllowed s a.seg a.kind)) :
      AccessRaises s a .gp (some 0) none
  /-- outside the segment limit -/
  | limit (hm : s.mode ≠ .long64) (hp : isProt s.mode = true → NotNull s a.seg ∧ KindAllowed s a.seg a.kind)
      (h : OutsideLimit (s.seg a.seg) a.ea a.bytes) :
      AccessRaises s a (if a.seg = .ss then .ss else .gp) (zeroCode s.mode) none
  /-- not canonical -/
  | nonCanonical (hm : s.mode = .long64)
      (h : ¬CanonicalAccess s.params.linAddrWidth (linear s a.seg a.ea) a.bytes) :
      AccessRaises s a (if a.seg = .ss then .ss else .gp) (some 0) none
  /-- unaligned -/
  | alignment (hs : SegAllowed s a.seg a.ea a.bytes a.kind) (h : Misaligned s (linear s a.seg a.ea) a.bytes)
      (hp : s.params.alignBeforePage = true
        ∨ ¬∃ c la, PageFaultAt s (linear s a.seg a.ea) a.bytes a.kind (decide (s.cpl = 3)) c la) :
      AccessRaises s a .ac (some 0) none
  /-- a page fault -/
  | page (hs : SegAllowed s a.seg a.ea a.bytes a.kind)
      (hp : s.params.alignBeforePage = false ∨ ¬Misaligned s (linear s a.seg a.ea) a.bytes) (c : BitVec 32) (la : Quad)
      (h : PageFaultAt s (linear s a.seg a.ea) a.bytes a.kind (decide (s.cpl = 3)) c la) :
      AccessRaises s a .pf (some c) (some la)

/-- The rows that need a REX prefix (R113). -/
def needsRex : Instr → Bool
  | .movRm8R8Rex _ _ _ => true
  | .movRm64R64 _ _ _ => true
  | .movR8Rm8Rex _ _ _ => true
  | .movR64Rm64 _ _ _ => true
  | .movR64M16Sreg _ _ _ => true
  | .movSregRm64 _ _ _ => true
  | .movAlMoffs8RexW _ _ => true
  | .movRaxMoffs64 _ _ => true
  | .movMoffs8AlRexW _ _ => true
  | .movMoffs64Rax _ _ => true
  | .movR8Imm8Rex _ _ _ => true
  | .movR64Imm64 _ _ _ => true
  | .movRm8Imm8Rex _ _ _ => true
  | .movRm64Imm32 _ _ _ => true
  | .movRm8R8 .. | .movRm16R16 .. | .movRm32R32 .. | .movR8Rm8 .. | .movR16Rm16 .. | .movR32Rm32 ..
  | .movRm16Sreg .. | .movR32M16Sreg .. | .movSregRm16 .. | .movAlMoffs8 .. | .movAxMoffs16 .. | .movEaxMoffs32 ..
  | .movMoffs8Al .. | .movMoffs16Ax .. | .movMoffs32Eax .. | .movR8Imm8 .. | .movR16Imm16 .. | .movR32Imm32 ..
  | .movRm8Imm8 .. | .movRm16Imm16 .. | .movRm32Imm32 .. => false

/-- The bytes of the immediate of a row: ib, iw, id, io (R107). -/
def immediateBytes : Instr → Nat
  | .movR8Imm8 _ _ _ => 1
  | .movR8Imm8Rex _ _ _ => 1
  | .movR16Imm16 _ _ _ => 2
  | .movR32Imm32 _ _ _ => 4
  | .movR64Imm64 _ _ _ => 8
  | .movRm8Imm8 _ _ _ => 1
  | .movRm8Imm8Rex _ _ _ => 1
  | .movRm16Imm16 _ _ _ => 2
  | .movRm32Imm32 _ _ _ => 4
  | .movRm64Imm32 _ _ _ => 4
  | .movRm8R8 .. | .movRm8R8Rex .. | .movRm16R16 .. | .movRm32R32 .. | .movRm64R64 .. | .movR8Rm8 ..
  | .movR8Rm8Rex .. | .movR16Rm16 .. | .movR32Rm32 .. | .movR64Rm64 .. | .movRm16Sreg .. | .movR32M16Sreg ..
  | .movR64M16Sreg .. | .movSregRm16 .. | .movSregRm64 .. | .movAlMoffs8 .. | .movAlMoffs8RexW .. | .movAxMoffs16 ..
  | .movEaxMoffs32 .. | .movRaxMoffs64 .. | .movMoffs8Al .. | .movMoffs8AlRexW .. | .movMoffs16Ax ..
  | .movMoffs32Eax .. | .movMoffs64Rax .. => 0

/-! Prefixes and addresses, as the rules say them. -/

/-- The classes of legacy prefixes, of each of which an accepted instruction has at most one (R124). -/
inductive LegacyClass where
  | segment
  | opSize
  | addrSize
  | lockRep
deriving DecidableEq, Repr

/-- The class of a legacy prefix byte (R93, R124). -/
def legacyClass (b : Byte) : Option LegacyClass :=
  if b.toNat ∈ [0x26, 0x2E, 0x36, 0x3E, 0x64, 0x65] then some .segment
  else if b.toNat = 0x66 then some .opSize
  else if b.toNat = 0x67 then some .addrSize
  else if b.toNat ∈ [0xF0, 0xF2, 0xF3] then some .lockRep
  else none

/-- Legacy prefixes as D13 accepts them: in any order, at most one of a class, and neither F2 nor F3. -/
def AcceptedFront (front : List Byte) : Prop :=
  (∀ b ∈ front, legacyClass b ≠ none ∧ b.toNat ≠ 0xF2 ∧ b.toNat ≠ 0xF3) ∧ (front.map legacyClass).Nodup

/-- A REX byte is one of 40 to 4F (R95). -/
def IsRexByte (b : Byte) : Prop := 0x40 ≤ b.toNat ∧ b.toNat ≤ 0x4F

/-- At most one REX byte, and that in 64-bit mode (R95, R96). -/
def OptionalRex (m : Mode) (bs : List Byte) : Prop := bs = [] ∨ m = .long64 ∧ ∃ b, IsRexByte b ∧ bs = [b]

/-- The displacement of a 16-bit form as a signed number (R101, R106). -/
def disp16Int : Disp16 → Int
  | .none => 0
  | .d8 v => v.toInt
  | .d16 v => v.toInt

/-- The displacement of a 32- or 64-bit form as a signed number (R102, R103, R106). -/
def disp32Int : Disp32 → Int
  | .none => 0
  | .d8 v => v.toInt
  | .d32 v => v.toInt

/-- The number of bits of an address of the instruction, from the mode, CS_D and the 67 prefix (R94). -/
def addressBits (s : State) (h : Head) : Nat :=
  if s.mode = .long64 then (if h.p67 then 32 else 64) else if (s.csD = .d32 ↔ h.p67 = true) then 16 else 32

/-- The bytes of `i` lie where the fetch of `s` finds them (R90, R238). -/
def CodeAt (s : State) (i : Instr) : Prop := ∀ k (h : k < (encode i).length), fetchByte s k = .ok (encode i)[k]

/-! Invariants. -/

/-- The stack segment always has the privilege of the processor, and outside 64-bit mode it stays a usable, present,
writable data segment (R36, R168, R255). Virtual-8086 mode runs at CPL 3. -/
def StackInv (s : State) : Prop :=
  (s.seg .ss).attr.dpl = s.cpl ∧ (s.mode = .v8086 → s.cpl = 3)
    ∧ (isProt s.mode = true → (s.seg .ss).usable = true ∧ (s.seg .ss).attr.present = true
        ∧ (s.seg .ss).attr.code = false ∧ (s.seg .ss).attr.writable = true)

/-- In the modes that check a load, a usable DS, ES, FS or GS holds a present data or readable code segment, and one that is
not conforming code has a DPL no more privileged than CPL (R168, R255). -/
def DataSegInv (s : State) : Prop :=
  s.mode ≠ .real → s.mode ≠ .v8086 → ∀ r, isDataSeg r = true → (s.seg r).usable = true →
    (s.seg r).attr.present = true
      ∧ ((s.seg r).attr.code = true → (s.seg r).attr.readable = true)
      ∧ ((s.seg r).attr.code = true ∧ (s.seg r).attr.conforming = true ∨ s.cpl ≤ (s.seg r).attr.dpl)

/-- Everything MOV never writes (R29, R34 to R38, R32 for CS, D3, D8, D18). -/
def SameControl (s t : State) : Prop :=
  t.rflags = s.rflags ∧ t.mode = s.mode ∧ t.csD = s.csD ∧ t.cpl = s.cpl ∧ t.acEnabled = s.acEnabled ∧ t.gdtr = s.gdtr
    ∧ t.ldtr = s.ldtr ∧ t.sreg.cs = s.sreg.cs ∧ t.populated = s.populated ∧ t.text = s.text
    ∧ t.translation = s.translation ∧ t.params = s.params ∧ t.endAddr = s.endAddr

/-- The state with other flags. -/
def State.withFlags (s : State) (f : BitVec 64) : State := { s with rflags := f }

/-- An outcome with other flags in the state it leaves. -/
def outcomeWithFlags (f : BitVec 64) : Host.Outcome State Fault Refusal → Host.Outcome State Fault Refusal
  | .next t => .next (t.withFlags f)
  | .fault (.exception e left) => .fault (.exception e (left.withFlags f))
  | .fault (.unpopulated a) => .fault (.unpopulated a)
  | .fault (.pcOutsideText a) => .fault (.pcOutsideText a)
  | .fault .interrupted => .fault .interrupted
  | .refused r => .refused r

end Sys2Proof.Machine
end

