-- ==== Sys2Proof/Certificates/Slice0/Obligations.lean ====
section
/-! DEFINITION. The statements for the provers, by subject: encoding, the step, exceptions, memory, the four families of MOV,
frames, invariants. Each docstring names the rule of spec/ behind the statement. -/

open Sys2Proof Sys2Proof.Machine

/-! Encoding. -/

/-- R90 to R113: in every context, every well-formed instruction of all 35 rows decodes from its own encoding, whatever
follows it, with every operand value. -/
def Obligations.EncodedInstructionDecodesToItself : Prop :=
  ∀ (c : Ctx) (i : Instr) (rest : List Byte), wellFormed c i = true → decode c (encode i ++ rest) = .ok (i, rest)

/-- R91, R94, R97, R112, D20: whatever the decoder answers fits the context (REX only in 64-bit mode, the row's operand size,
its registers and address form), and it has consumed exactly the instruction's length: at most MAX_INSN_LEN bytes without
LOCK and 16 with it. Sixteen bytes are always enough to decode or to refuse (log 23). -/
def Obligations.DecodedInstructionFitsContextAndLength : Prop :=
  ∀ (c : Ctx) (bs : List Byte),
    (∀ i rest, decode c bs = .ok (i, rest) →
      headOk c i.head = true ∧ rowOk c i = true ∧ (∃ front, bs = front ++ rest ∧ front.length = i.length)
        ∧ i.length ≤ 16 ∧ (i.head.lock = false → i.length ≤ Config.maxInsnLen))
      ∧ (16 ≤ bs.length → decode c bs ≠ .error .needMore)

/-- R113, C1: outside 64-bit mode the fourteen REX rows are never decoded, and 40 to 4F are no prefix but refused, after
whichever legacy prefixes. -/
def Obligations.RexRowsExistOnlyIn64BitMode : Prop :=
  ∀ (c : Ctx), c.mode ≠ .long64 →
    (∀ bs i rest, decode c bs = .ok (i, rest) → needsRex i = false)
      ∧ (∀ front (b : Byte) bs, AcceptedFront front → IsRexByte b → decode c (front ++ b :: bs) = .error (.notMov b))

/-- R123, R124, R96, R122, D13, D14: after any accepted legacy prefixes, F2 and F3, a second prefix of a class, in 64-bit mode
a REX byte before another REX byte or a legacy prefix, C6 and C7 with another digit than 0, and REX.R on 8C and 8E are refused.
The last two are refused where the bytes a ModRM operand may need are at hand, and where they are not nothing is decoded
either: that the operand is read first is the model's choice (log 42). -/
def Obligations.UncoveredEncodingsAreRefused : Prop :=
  ∀ (c : Ctx) (front bs : List Byte), AcceptedFront front →
    (∀ b : Byte, b.toNat = 0xF2 ∨ b.toNat = 0xF3 → decode c (front ++ b :: bs) = .error .repeatPrefix)
      ∧ (∀ b : Byte, b.toNat ≠ 0xF2 → b.toNat ≠ 0xF3 → legacyClass b ∈ front.map legacyClass →
          decode c (front ++ b :: bs) = .error .sameClassTwice)
      ∧ (c.mode = .long64 → ∀ b b' : Byte, IsRexByte b → IsRexByte b' ∨ legacyClass b' ≠ none →
          decode c (front ++ b :: b' :: bs) = .error .rexNotLast)
      ∧ (∀ x (op m : Byte), OptionalRex c.mode x → op.toNat = 0xC6 ∨ op.toNat = 0xC7 → m.toNat / 8 % 8 ≠ 0 →
          (5 ≤ bs.length → decode c (front ++ (x ++ op :: m :: bs)) = .error .groupDigit)
            ∧ (decode c (front ++ (x ++ op :: m :: bs)) = .error .groupDigit
              ∨ decode c (front ++ (x ++ op :: m :: bs)) = .error .needMore))
      ∧ (c.mode = .long64 → ∀ b op m : Byte, IsRexByte b → b.toNat / 4 % 2 = 1 → op.toNat = 0x8C ∨ op.toNat = 0x8E →
          (5 ≤ bs.length → decode c (front ++ b :: op :: m :: bs) = .error .rexRWithSreg)
            ∧ (decode c (front ++ b :: op :: m :: bs) = .error .rexRWithSreg
              ∨ decode c (front ++ b :: op :: m :: bs) = .error .needMore))

/-- R125, D2: after any accepted prefixes, an opcode byte that is neither a prefix nor one of the MOV opcodes is refused by
name, with no step and no #UD. -/
def Obligations.OtherOpcodesAreRefused : Prop :=
  ∀ (c : Ctx) (front x : List Byte) (b : Byte) (bs : List Byte), AcceptedFront front → OptionalRex c.mode x →
    legacyClass b = none → ¬(c.mode = .long64 ∧ IsRexByte b) →
    b.toNat ∉ [0x88, 0x89, 0x8A, 0x8B, 0x8C, 0x8E, 0xA0, 0xA1, 0xA2, 0xA3, 0xC6, 0xC7] → ¬(0xB0 ≤ b.toNat ∧ b.toNat ≤ 0xBF) →
    decode c (front ++ (x ++ b :: bs)) = .error (.notMov b)

/-- R111, from the vectors V1, V2, V29, V26 and the examples of R190, R212, R219, R167: words written out byte by byte. -/
def Obligations.SampleWordsDecode : Prop :=
  decode { mode := .long64, csD := .d32 } [0x88, 0xE0] = .ok (.movRm8R8 Head.empty (.reg 0) 4, [])
    ∧ decode { mode := .long64, csD := .d32 } [0x40, 0x88, 0xE0]
        = .ok (.movRm8R8Rex { Head.empty with rex := true } (.reg 0) 4, [])
    ∧ decode { mode := .long64, csD := .d32 } [0x4F, 0x89, 0xB4, 0x6C, 0x00, 0x01, 0x00, 0x00]
        = .ok (.movRm64R64 { Head.empty with rex := true } (.mem (.sib 1 (some 13) 12 (.d32 0x100))) 14, [])
    ∧ decode { mode := .long64, csD := .d32 } [0x8B, 0x05, 0x10, 0x00, 0x00, 0x00]
        = .ok (.movR32Rm32 Head.empty 0 (.mem (.rip 0x10)), [])
    ∧ decode { mode := .real, csD := .d16 } [0xA0, 0x00, 0x20] = .ok (.movAlMoffs8 Head.empty (.o16 0x2000), [])
    ∧ decode { mode := .long64, csD := .d32 } [0x66, 0xB8, 0x34, 0x12]
        = .ok (.movR16Imm16 { Head.empty with p66 := true } 0 0x1234, [])
    ∧ decode { mode := .long64, csD := .d32 } [0x48, 0xC7, 0xC0, 0xFF, 0xFF, 0xFF, 0xFF]
        = .ok (.movRm64Imm32 { Head.empty with rex := true } (.reg 0) 0xFFFFFFFF, [])
    ∧ decode { mode := .prot, csD := .d32 } [0x8E, 0xD0] = .ok (.movSregRm16 Head.empty (.seg .ss) (.reg 0), [])

/-! The step. -/

/-- R13, R27, R40: where no event is delivered and the bytes at the pc decode to `i`, the step is `exec i`; when it completes
the pc moves past the instruction and `inhibit_events` is updated (log 18: after a second MOV to SS it is a free value); a
fault or a refusal is the step's own. `passBoundary` uses up the entry of the event schedule (log 17). -/
def Obligations.StepRunsTheDecodedInstruction : Prop :=
  ∀ (s : State) (i : Instr), s.delivers = false → fetchInstr s.passBoundary = .ok i →
    (∀ f, exec i s.passBoundary = .fault f → step s = .fault f)
      ∧ (∀ r, exec i s.passBoundary = .refused r → step s = .refused r)
      ∧ (∀ t, exec i s.passBoundary = .next t → step s = .next
          { t with
            pc :=
              if t.mode = .long64 then t.pc + BitVec.ofNat 64 i.length
              else if t.csD = .d32 then ((t.pc + BitVec.ofNat 64 i.length).setWidth 32).setWidth 64
              else ((t.pc + BitVec.ofNat 64 i.length).setWidth 16).setWidth 64
            inhibitEvents :=
              decide (destSeg i = some (.seg .ss)) && (!t.inhibitEvents || Config.freeInhibit t.draws)
            draws := if destSeg i = some (.seg .ss) ∧ t.inhibitEvents = true then t.draws + 1 else t.draws })

/-- R90, R91: the bytes of a well-formed instruction that lie where the fetch looks are fetched and decoded as it, whatever
lies after them. -/
def Obligations.EncodedBytesAreFetched : Prop :=
  ∀ (s : State) (i : Instr), wellFormed s.ctx i = true → CodeAt s i → fetchInstr s = .ok i

/-- R13, R248, D12: the run is interrupted exactly when an event is pending at the boundary (log 17: the head of the schedule)
and `inhibit_events` is false. -/
def Obligations.EventsAreDeliveredUnlessInhibited : Prop :=
  ∀ s : State, step s = .fault .interrupted ↔ s.inhibitEvents = false ∧ s.events.head? = some true

/-- R40, with events as the spec's decision D12 has them (log 17): a completed MOV to SS that ran without inhibition
sets `inhibit_events`, every other completed instruction and every exception clears it, and while it is set no event is
delivered. After a MOV to SS under inhibition nothing is claimed (D12 leaves the bit open, log 18). -/
def Obligations.MovToStackSegmentInhibitsEvents : Prop :=
  ∀ s : State,
    (∀ t, step s = .next t → ∃ i, fetchInstr s.passBoundary = .ok i
      ∧ (destSeg i = some (.seg .ss) → s.inhibitEvents = false → t.inhibitEvents = true)
      ∧ (destSeg i ≠ some (.seg .ss) → t.inhibitEvents = false))
    ∧ (∀ e left, step s = .fault (.exception e left) → left.inhibitEvents = false)
    ∧ (s.inhibitEvents = true → step s ≠ .fault .interrupted)

/-- R27, R262: a step that completes moves the pc past the instruction it fetched, at the width of the mode. -/
def Obligations.CompletedStepAdvancesPc : Prop :=
  ∀ s t : State, step s = .next t → ∃ i, fetchInstr s.passBoundary = .ok i
    ∧ (s.mode = .long64 → t.pc.toNat = (s.pc.toNat + i.length) % 2 ^ 64)
    ∧ (s.mode ≠ .long64 → s.csD = .d32 → t.pc.toNat = (s.pc.toNat + i.length) % 2 ^ 32)
    ∧ (s.mode ≠ .long64 → s.csD = .d16 → t.pc.toNat = (s.pc.toNat + i.length) % 2 ^ 16)

/-- R13, R28, R238, R75, D2, D13, D20 (logs 24, 25 and 42 fix the order): where `bs` are the first bytes that the fetch finds and
the instruction needs a byte more, what the step does when that byte, the first or a later one, cannot be fetched: refused
past the offset space, #GP(0) outside the code segment, #PF where translation faults, stuck outside the program text and, in
it, outside the populated set. Where `bs` are enough to refuse the instruction, the step is refused by that name, whatever
lies after them. -/
def Obligations.FetchAndDecodeFailures : Prop :=
  ∀ (s : State) (bs : List Byte), s.delivers = false →
    let u := s.passBoundary
    let off := u.pc.toNat + bs.length
    let la := linear u .cs (BitVec.ofNat 64 off)
    (∀ k (h : k < bs.length), fetchByte u k = .ok bs[k]) →
    (decode u.ctx bs = .error .needMore →
      if (if u.mode = .long64 then 2 ^ 64 else if u.csD = .d32 then 2 ^ 32 else 2 ^ 16) ≤ off then
        step s = .refused .wrapsOffsetSpace
      else
        ((u.mode ≠ .long64 ∧ (u.seg .cs).limit.toNat < off ∨ u.mode = .long64 ∧ ¬Canonical u.params.linAddrWidth la) →
            step s = raised u .gp (zeroCode u.mode) none)
          ∧ ((u.mode ≠ .long64 ∧ off ≤ (u.seg .cs).limit.toNat ∨ u.mode = .long64 ∧ Canonical u.params.linAddrWidth la) →
            (∀ code, translate u la .fetch (decide (u.cpl = 3)) = .error code →
                step s = raised u .pf (some code) (some la))
              ∧ (∀ pa, translate u la .fetch (decide (u.cpl = 3)) = .ok pa →
                (inRegions u.text pa.toNat = false → step s = .fault (.pcOutsideText pa.toNat))
                  ∧ (inRegions u.text pa.toNat = true → inRegions u.populated pa.toNat = false →
                      step s = .fault (.unpopulated pa.toNat)))))
      ∧ (∀ op, decode u.ctx bs = .error (.notMov op) → step s = .refused (.notMov op))
      ∧ (decode u.ctx bs = .error .groupDigit → step s = .refused .groupDigit)
      ∧ (decode u.ctx bs = .error .repeatPrefix → step s = .refused .repeatPrefix)
      ∧ (decode u.ctx bs = .error .sameClassTwice → step s = .refused .sameClassTwice)
      ∧ (decode u.ctx bs = .error .rexNotLast → step s = .refused .rexNotLast)
      ∧ (decode u.ctx bs = .error .rexRWithSreg → step s = .refused .rexRWithSreg)

/-- The values State.reset has. `inhibit_events` = false is the spec's (R43, D8), as are the parameters (D7, D11, D19). Every
other value is the model's choice: R43's last column, which the spec marks as outside the source (log 2), but for RDX = 0
(log 3), no memory listed (log 5), no program text (log 7), no paging rule (log 10) and no event (log 17). -/
def Obligations.ResetValues : Prop :=
  State.reset.inhibitEvents = false ∧ State.reset.params.sregStoreUpper = .zero
    ∧ State.reset.params.linAddrWidth = .w48 ∧ State.reset.params.alignBeforePage = true
    ∧ State.reset.mode = .real ∧ State.reset.csD = .d16 ∧ State.reset.cpl = 0 ∧ State.reset.acEnabled = false
    ∧ State.reset.pc = 0xFFF0 ∧ State.reset.rflags = 2 ∧ (∀ n, State.reset.reg n = 0)
    ∧ (State.reset.seg .cs).sel = 0xF000 ∧ (State.reset.seg .cs).base = 0xFFFF0000
    ∧ (∀ r, (State.reset.seg r).limit = 0xFFFF ∧ (State.reset.seg r).attr.present = true)
    ∧ (∀ r, r ≠ .cs → (State.reset.seg r).sel = 0 ∧ (State.reset.seg r).base = 0 ∧ (State.reset.seg r).attr.writable = true)
    ∧ State.reset.gdtr = { base := 0, limit := 0xFFFF }
    ∧ State.reset.ldtr.sel = 0 ∧ State.reset.ldtr.base = 0 ∧ State.reset.ldtr.limit = 0xFFFF
    ∧ State.reset.mem = [] ∧ State.reset.text = [] ∧ State.reset.translation = [] ∧ State.reset.events = []

/-! Exceptions. -/

/-- Section 2 of 60_exceptions.md: every exception any row raises is precise: the state it leaves is the state before the
instruction, registers, segment registers, memory and pc alike, with `inhibit_events` false. That it holds for every exception
and for the pc is what R240 itself marks as general knowledge (log 1). -/
def Obligations.ExceptionsArePrecise : Prop :=
  ∀ (i : Instr) (s : State) (e : Exception) (left : State),
    exec i s = .fault (.exception e left) → left = { s with inhibitEvents := false }

/-- R120: each of the 35 rows with a LOCK prefix raises #UD, whatever its operands; nothing is read or written. -/
def Obligations.LockRaisesInvalidOpcode : Prop :=
  ∀ (i : Instr) (s : State), i.head.lock = true → exec i s = raised s .ud none none

/-- R121: 8E with the number of CS (1) raises #UD for any source, with and without REX.W; 8C with it is legal and gives the
selector of CS (the spec derives this last: the page forbids only the load). -/
def Obligations.LoadingCsRaisesInvalidOpcode : Prop :=
  ∀ (s : State) (h : Head) (src : RM) (n : RegNum),
    sregField 1 = .seg .cs ∧ exec (.movSregRm16 h (.seg .cs) src) s = raised s .ud none none
      ∧ exec (.movSregRm64 h (.seg .cs) src) s = raised s .ud none none
      ∧ (h.lock = false → exec (.movRm16Sreg h (.reg n) (.seg .cs)) s
          = .next (withWord s n ((s.seg .cs).sel.setWidth 64)))

/-- Numbers 6 and 7 in 8C and 8E name no segment register and raise #UD before any operand is touched: the spec's decision D15
(R122), which no source states (log 22). -/
def Obligations.SegmentNumbersSixAndSevenRaiseInvalidOpcode : Prop :=
  ∀ (i : Instr) (s : State) (h : Head) (m : RM) (f : SregField), f = .none6 ∨ f = .none7 →
    (i = .movRm16Sreg h m f ∨ i = .movR32M16Sreg h m f ∨ i = .movR64M16Sreg h m f ∨ i = .movSregRm16 h f m
      ∨ i = .movSregRm64 h f m) → exec i s = raised s .ud none none

/-- R251: the exceptions of real-address mode are exactly these: #UD for LOCK and a load of CS (and, by the spec's decision D15,
numbers 6 and 7); #SS or #GP without an error code for a memory operand outside its segment limit. Nothing else raises, for any
row. -/
def Obligations.RealModeExceptionList : Prop :=
  ∀ (i : Instr) (s : State) (k : ExcKind) (code : Option (BitVec 32)) (addr : Option (BitVec 64)), s.mode = .real →
    (exec i s = raised s k code addr ↔
      code = none ∧ addr = none
        ∧ (raisesUD i = true ∧ k = .ud
          ∨ raisesUD i = false ∧ ∃ a, dataAccess s i = some a ∧ OutsideLimit (s.seg a.seg) a.ea a.bytes
              ∧ k = if a.seg = .ss then .ss else .gp))

/-- R252: the exceptions of virtual-8086 mode are exactly these: #UD as above (D15 included), #SS(0) or #GP(0) outside the
segment limit, #AC(0) for an unaligned reference with alignment checking enabled, #PF(fault-code) for a page fault (R243, D7:
which of the last two comes first is the parameter PRIORITY). -/
def Obligations.Virtual8086ExceptionList : Prop :=
  ∀ (i : Instr) (s : State) (k : ExcKind) (code : Option (BitVec 32)) (addr : Option (BitVec 64)), s.mode = .v8086 →
    (exec i s = raised s k code addr ↔
      raisesUD i = true ∧ k = .ud ∧ code = none ∧ addr = none
        ∨ raisesUD i = false ∧ ∃ a, dataAccess s i = some a
          ∧ (OutsideLimit (s.seg a.seg) a.ea a.bytes ∧ k = (if a.seg = .ss then .ss else .gp) ∧ code = some 0 ∧ addr = none
            ∨ ¬OutsideLimit (s.seg a.seg) a.ea a.bytes ∧ Misaligned s (linear s a.seg a.ea) a.bytes
              ∧ (s.params.alignBeforePage = true
                ∨ ¬∃ c la, PageFaultAt s (linear s a.seg a.ea) a.bytes a.kind (decide (s.cpl = 3)) c la)
              ∧ k = .ac ∧ code = some 0 ∧ addr = none
            ∨ ¬OutsideLimit (s.seg a.seg) a.ea a.bytes
              ∧ (s.params.alignBeforePage = false ∨ ¬Misaligned s (linear s a.seg a.ea) a.bytes)
              ∧ ∃ c la, PageFaultAt s (linear s a.seg a.ea) a.bytes a.kind (decide (s.cpl = 3)) c la
                  ∧ k = .pf ∧ code = some c ∧ addr = some la))

/-- R250, R253, R254 (memory lines), R58, R62 to R66, R71, R242, R243: in every mode, the exception of a memory operand is
raised, by every row, segment loads included (their source is read first). -/
def Obligations.MemoryOperandExceptionsAreRaised : Prop :=
  ∀ (i : Instr) (s : State) (a : DataAccess) (k : ExcKind) (code : Option (BitVec 32)) (addr : Option (BitVec 64)),
    raisesUD i = false → dataAccess s i = some a → AccessRaises s a k code addr → exec i s = raised s k code addr

/-- R151, R180 (store column), R201, R221: in every mode, a row that loads no segment register raises no exception but #UD
(LOCK, numbers 6 and 7) and those of its one memory operand. -/
def Obligations.NoOtherExceptionsOutsideSegmentLoads : Prop :=
  ∀ (i : Instr) (s : State) (e : Exception) (left : State), destSeg i = none →
    exec i s = .fault (.exception e left) →
    e.mnemonic = .mov ∧ (raisesUD i = true ∧ e.kind = .ud ∧ e.code = none ∧ e.addr = none
      ∨ raisesUD i = false ∧ ∃ a, dataAccess s i = some a ∧ AccessRaises s a e.kind e.code e.addr)

/-- R75, D18 and R83: an access that passes every check and touches an unpopulated byte is stuck; a store all of whose bytes
are populated and some lie in the program text is refused. That stuck comes before the refusal where both apply is the
model's choice (log 40), and so is that both sets hold physical addresses (logs 8 and 9). -/
def Obligations.UnpopulatedIsStuckAndTextIsRefused : Prop :=
  ∀ (i : Instr) (s : State) (a : DataAccess) (pas : List Nat), raisesUD i = false → dataAccess s i = some a →
    SegAllowed s a.seg a.ea a.bytes a.kind → ¬Misaligned s (linear s a.seg a.ea) a.bytes →
    MapsTo s (linear s a.seg a.ea) a.bytes a.kind (decide (s.cpl = 3)) pas →
    ((∃ b ∈ pas, inRegions s.populated b = false) →
        ∃ b ∈ pas, inRegions s.populated b = false ∧ exec i s = .fault (.unpopulated b))
      ∧ ((∀ b ∈ pas, inRegions s.populated b = true) → a.kind = .write → (∃ b ∈ pas, inRegions s.text b = true) →
        ∃ b ∈ pas, inRegions s.text b = true ∧ exec i s = .refused (.storesIntoText b))

/-! Memory. -/

/-- R53, with R52: after a write of `n` bytes, with translation off, a read of `m` bytes at offset `k` inside them gives the
part of the value that starts at bit 8k. -/
def Obligations.NarrowReadAfterWideWrite : Prop :=
  ∀ (s t : State) (la v : Quad) (user user' : Bool) (n k m : Nat), n ≤ 8 → k + m ≤ n →
    s.mode = .real ∨ s.translation = [] → memWrite s la n v user = .ok t →
    memRead t (la + BitVec.ofNat 64 k) m user' = .ok (BitVec.ofNat 64 (v.toNat / 2 ^ (8 * k) % 2 ^ (8 * m)))

/-- R72: a write of which any byte's translation faults raises #PF for the lowest such byte and writes nothing; otherwise, with
every byte populated and outside the text, the bytes are stored and nothing else changes. -/
def Obligations.WritesAreAllOrNothing : Prop :=
  ∀ (s : State) (la v : Quad) (n : Nat) (user : Bool),
    (∀ c a, PageFaultAt s la n .write user c a → memWrite s la n v user = .error (.pf c a))
      ∧ (∀ pas, MapsTo s la n .write user pas → Reachable s .write pas →
          ∃ t, memWrite s la n v user = .ok t ∧ StoresBytes s t pas v)

/-! Family 40: MOV between registers and memory. -/

/-- R140, R141, R145, R146, R21, R23, R24: T1, T2, T6 and T7 with a register operand replace the byte the destination number
names (AH to BH for 4 to 7 without REX) by the byte the source number names; nothing else changes. -/
def Obligations.ByteMovesBetweenRegisters : Prop :=
  ∀ (s : State) (h : Head) (d r : RegNum), h.lock = false →
    exec (.movRm8R8 h (.reg d) r) s = .next (withByte s d false (byteValue s r false))
      ∧ exec (.movRm8R8Rex h (.reg d) r) s = .next (withByte s d true (byteValue s r true))
      ∧ exec (.movR8Rm8 h d (.reg r)) s = .next (withByte s d false (byteValue s r false))
      ∧ exec (.movR8Rm8Rex h d (.reg r)) s = .next (withByte s d true (byteValue s r true))

/-- R142 to R144, R147 to R149, R24: T3 to T5 and T8 to T10 with a register operand: bits 15:0 replaced; bits 31:0 replaced
and, in 64-bit mode, bits 63:32 cleared; the whole register. Nothing else changes. -/
def Obligations.WideMovesBetweenRegisters : Prop :=
  ∀ (s : State) (h : Head) (d r : RegNum), h.lock = false →
    exec (.movRm16R16 h (.reg d) r) s = .next (withWord s d (s.reg r))
      ∧ exec (.movRm32R32 h (.reg d) r) s = .next (withDword s d (s.reg r))
      ∧ exec (.movRm64R64 h (.reg d) r) s = .next (s.setReg d (s.reg r))
      ∧ exec (.movR16Rm16 h d (.reg r)) s = .next (withWord s d (s.reg r))
      ∧ exec (.movR32Rm32 h d (.reg r)) s = .next (withDword s d (s.reg r))
      ∧ exec (.movR64Rm64 h d (.reg r)) s = .next (s.setReg d (s.reg r))

/-- R140 to R144 with a memory destination: T1 to T5 store 1, 1, 2, 4, 8 bytes of the source register, least significant
first, at the place of the operand; no other byte and nothing else changes. -/
def Obligations.RegisterStoresToMemory : Prop :=
  ∀ (s : State) (h : Head) (m : MemOp) (r : RegNum), h.lock = false →
    let p := memPlace s h (modrmLength h (.mem m) 0) m
    StoreCompletes s (.movRm8R8 h (.mem m) r) p 1 (byteValue s r false)
      ∧ StoreCompletes s (.movRm8R8Rex h (.mem m) r) p 1 (byteValue s r true)
      ∧ StoreCompletes s (.movRm16R16 h (.mem m) r) p 2 (s.reg r)
      ∧ StoreCompletes s (.movRm32R32 h (.mem m) r) p 4 (s.reg r)
      ∧ StoreCompletes s (.movRm64R64 h (.mem m) r) p 8 (s.reg r)

/-- R145 to R149 with a memory source, R152: T6 to T10 read 1, 1, 2, 4, 8 bytes at an address formed from the registers before
the instruction, and then write the destination register; nothing else changes. -/
def Obligations.RegisterLoadsFromMemory : Prop :=
  ∀ (s : State) (h : Head) (m : MemOp) (d : RegNum) (pas : List Nat), h.lock = false →
    let p := memPlace s h (modrmLength h (.mem m) 0) m
    (AccessAllowed s p.1 p.2 1 .read pas →
        exec (.movR8Rm8 h d (.mem m)) s = .next (withByte s d false (valueAt s pas))
          ∧ exec (.movR8Rm8Rex h d (.mem m)) s = .next (withByte s d true (valueAt s pas)))
      ∧ (AccessAllowed s p.1 p.2 2 .read pas →
        exec (.movR16Rm16 h d (.mem m)) s = .next (withWord s d (valueAt s pas)))
      ∧ (AccessAllowed s p.1 p.2 4 .read pas →
        exec (.movR32Rm32 h d (.mem m)) s = .next (withDword s d (valueAt s pas)))
      ∧ (AccessAllowed s p.1 p.2 8 .read pas →
        exec (.movR64Rm64 h d (.mem m)) s = .next (s.setReg d (valueAt s pas)))

/-- R261, R126: a register moved to itself at 8, 16 or 64 bits changes nothing; at 32 bits in 64-bit mode it loses bits 63:32,
outside it nothing changes. -/
def Obligations.MovesToTheSameRegister : Prop :=
  ∀ (s : State) (h : Head) (n : RegNum), h.lock = false →
    exec (.movRm8R8 h (.reg n) n) s = .next s ∧ exec (.movRm8R8Rex h (.reg n) n) s = .next s
      ∧ exec (.movRm16R16 h (.reg n) n) s = .next s ∧ exec (.movRm64R64 h (.reg n) n) s = .next s
      ∧ exec (.movRm32R32 h (.reg n) n) s
          = .next (s.setReg n (if s.mode = .long64 then BitVec.ofNat 64 ((s.reg n).toNat % 2 ^ 32) else s.reg n))

/-! Family 42: the accumulator and an absolute offset. -/

/-- R190 to R194, R203: T16 to T20 load 1, 1, 2, 4, 8 bytes at the offset into AL, AL, AX, EAX, RAX; nothing else changes. -/
def Obligations.AccumulatorLoadsFromOffset : Prop :=
  ∀ (s : State) (h : Head) (o : Moffs) (pas : List Nat), h.lock = false →
    let p := offPlace s h o
    (AccessAllowed s p.1 p.2 1 .read pas →
        exec (.movAlMoffs8 h o) s = .next (withByte s 0 true (valueAt s pas))
          ∧ exec (.movAlMoffs8RexW h o) s = .next (withByte s 0 true (valueAt s pas)))
      ∧ (AccessAllowed s p.1 p.2 2 .read pas → exec (.movAxMoffs16 h o) s = .next (withWord s 0 (valueAt s pas)))
      ∧ (AccessAllowed s p.1 p.2 4 .read pas → exec (.movEaxMoffs32 h o) s = .next (withDword s 0 (valueAt s pas)))
      ∧ (AccessAllowed s p.1 p.2 8 .read pas → exec (.movRaxMoffs64 h o) s = .next (s.setReg 0 (valueAt s pas)))

/-- R195 to R199: T21 to T25 store the low 1, 1, 2, 4, 8 bytes of the accumulator at the offset; nothing else changes. -/
def Obligations.AccumulatorStoresToOffset : Prop :=
  ∀ (s : State) (h : Head) (o : Moffs), h.lock = false →
    let p := offPlace s h o
    StoreCompletes s (.movMoffs8Al h o) p 1 (s.reg 0) ∧ StoreCompletes s (.movMoffs8AlRexW h o) p 1 (s.reg 0)
      ∧ StoreCompletes s (.movMoffs16Ax h o) p 2 (s.reg 0) ∧ StoreCompletes s (.movMoffs32Eax h o) p 4 (s.reg 0)
      ∧ StoreCompletes s (.movMoffs64Rax h o) p 8 (s.reg 0)

/-! Family 43: immediates. -/

/-- R210 to R214: T26 to T30 put the immediate into the register at its width; a 32-bit immediate is zero-extended in 64-bit
mode; nothing else changes. -/
def Obligations.ImmediatesIntoOpcodeRegisters : Prop :=
  ∀ (s : State) (h : Head) (d : RegNum) (b : BitVec 8) (w : BitVec 16) (l : BitVec 32) (q : BitVec 64), h.lock = false →
    exec (.movR8Imm8 h d b) s = .next (withByte s d false (b.setWidth 64))
      ∧ exec (.movR8Imm8Rex h d b) s = .next (withByte s d true (b.setWidth 64))
      ∧ exec (.movR16Imm16 h d w) s = .next (withWord s d (w.setWidth 64))
      ∧ exec (.movR32Imm32 h d l) s = .next (withDword s d (l.setWidth 64))
      ∧ exec (.movR64Imm64 h d q) s = .next (s.setReg d q)

/-- R215 to R219 with a register destination: T31 to T35; T35 sign-extends its 32-bit immediate. -/
def Obligations.ImmediatesIntoRegisterOperands : Prop :=
  ∀ (s : State) (h : Head) (d : RegNum) (b : BitVec 8) (w : BitVec 16) (l : BitVec 32), h.lock = false →
    exec (.movRm8Imm8 h (.reg d) b) s = .next (withByte s d false (b.setWidth 64))
      ∧ exec (.movRm8Imm8Rex h (.reg d) b) s = .next (withByte s d true (b.setWidth 64))
      ∧ exec (.movRm16Imm16 h (.reg d) w) s = .next (withWord s d (w.setWidth 64))
      ∧ exec (.movRm32Imm32 h (.reg d) l) s = .next (withDword s d (l.setWidth 64))
      ∧ exec (.movRm64Imm32 h (.reg d) l) s = .next (s.setReg d (BitVec.ofInt 64 l.toInt))

/-- R215 to R219 with a memory destination, R104: T31 to T35 store 1, 1, 2, 4, 8 bytes of the immediate (T35: sign-extended)
at the place of the operand, the immediate counted in the length a RIP-relative address uses; nothing else changes. -/
def Obligations.ImmediatesIntoMemory : Prop :=
  ∀ (s : State) (h : Head) (m : MemOp) (b : BitVec 8) (w : BitVec 16) (l : BitVec 32), h.lock = false →
    StoreCompletes s (.movRm8Imm8 h (.mem m) b) (memPlace s h (modrmLength h (.mem m) 1) m) 1 (b.setWidth 64)
      ∧ StoreCompletes s (.movRm8Imm8Rex h (.mem m) b) (memPlace s h (modrmLength h (.mem m) 1) m) 1 (b.setWidth 64)
      ∧ StoreCompletes s (.movRm16Imm16 h (.mem m) w) (memPlace s h (modrmLength h (.mem m) 2) m) 2 (w.setWidth 64)
      ∧ StoreCompletes s (.movRm32Imm32 h (.mem m) l) (memPlace s h (modrmLength h (.mem m) 4) m) 4 (l.setWidth 64)
      ∧ StoreCompletes s (.movRm64Imm32 h (.mem m) l) (memPlace s h (modrmLength h (.mem m) 4) m) 8 (BitVec.ofInt 64 l.toInt)

/-! Family 41: segment registers as operands. -/

/-- R164 to R166, D27: T11, T12 and T13 with a register destination: the selector into bits 15:0; with zeros above it at
operand sizes 32 and 64. Under SREG_STORE_UPPER = undefined, bits 31:16 of T12 are some value (U1, log 18). -/
def Obligations.SelectorIntoRegister : Prop :=
  ∀ (s : State) (h : Head) (n : RegNum) (r : SegReg), h.lock = false →
    exec (.movRm16Sreg h (.reg n) (.seg r)) s = .next (withWord s n ((s.seg r).sel.setWidth 64))
      ∧ (operandSize s.ctx false h.p66 = .dword → s.params.sregStoreUpper = .zero →
          exec (.movR32M16Sreg h (.reg n) (.seg r)) s = .next (withDword s n ((s.seg r).sel.setWidth 64)))
      ∧ (operandSize s.ctx false h.p66 = .dword → s.params.sregStoreUpper = .undefined →
          ∃ u : BitVec 16, exec (.movR32M16Sreg h (.reg n) (.seg r)) s
            = .next ((withDword s n ((u ++ (s.seg r).sel).setWidth 64)).setDraws (s.draws + 1)))
      ∧ (operandSize s.ctx false h.p66 = .word →
          exec (.movR32M16Sreg h (.reg n) (.seg r)) s = .next (withWord s n ((s.seg r).sel.setWidth 64)))
      ∧ exec (.movR64M16Sreg h (.reg n) (.seg r)) s = .next (s.setReg n ((s.seg r).sel.setWidth 64))

/-- R164 to R166 with a memory destination: T11, T12 and T13 store exactly the two bytes of the selector, at any operand size;
nothing else changes. -/
def Obligations.SelectorIntoMemory : Prop :=
  ∀ (s : State) (h : Head) (m : MemOp) (r : SegReg), h.lock = false →
    let p := memPlace s h (modrmLength h (.mem m) 0) m
    StoreCompletes s (.movRm16Sreg h (.mem m) (.seg r)) p 2 ((s.seg r).sel.setWidth 64)
      ∧ StoreCompletes s (.movR32M16Sreg h (.mem m) (.seg r)) p 2 ((s.seg r).sel.setWidth 64)
      ∧ StoreCompletes s (.movR64M16Sreg h (.mem m) (.seg r)) p 2 ((s.seg r).sel.setWidth 64)

/-- R173 in real-address mode: T14 and T15 load any segment register but CS with any selector, no check: base = selector times
16, limit and attributes kept; nothing else changes. -/
def Obligations.RealModeSegmentLoad : Prop :=
  ∀ (s : State) (i : Instr) (q : SegReg) (sel : BitVec 16), s.mode = .real → q ≠ .cs → LoadsSelector s i q sel →
    exec i s = .next (s.setSeg q
      { sel := sel, base := BitVec.ofNat 64 (sel.toNat * 16), limit := (s.seg q).limit, attr := (s.seg q).attr,
        usable := true })

/-- R173 in virtual-8086 mode: base = selector times 16, limit FFFF, present writable expand-up data of DPL 3; the attribute
bits the rule does not name are some value (log 20); nothing else changes but the count of free values. -/
def Obligations.Virtual8086SegmentLoad : Prop :=
  ∀ (s : State) (i : Instr) (q : SegReg) (sel : BitVec 16), s.mode = .v8086 → q ≠ .cs → LoadsSelector s i q sel →
    ∃ a : SegAttr, a.present = true ∧ a.code = false ∧ a.writable = true ∧ a.expandDown = false ∧ a.dpl = 3
      ∧ exec i s = .next ((s.setSeg q
          { sel := sel, base := BitVec.ofNat 64 (sel.toNat * 16), limit := 0xFFFF, attr := a, usable := true }).setDraws
          (s.draws + 1))

/-- R33, R168, R174: a NULL selector (0 to 3) goes into DS, ES, FS or GS without an exception in every checked mode: the
selector is stored, the register becomes unusable, in 64-bit mode the base of FS or GS becomes 0. The other hidden fields are
some value (U5, log 19). -/
def Obligations.NullSelectorIntoDataSegment : Prop :=
  ∀ (s : State) (i : Instr) (q : SegReg) (sel : BitVec 16), isChecked s.mode = true → isDataSeg q = true →
    LoadsSelector s i q sel → sel.toNat ≤ 3 →
    ∃ g : Segment, g.sel = sel ∧ g.usable = false ∧ (s.mode = .long64 → q = .fs ∨ q = .gs → g.base = 0)
      ∧ exec i s = .next ((s.setSeg q g).setDraws (s.draws + 1))

/-- R168, R174, C4: a NULL selector into SS raises #GP(0) outside 64-bit mode, at CPL 3, and where RPL is not CPL; in 64-bit
mode at CPL 0 to 2 with RPL = CPL it is loaded, unusable, with the RPL as DPL. -/
def Obligations.NullSelectorIntoStackSegment : Prop :=
  ∀ (s : State) (i : Instr) (sel : BitVec 16), isChecked s.mode = true → LoadsSelector s i .ss sel → sel.toNat ≤ 3 →
    if s.mode = .long64 ∧ s.cpl ≠ 3 ∧ sel.toNat = s.cpl.toNat then
      ∃ g : Segment, g.sel = sel ∧ g.usable = false ∧ g.attr.dpl = s.cpl
        ∧ exec i s = .next ((s.setSeg .ss g).setDraws (s.draws + 1))
    else exec i s = raised s .gp (some 0) none

/-- R168, R175, R181, C6, C8: a selector that is not NULL into SS, its descriptor read: #GP(selector) unless RPL = DPL = CPL
and the segment is writable data, then #SS(selector) unless present, else both parts are loaded and the accessed bit is set. -/
def Obligations.StackSegmentLoad : Prop :=
  ∀ (s : State) (i : Instr) (sel : BitVec 16) (raw : Quad), isChecked s.mode = true → LoadsSelector s i .ss sel →
    3 < sel.toNat → DescriptorIs s sel raw →
    let d := descOf raw
    if sel.toNat % 4 ≠ s.cpl.toNat ∨ d.dpl ≠ s.cpl ∨ ¬(d.kind = .data ∧ d.writable = true) then
      exec i s = raised s .gp (some (BitVec.ofNat 32 (sel.toNat / 4 * 4))) none
    else if d.present = false then exec i s = raised s .ss (some (BitVec.ofNat 32 (sel.toNat / 4 * 4))) none
    else LoadCompletes s i .ss sel raw

/-- R168, R175, R181, C3, C5: a selector that is not NULL into DS, ES, FS or GS, its descriptor read: #GP(selector) unless it
is data or readable code and, for data and nonconforming code, neither RPL nor CPL is greater than DPL; then #NP(selector)
unless present; else both parts are loaded and the accessed bit is set. -/
def Obligations.DataSegmentLoad : Prop :=
  ∀ (s : State) (i : Instr) (q : SegReg) (sel : BitVec 16) (raw : Quad), isChecked s.mode = true → isDataSeg q = true →
    LoadsSelector s i q sel → 3 < sel.toNat → DescriptorIs s sel raw →
    let d := descOf raw
    if ¬(d.kind = .data ∨ d.kind = .code ∧ d.readable = true)
        ∨ (d.kind = .data ∨ d.kind = .code ∧ d.conforming = false)
          ∧ (d.dpl.toNat < sel.toNat % 4 ∨ d.dpl.toNat < s.cpl.toNat) then
      exec i s = raised s .gp (some (BitVec.ofNat 32 (sel.toNat / 4 * 4))) none
    else if d.present = false then exec i s = raised s .np (some (BitVec.ofNat 32 (sel.toNat / 4 * 4))) none
    else LoadCompletes s i q sel raw

/-- R170, R171, R233, R236: a selector that is not NULL whose entry lies outside its table, or in 64-bit mode at a
non-canonical address, raises #GP(selector); a page fault of the table read raises #PF. -/
def Obligations.DescriptorTableFailures : Prop :=
  ∀ (s : State) (i : Instr) (q : SegReg) (sel : BitVec 16), isChecked s.mode = true → q ≠ .cs → LoadsSelector s i q sel →
    3 < sel.toNat →
    (OutsideTable s sel ∨ s.mode = .long64 ∧ ¬CanonicalAccess s.params.linAddrWidth (entryAddr s sel) 8 →
        exec i s = raised s .gp (some (BitVec.ofNat 32 (sel.toNat / 4 * 4))) none)
      ∧ (¬OutsideTable s sel → (s.mode = .long64 → CanonicalAccess s.params.linAddrWidth (entryAddr s sel) 8) →
        ∀ c la, PageFaultAt s (entryAddr s sel) 8 .read false c la → exec i s = raised s .pf (some c) (some la))

/-- R235, with the modes and the order of the tests of R168 (C5: 64-bit mode too), the code of R181 and R239, and the descriptor
in the concrete layout of R171 (log 11): #NP is raised exactly where DS, ES, FS or GS is loaded, in a mode that checks loads,
with a selector whose segment passes the #GP(selector) tests and is not present; the error code is the selector without its
RPL. No other row raises it. -/
def Obligations.NotPresentException : Prop :=
  ∀ (i : Instr) (s : State) (code : Option (BitVec 32)) (addr : Option (BitVec 64)),
    exec i s = raised s .np code addr ↔
      ∃ q sel raw, isChecked s.mode = true ∧ isDataSeg q = true ∧ LoadsSelector s i q sel ∧ 3 < sel.toNat
        ∧ DescriptorIs s sel raw
        ∧ ((descOf raw).kind = .data ∨ (descOf raw).kind = .code ∧ (descOf raw).readable = true)
        ∧ (((descOf raw).kind = .data ∨ (descOf raw).kind = .code ∧ (descOf raw).conforming = false) →
            sel.toNat % 4 ≤ (descOf raw).dpl.toNat ∧ s.cpl.toNat ≤ (descOf raw).dpl.toNat)
        ∧ (descOf raw).present = false ∧ code = some (BitVec.ofNat 32 (sel.toNat / 4 * 4)) ∧ addr = none

/-- R171: where the parts of a descriptor lie in its eight bytes, as numbers. -/
def Obligations.DescriptorLayout : Prop :=
  ∀ raw : Quad,
    ((descOf raw).kind = .system ↔ raw.toNat / 2 ^ 44 % 2 = 0)
      ∧ ((descOf raw).kind = .code ↔ raw.toNat / 2 ^ 43 % 4 = 3)
      ∧ ((descOf raw).kind = .data ↔ raw.toNat / 2 ^ 43 % 4 = 2)
      ∧ ((descOf raw).writable = true ↔ raw.toNat / 2 ^ 41 % 2 = 1 ∧ (descOf raw).kind = .data)
      ∧ ((descOf raw).readable = true ↔ raw.toNat / 2 ^ 41 % 2 = 1 ∧ (descOf raw).kind = .code)
      ∧ ((descOf raw).expandDown = true ↔ raw.toNat / 2 ^ 42 % 2 = 1 ∧ (descOf raw).kind = .data)
      ∧ ((descOf raw).conforming = true ↔ raw.toNat / 2 ^ 42 % 2 = 1 ∧ (descOf raw).kind = .code)
      ∧ (descOf raw).dpl.toNat = raw.toNat / 2 ^ 45 % 4
      ∧ ((descOf raw).present = true ↔ raw.toNat / 2 ^ 47 % 2 = 1)
      ∧ (descOf raw).base.toNat = raw.toNat / 2 ^ 16 % 2 ^ 24 + raw.toNat / 2 ^ 56 * 2 ^ 24
      ∧ (descOf raw).limit.toNat =
          (if raw.toNat / 2 ^ 55 % 2 = 1 then (raw.toNat % 2 ^ 16 + raw.toNat / 2 ^ 48 % 16 * 2 ^ 16) * 4096 + 4095
           else raw.toNat % 2 ^ 16 + raw.toNat / 2 ^ 48 % 16 * 2 ^ 16)
      ∧ ((descOf raw).avl = true ↔ raw.toNat / 2 ^ 52 % 2 = 1) ∧ ((descOf raw).l = true ↔ raw.toNat / 2 ^ 53 % 2 = 1)
      ∧ ((descOf raw).db = true ↔ raw.toNat / 2 ^ 54 % 2 = 1) ∧ ((descOf raw).g = true ↔ raw.toNat / 2 ^ 55 % 2 = 1)

/-! Frames, over all 35 rows. -/

/-- R24, R59, R263: a completed instruction changes no general register but its destination: none for a memory or segment
destination, and never a base or index register. -/
def Obligations.GeneralRegistersChangeOnlyAtDestination : Prop :=
  ∀ (i : Instr) (s t : State) (r : RegNum), exec i s = .next t → destReg i ≠ some r → t.reg r = s.reg r

/-- R32, R167: a completed instruction changes no segment register, visible or hidden part, but the one 8E names; a store by
8C reads its own. -/
def Obligations.SegmentRegistersChangeOnlyAtDestination : Prop :=
  ∀ (i : Instr) (s t : State) (r : SegReg), exec i s = .next t → destSeg i ≠ some (.seg r) → t.seg r = s.seg r

/-- R51, R54, R72: a completed instruction with a memory destination changes no byte but those its operand maps to; one
without, that loads no segment register, changes no byte. -/
def Obligations.MemoryChangesOnlyAtDestination : Prop :=
  ∀ (i : Instr) (s t : State), exec i s = .next t → destSeg i = none →
    (∀ a pas, dataAccess s i = some a → a.kind = .write →
        MapsTo s (linear s a.seg a.ea) a.bytes .write (decide (s.cpl = 3)) pas →
        ∀ b, b ∉ pas → t.mem.read b = s.mem.read b)
      ∧ ((∀ a, dataAccess s i = some a → a.kind ≠ .write) → t.mem = s.mem)

/-- R175, R168: a completed segment load changes no byte of memory but the one that holds the accessed bit of the descriptor
its selector names. -/
def Obligations.SegmentLoadChangesOnlyTheAccessedByte : Prop :=
  ∀ (i : Instr) (s t : State) (q : SegReg) (sel : BitVec 16), LoadsSelector s i q sel → exec i s = .next t →
    ∀ b, accessByte s sel ≠ some b → t.mem.read b = s.mem.read b

/-- R27, R32, R34 to R40: a completed instruction, before the frame of the step advances, leaves the pc, `inhibit_events`, the
flags, CS, the mode, CPL, the descriptor-table registers, the paging configuration and the launch data alone. -/
def Obligations.ExecLeavesControlStateAlone : Prop :=
  ∀ (i : Instr) (s t : State), exec i s = .next t →
    t.pc = s.pc ∧ t.inhibitEvents = s.inhibitEvents ∧ t.events = s.events ∧ SameControl s t

/-! Invariants and rules of the whole machine. -/

/-- R29, R37: no step writes the flags register and none depends on any bit of it: with other flags the step does the same and
leaves those flags. R29 excepts the bit behind alignment checking; that no bit at all is read rests on the model's holding
AC_ENABLED as a field of its own (log 29). -/
def Obligations.FlagsAreNeitherReadNorWritten : Prop :=
  ∀ (s : State) (f : BitVec 64), step (s.withFlags f) = outcomeWithFlags f (step s)

/-- R32, R34 to R39, R67: no step changes the mode, CS_D, CPL, AC_ENABLED, CS, GDTR, LDTR, the paging configuration, the
populated set or the program text. -/
def Obligations.StepKeepsModeAndPrivilege : Prop :=
  ∀ s t : State, step s = .next t → SameControl s t

/-- R36, R168, R255: SS keeps the privilege of the processor, and outside 64-bit mode stays a usable, present, writable data
segment, through every step from every state where it is so. -/
def Obligations.StepKeepsStackSegmentPrivilege : Prop :=
  ∀ s t : State, StackInv s → step s = .next t → StackInv t

/-- R168, R255: in the modes that check loads, a usable DS, ES, FS or GS always holds a present, readable segment that CPL may
use, through every step from every state where it is so. -/
def Obligations.StepKeepsDataSegmentsAccessible : Prop :=
  ∀ s t : State, DataSegInv s → step s = .next t → DataSegInv t

/-- R52, R72 over the model's memory: every step keeps its canonical form, so that equal memories are equal data. -/
def Obligations.StepKeepsMemoryCanonical : Prop :=
  ∀ s t : State, s.mem.wf = true → step s = .next t → t.mem.wf = true

/-- The three invariants hold at reset (the reset values are the model's choice, logs 2 and 3). -/
def Obligations.ResetMeetsTheInvariants : Prop :=
  StackInv State.reset ∧ DataSegInv State.reset ∧ State.reset.mem.wf = true

/-! Sizes and addresses, as arithmetic. -/

/-- R94: the operand-size and the address-size attribute, in bits, from the mode, CS_D, REX.W and the prefixes 66 and 67. -/
def Obligations.OperandAndAddressSizes : Prop :=
  ∀ (c : Ctx) (w p66 p67 : Bool),
    (operandSize c w p66).bytes * 8
        = (if c.mode = .long64 then (if w = true then 64 else if p66 = true then 16 else 32)
           else if (c.csD = .d32 ↔ p66 = true) then 16 else 32)
      ∧ (addressSize c p67).bytes * 8
        = (if c.mode = .long64 then (if p67 = true then 32 else 64) else if (c.csD = .d32 ↔ p67 = true) then 16 else 32)

/-- R59, R101 to R104, R106, R108: the effective address of every memory form, as a sum of registers and numbers modulo two to
the address size; a moffs offset as it stands. `len` is the length of the instruction. -/
def Obligations.EffectiveAddresses : Prop :=
  ∀ (s : State) (h : Head) (len : Nat),
    let r : Nat → Int := fun n => ((s.reg (Fin.ofNat 16 n)).toNat : Int)
    let ea : MemOp → Int := fun m => ((memPlace s h len m).2.toNat : Int)
    let A : Int := 2 ^ addressBits s h
    let index : BitVec 2 → Option RegNum → Int := fun scale i =>
      match i with
      | none => 0
      | some n => r n.val * 2 ^ scale.toNat
    (∀ d, ea (.sum16 .bxsi d) = (r 3 + r 6 + disp16Int d) % 2 ^ 16 ∧ ea (.sum16 .bxdi d) = (r 3 + r 7 + disp16Int d) % 2 ^ 16
        ∧ ea (.sum16 .bpsi d) = (r 5 + r 6 + disp16Int d) % 2 ^ 16 ∧ ea (.sum16 .bpdi d) = (r 5 + r 7 + disp16Int d) % 2 ^ 16
        ∧ ea (.sum16 .si d) = (r 6 + disp16Int d) % 2 ^ 16 ∧ ea (.sum16 .di d) = (r 7 + disp16Int d) % 2 ^ 16
        ∧ ea (.sum16 .bp d) = (r 5 + disp16Int d) % 2 ^ 16 ∧ ea (.sum16 .bx d) = (r 3 + disp16Int d) % 2 ^ 16)
      ∧ (∀ d, ea (.abs16 d) = d.toNat)
      ∧ (∀ (b : RegNum) d, ea (.base b d) = (r b.val + disp32Int d) % A)
      ∧ (∀ d, ea (.abs32 d) = d.toInt % A)
      ∧ (∀ d, ea (.rip d) = (s.pc.toNat + len + d.toInt) % A)
      ∧ (∀ scale i (b : RegNum) d, ea (.sib scale i b d) = (r b.val + index scale i + disp32Int d) % A)
      ∧ (∀ scale i d, ea (.sibAbs scale i d) = (index scale i + d.toInt) % A)
      ∧ (∀ v, (offPlace s h (.o16 v)).2.toNat = v.toNat) ∧ (∀ v, (offPlace s h (.o32 v)).2.toNat = v.toNat)
      ∧ (∀ v, (offPlace s h (.o64 v)).2.toNat = v.toNat)

/-- R60, R93, R101 to R103, R108: which segment an operand goes through: by default DS, but SS for a 16-bit sum with BP and for a
base register 4 or 5 (RSP, RBP; not 12, 13); an override replaces it, in 64-bit mode only FS and GS do. R61: the linear address
is base plus effective address modulo 2^32, and in 64-bit mode modulo 2^64 with a base for FS and GS only; the bytes of an
access follow one another with the same wrap (R71; the wrap is log 27). -/
def Obligations.SegmentsAndLinearAddresses : Prop :=
  ∀ (s : State) (h : Head) (len : Nat),
    let seg : MemOp → SegReg := fun m => (memPlace s h len m).1
    (h.seg = none →
      (∀ d, seg (.sum16 .bpsi d) = .ss ∧ seg (.sum16 .bpdi d) = .ss ∧ seg (.sum16 .bp d) = .ss
          ∧ seg (.sum16 .bxsi d) = .ds ∧ seg (.sum16 .bxdi d) = .ds ∧ seg (.sum16 .si d) = .ds
          ∧ seg (.sum16 .di d) = .ds ∧ seg (.sum16 .bx d) = .ds)
        ∧ (∀ d, seg (.abs16 d) = .ds) ∧ (∀ d, seg (.abs32 d) = .ds) ∧ (∀ d, seg (.rip d) = .ds)
        ∧ (∀ scale i d, seg (.sibAbs scale i d) = .ds)
        ∧ (∀ (b : RegNum) d, b.val % 8 ≠ 4 → (b.val % 8 = 5 → d ≠ .none) →
            seg (.base b d) = if b.val = 5 then .ss else .ds)
        ∧ (∀ scale i (b : RegNum) d, (b.val % 8 = 5 → d ≠ .none) →
            seg (.sib scale i b d) = if b.val = 4 ∨ b.val = 5 then .ss else .ds)
        ∧ (∀ o, (offPlace s h o).1 = .ds))
      ∧ (∀ q, h.seg = some q →
          (s.mode ≠ .long64 ∨ q = .fs ∨ q = .gs → (∀ m, seg m = q) ∧ ∀ o, (offPlace s h o).1 = q)
            ∧ (s.mode = .long64 → q ≠ .fs → q ≠ .gs →
                (∀ m, seg m = (memPlace s { h with seg := none } len m).1) ∧ ∀ o, (offPlace s h o).1 = .ds))
      ∧ (∀ q (ea : Quad), (linear s q ea).toNat
          = if s.mode = .long64 then ((if q = .fs ∨ q = .gs then (s.seg q).base.toNat else 0) + ea.toNat) % 2 ^ 64
            else ((s.seg q).base.toNat + ea.toNat) % 2 ^ 32)
      ∧ (∀ (la : Quad) (k : Nat), (byteAddr s la k).toNat = (la.toNat + k) % if s.mode = .long64 then 2 ^ 64 else 2 ^ 32)

/-- R214 (T30): in 64-bit mode a REX byte with W = 1, an opcode byte B8 to BF and eight immediate bytes are MOV r64, imm64, ten
bytes in all (the rule's examples settle the byte order and REX.B); no other mode has it, and no other row has an immediate of
eight bytes. Without LOCK it writes the immediate to the register of the opcode, in every state, and
changes nothing else; LOCK raises #UD. -/
def Obligations.MoveQuadwordImmediate : Prop :=
  (∀ (d : CodeSize) (b op : Byte) (imm rest : List Byte), IsRexByte b → b.toNat / 8 % 2 = 1 → 0xB8 ≤ op.toNat →
      op.toNat ≤ 0xBF → imm.length = 8 →
      ∃ n : RegNum, n.val = b.toNat % 2 * 8 + op.toNat % 8
        ∧ decode { mode := .long64, csD := d } (b :: op :: (imm ++ rest))
            = .ok (.movR64Imm64 { Head.empty with rex := true } n (BitVec.ofNat 64 (littleEndian imm)), rest)
        ∧ (Instr.movR64Imm64 { Head.empty with rex := true } n 0).length = 10)
    ∧ (∀ (c : Ctx) bs h n v rest, decode c bs = .ok (.movR64Imm64 h n v, rest) → c.mode = .long64)
    ∧ (∀ i : Instr, immediateBytes i = 8 ↔ ∃ h n v, i = .movR64Imm64 h n v)
    ∧ (∀ (s : State) (h : Head) (n : RegNum) (v : BitVec 64),
        (h.lock = false → exec (.movR64Imm64 h n v) s = .next (s.setReg n v))
          ∧ (h.lock = true → exec (.movR64Imm64 h n v) s = raised s .ud none none))
end

