-- ==== Sys2Proof/Laws/State.lean ====
section
/-! SUPPORT. One lemma for each field of State and each named update, true by rfl, and the read-after-write laws of the
registers: no later proof unfolds a record update. -/

namespace Sys2Proof.Machine

@[simp] theorem State.setReg_x (s : State) (n : RegNum) (v : Quad) : (s.setReg n v).x = s.x.set n.val v n.isLt := rfl
@[simp] theorem State.setReg_pc (s : State) (n : RegNum) (v : Quad) : (s.setReg n v).pc = s.pc := rfl
@[simp] theorem State.setReg_rflags (s : State) (n : RegNum) (v : Quad) : (s.setReg n v).rflags = s.rflags := rfl
@[simp] theorem State.setReg_sreg (s : State) (n : RegNum) (v : Quad) : (s.setReg n v).sreg = s.sreg := rfl
@[simp] theorem State.setReg_mode (s : State) (n : RegNum) (v : Quad) : (s.setReg n v).mode = s.mode := rfl
@[simp] theorem State.setReg_csD (s : State) (n : RegNum) (v : Quad) : (s.setReg n v).csD = s.csD := rfl
@[simp] theorem State.setReg_cpl (s : State) (n : RegNum) (v : Quad) : (s.setReg n v).cpl = s.cpl := rfl
@[simp] theorem State.setReg_acEnabled (s : State) (n : RegNum) (v : Quad) : (s.setReg n v).acEnabled = s.acEnabled := rfl
@[simp] theorem State.setReg_gdtr (s : State) (n : RegNum) (v : Quad) : (s.setReg n v).gdtr = s.gdtr := rfl
@[simp] theorem State.setReg_ldtr (s : State) (n : RegNum) (v : Quad) : (s.setReg n v).ldtr = s.ldtr := rfl
@[simp] theorem State.setReg_inhibitEvents (s : State) (n : RegNum) (v : Quad) : (s.setReg n v).inhibitEvents = s.inhibitEvents := rfl
@[simp] theorem State.setReg_mem (s : State) (n : RegNum) (v : Quad) : (s.setReg n v).mem = s.mem := rfl
@[simp] theorem State.setReg_populated (s : State) (n : RegNum) (v : Quad) : (s.setReg n v).populated = s.populated := rfl
@[simp] theorem State.setReg_text (s : State) (n : RegNum) (v : Quad) : (s.setReg n v).text = s.text := rfl
@[simp] theorem State.setReg_translation (s : State) (n : RegNum) (v : Quad) : (s.setReg n v).translation = s.translation := rfl
@[simp] theorem State.setReg_params (s : State) (n : RegNum) (v : Quad) : (s.setReg n v).params = s.params := rfl
@[simp] theorem State.setReg_endAddr (s : State) (n : RegNum) (v : Quad) : (s.setReg n v).endAddr = s.endAddr := rfl
@[simp] theorem State.setReg_events (s : State) (n : RegNum) (v : Quad) : (s.setReg n v).events = s.events := rfl
@[simp] theorem State.setReg_draws (s : State) (n : RegNum) (v : Quad) : (s.setReg n v).draws = s.draws := rfl
@[simp] theorem State.setReg_ctx (s : State) (n : RegNum) (v : Quad) : (s.setReg n v).ctx = s.ctx := rfl
@[simp] theorem State.setReg_seg (s : State) (n : RegNum) (v : Quad) (q : SegReg) : (s.setReg n v).seg q = s.seg q := rfl

@[simp] theorem State.setSeg_x (s : State) (r : SegReg) (v : Segment) : (s.setSeg r v).x = s.x := rfl
@[simp] theorem State.setSeg_pc (s : State) (r : SegReg) (v : Segment) : (s.setSeg r v).pc = s.pc := rfl
@[simp] theorem State.setSeg_rflags (s : State) (r : SegReg) (v : Segment) : (s.setSeg r v).rflags = s.rflags := rfl
@[simp] theorem State.setSeg_sreg (s : State) (r : SegReg) (v : Segment) : (s.setSeg r v).sreg = s.sreg.set r v := rfl
@[simp] theorem State.setSeg_mode (s : State) (r : SegReg) (v : Segment) : (s.setSeg r v).mode = s.mode := rfl
@[simp] theorem State.setSeg_csD (s : State) (r : SegReg) (v : Segment) : (s.setSeg r v).csD = s.csD := rfl
@[simp] theorem State.setSeg_cpl (s : State) (r : SegReg) (v : Segment) : (s.setSeg r v).cpl = s.cpl := rfl
@[simp] theorem State.setSeg_acEnabled (s : State) (r : SegReg) (v : Segment) : (s.setSeg r v).acEnabled = s.acEnabled := rfl
@[simp] theorem State.setSeg_gdtr (s : State) (r : SegReg) (v : Segment) : (s.setSeg r v).gdtr = s.gdtr := rfl
@[simp] theorem State.setSeg_ldtr (s : State) (r : SegReg) (v : Segment) : (s.setSeg r v).ldtr = s.ldtr := rfl
@[simp] theorem State.setSeg_inhibitEvents (s : State) (r : SegReg) (v : Segment) : (s.setSeg r v).inhibitEvents = s.inhibitEvents := rfl
@[simp] theorem State.setSeg_mem (s : State) (r : SegReg) (v : Segment) : (s.setSeg r v).mem = s.mem := rfl
@[simp] theorem State.setSeg_populated (s : State) (r : SegReg) (v : Segment) : (s.setSeg r v).populated = s.populated := rfl
@[simp] theorem State.setSeg_text (s : State) (r : SegReg) (v : Segment) : (s.setSeg r v).text = s.text := rfl
@[simp] theorem State.setSeg_translation (s : State) (r : SegReg) (v : Segment) : (s.setSeg r v).translation = s.translation := rfl
@[simp] theorem State.setSeg_params (s : State) (r : SegReg) (v : Segment) : (s.setSeg r v).params = s.params := rfl
@[simp] theorem State.setSeg_endAddr (s : State) (r : SegReg) (v : Segment) : (s.setSeg r v).endAddr = s.endAddr := rfl
@[simp] theorem State.setSeg_events (s : State) (r : SegReg) (v : Segment) : (s.setSeg r v).events = s.events := rfl
@[simp] theorem State.setSeg_draws (s : State) (r : SegReg) (v : Segment) : (s.setSeg r v).draws = s.draws := rfl
@[simp] theorem State.setSeg_ctx (s : State) (r : SegReg) (v : Segment) : (s.setSeg r v).ctx = s.ctx := rfl
@[simp] theorem State.setSeg_reg (s : State) (r : SegReg) (v : Segment) (k : RegNum) : (s.setSeg r v).reg k = s.reg k := rfl

@[simp] theorem State.setMem_x (s : State) (m : Memory) : (s.setMem m).x = s.x := rfl
@[simp] theorem State.setMem_pc (s : State) (m : Memory) : (s.setMem m).pc = s.pc := rfl
@[simp] theorem State.setMem_rflags (s : State) (m : Memory) : (s.setMem m).rflags = s.rflags := rfl
@[simp] theorem State.setMem_sreg (s : State) (m : Memory) : (s.setMem m).sreg = s.sreg := rfl
@[simp] theorem State.setMem_mode (s : State) (m : Memory) : (s.setMem m).mode = s.mode := rfl
@[simp] theorem State.setMem_csD (s : State) (m : Memory) : (s.setMem m).csD = s.csD := rfl
@[simp] theorem State.setMem_cpl (s : State) (m : Memory) : (s.setMem m).cpl = s.cpl := rfl
@[simp] theorem State.setMem_acEnabled (s : State) (m : Memory) : (s.setMem m).acEnabled = s.acEnabled := rfl
@[simp] theorem State.setMem_gdtr (s : State) (m : Memory) : (s.setMem m).gdtr = s.gdtr := rfl
@[simp] theorem State.setMem_ldtr (s : State) (m : Memory) : (s.setMem m).ldtr = s.ldtr := rfl
@[simp] theorem State.setMem_inhibitEvents (s : State) (m : Memory) : (s.setMem m).inhibitEvents = s.inhibitEvents := rfl
@[simp] theorem State.setMem_mem (s : State) (m : Memory) : (s.setMem m).mem = m := rfl
@[simp] theorem State.setMem_populated (s : State) (m : Memory) : (s.setMem m).populated = s.populated := rfl
@[simp] theorem State.setMem_text (s : State) (m : Memory) : (s.setMem m).text = s.text := rfl
@[simp] theorem State.setMem_translation (s : State) (m : Memory) : (s.setMem m).translation = s.translation := rfl
@[simp] theorem State.setMem_params (s : State) (m : Memory) : (s.setMem m).params = s.params := rfl
@[simp] theorem State.setMem_endAddr (s : State) (m : Memory) : (s.setMem m).endAddr = s.endAddr := rfl
@[simp] theorem State.setMem_events (s : State) (m : Memory) : (s.setMem m).events = s.events := rfl
@[simp] theorem State.setMem_draws (s : State) (m : Memory) : (s.setMem m).draws = s.draws := rfl
@[simp] theorem State.setMem_ctx (s : State) (m : Memory) : (s.setMem m).ctx = s.ctx := rfl
@[simp] theorem State.setMem_reg (s : State) (m : Memory) (k : RegNum) : (s.setMem m).reg k = s.reg k := rfl
@[simp] theorem State.setMem_seg (s : State) (m : Memory) (q : SegReg) : (s.setMem m).seg q = s.seg q := rfl

@[simp] theorem State.setPc_x (s : State) (v : Quad) : (s.setPc v).x = s.x := rfl
@[simp] theorem State.setPc_pc (s : State) (v : Quad) : (s.setPc v).pc = v := rfl
@[simp] theorem State.setPc_rflags (s : State) (v : Quad) : (s.setPc v).rflags = s.rflags := rfl
@[simp] theorem State.setPc_sreg (s : State) (v : Quad) : (s.setPc v).sreg = s.sreg := rfl
@[simp] theorem State.setPc_mode (s : State) (v : Quad) : (s.setPc v).mode = s.mode := rfl
@[simp] theorem State.setPc_csD (s : State) (v : Quad) : (s.setPc v).csD = s.csD := rfl
@[simp] theorem State.setPc_cpl (s : State) (v : Quad) : (s.setPc v).cpl = s.cpl := rfl
@[simp] theorem State.setPc_acEnabled (s : State) (v : Quad) : (s.setPc v).acEnabled = s.acEnabled := rfl
@[simp] theorem State.setPc_gdtr (s : State) (v : Quad) : (s.setPc v).gdtr = s.gdtr := rfl
@[simp] theorem State.setPc_ldtr (s : State) (v : Quad) : (s.setPc v).ldtr = s.ldtr := rfl
@[simp] theorem State.setPc_inhibitEvents (s : State) (v : Quad) : (s.setPc v).inhibitEvents = s.inhibitEvents := rfl
@[simp] theorem State.setPc_mem (s : State) (v : Quad) : (s.setPc v).mem = s.mem := rfl
@[simp] theorem State.setPc_populated (s : State) (v : Quad) : (s.setPc v).populated = s.populated := rfl
@[simp] theorem State.setPc_text (s : State) (v : Quad) : (s.setPc v).text = s.text := rfl
@[simp] theorem State.setPc_translation (s : State) (v : Quad) : (s.setPc v).translation = s.translation := rfl
@[simp] theorem State.setPc_params (s : State) (v : Quad) : (s.setPc v).params = s.params := rfl
@[simp] theorem State.setPc_endAddr (s : State) (v : Quad) : (s.setPc v).endAddr = s.endAddr := rfl
@[simp] theorem State.setPc_events (s : State) (v : Quad) : (s.setPc v).events = s.events := rfl
@[simp] theorem State.setPc_draws (s : State) (v : Quad) : (s.setPc v).draws = s.draws := rfl
@[simp] theorem State.setPc_ctx (s : State) (v : Quad) : (s.setPc v).ctx = s.ctx := rfl
@[simp] theorem State.setPc_reg (s : State) (v : Quad) (k : RegNum) : (s.setPc v).reg k = s.reg k := rfl
@[simp] theorem State.setPc_seg (s : State) (v : Quad) (q : SegReg) : (s.setPc v).seg q = s.seg q := rfl

@[simp] theorem State.setInhibit_x (s : State) (b : Bool) : (s.setInhibit b).x = s.x := rfl
@[simp] theorem State.setInhibit_pc (s : State) (b : Bool) : (s.setInhibit b).pc = s.pc := rfl
@[simp] theorem State.setInhibit_rflags (s : State) (b : Bool) : (s.setInhibit b).rflags = s.rflags := rfl
@[simp] theorem State.setInhibit_sreg (s : State) (b : Bool) : (s.setInhibit b).sreg = s.sreg := rfl
@[simp] theorem State.setInhibit_mode (s : State) (b : Bool) : (s.setInhibit b).mode = s.mode := rfl
@[simp] theorem State.setInhibit_csD (s : State) (b : Bool) : (s.setInhibit b).csD = s.csD := rfl
@[simp] theorem State.setInhibit_cpl (s : State) (b : Bool) : (s.setInhibit b).cpl = s.cpl := rfl
@[simp] theorem State.setInhibit_acEnabled (s : State) (b : Bool) : (s.setInhibit b).acEnabled = s.acEnabled := rfl
@[simp] theorem State.setInhibit_gdtr (s : State) (b : Bool) : (s.setInhibit b).gdtr = s.gdtr := rfl
@[simp] theorem State.setInhibit_ldtr (s : State) (b : Bool) : (s.setInhibit b).ldtr = s.ldtr := rfl
@[simp] theorem State.setInhibit_inhibitEvents (s : State) (b : Bool) : (s.setInhibit b).inhibitEvents = b := rfl
@[simp] theorem State.setInhibit_mem (s : State) (b : Bool) : (s.setInhibit b).mem = s.mem := rfl
@[simp] theorem State.setInhibit_populated (s : State) (b : Bool) : (s.setInhibit b).populated = s.populated := rfl
@[simp] theorem State.setInhibit_text (s : State) (b : Bool) : (s.setInhibit b).text = s.text := rfl
@[simp] theorem State.setInhibit_translation (s : State) (b : Bool) : (s.setInhibit b).translation = s.translation := rfl
@[simp] theorem State.setInhibit_params (s : State) (b : Bool) : (s.setInhibit b).params = s.params := rfl
@[simp] theorem State.setInhibit_endAddr (s : State) (b : Bool) : (s.setInhibit b).endAddr = s.endAddr := rfl
@[simp] theorem State.setInhibit_events (s : State) (b : Bool) : (s.setInhibit b).events = s.events := rfl
@[simp] theorem State.setInhibit_draws (s : State) (b : Bool) : (s.setInhibit b).draws = s.draws := rfl
@[simp] theorem State.setInhibit_ctx (s : State) (b : Bool) : (s.setInhibit b).ctx = s.ctx := rfl
@[simp] theorem State.setInhibit_reg (s : State) (b : Bool) (k : RegNum) : (s.setInhibit b).reg k = s.reg k := rfl
@[simp] theorem State.setInhibit_seg (s : State) (b : Bool) (q : SegReg) : (s.setInhibit b).seg q = s.seg q := rfl

@[simp] theorem State.setDraws_x (s : State) (n : Nat) : (s.setDraws n).x = s.x := rfl
@[simp] theorem State.setDraws_pc (s : State) (n : Nat) : (s.setDraws n).pc = s.pc := rfl
@[simp] theorem State.setDraws_rflags (s : State) (n : Nat) : (s.setDraws n).rflags = s.rflags := rfl
@[simp] theorem State.setDraws_sreg (s : State) (n : Nat) : (s.setDraws n).sreg = s.sreg := rfl
@[simp] theorem State.setDraws_mode (s : State) (n : Nat) : (s.setDraws n).mode = s.mode := rfl
@[simp] theorem State.setDraws_csD (s : State) (n : Nat) : (s.setDraws n).csD = s.csD := rfl
@[simp] theorem State.setDraws_cpl (s : State) (n : Nat) : (s.setDraws n).cpl = s.cpl := rfl
@[simp] theorem State.setDraws_acEnabled (s : State) (n : Nat) : (s.setDraws n).acEnabled = s.acEnabled := rfl
@[simp] theorem State.setDraws_gdtr (s : State) (n : Nat) : (s.setDraws n).gdtr = s.gdtr := rfl
@[simp] theorem State.setDraws_ldtr (s : State) (n : Nat) : (s.setDraws n).ldtr = s.ldtr := rfl
@[simp] theorem State.setDraws_inhibitEvents (s : State) (n : Nat) : (s.setDraws n).inhibitEvents = s.inhibitEvents := rfl
@[simp] theorem State.setDraws_mem (s : State) (n : Nat) : (s.setDraws n).mem = s.mem := rfl
@[simp] theorem State.setDraws_populated (s : State) (n : Nat) : (s.setDraws n).populated = s.populated := rfl
@[simp] theorem State.setDraws_text (s : State) (n : Nat) : (s.setDraws n).text = s.text := rfl
@[simp] theorem State.setDraws_translation (s : State) (n : Nat) : (s.setDraws n).translation = s.translation := rfl
@[simp] theorem State.setDraws_params (s : State) (n : Nat) : (s.setDraws n).params = s.params := rfl
@[simp] theorem State.setDraws_endAddr (s : State) (n : Nat) : (s.setDraws n).endAddr = s.endAddr := rfl
@[simp] theorem State.setDraws_events (s : State) (n : Nat) : (s.setDraws n).events = s.events := rfl
@[simp] theorem State.setDraws_draws (s : State) (n : Nat) : (s.setDraws n).draws = n := rfl
@[simp] theorem State.setDraws_ctx (s : State) (n : Nat) : (s.setDraws n).ctx = s.ctx := rfl
@[simp] theorem State.setDraws_reg (s : State) (n : Nat) (k : RegNum) : (s.setDraws n).reg k = s.reg k := rfl
@[simp] theorem State.setDraws_seg (s : State) (n : Nat) (q : SegReg) : (s.setDraws n).seg q = s.seg q := rfl

@[simp] theorem State.setEvents_x (s : State) (es : List Bool) : (s.setEvents es).x = s.x := rfl
@[simp] theorem State.setEvents_pc (s : State) (es : List Bool) : (s.setEvents es).pc = s.pc := rfl
@[simp] theorem State.setEvents_rflags (s : State) (es : List Bool) : (s.setEvents es).rflags = s.rflags := rfl
@[simp] theorem State.setEvents_sreg (s : State) (es : List Bool) : (s.setEvents es).sreg = s.sreg := rfl
@[simp] theorem State.setEvents_mode (s : State) (es : List Bool) : (s.setEvents es).mode = s.mode := rfl
@[simp] theorem State.setEvents_csD (s : State) (es : List Bool) : (s.setEvents es).csD = s.csD := rfl
@[simp] theorem State.setEvents_cpl (s : State) (es : List Bool) : (s.setEvents es).cpl = s.cpl := rfl
@[simp] theorem State.setEvents_acEnabled (s : State) (es : List Bool) : (s.setEvents es).acEnabled = s.acEnabled := rfl
@[simp] theorem State.setEvents_gdtr (s : State) (es : List Bool) : (s.setEvents es).gdtr = s.gdtr := rfl
@[simp] theorem State.setEvents_ldtr (s : State) (es : List Bool) : (s.setEvents es).ldtr = s.ldtr := rfl
@[simp] theorem State.setEvents_inhibitEvents (s : State) (es : List Bool) : (s.setEvents es).inhibitEvents = s.inhibitEvents := rfl
@[simp] theorem State.setEvents_mem (s : State) (es : List Bool) : (s.setEvents es).mem = s.mem := rfl
@[simp] theorem State.setEvents_populated (s : State) (es : List Bool) : (s.setEvents es).populated = s.populated := rfl
@[simp] theorem State.setEvents_text (s : State) (es : List Bool) : (s.setEvents es).text = s.text := rfl
@[simp] theorem State.setEvents_translation (s : State) (es : List Bool) : (s.setEvents es).translation = s.translation := rfl
@[simp] theorem State.setEvents_params (s : State) (es : List Bool) : (s.setEvents es).params = s.params := rfl
@[simp] theorem State.setEvents_endAddr (s : State) (es : List Bool) : (s.setEvents es).endAddr = s.endAddr := rfl
@[simp] theorem State.setEvents_events (s : State) (es : List Bool) : (s.setEvents es).events = es := rfl
@[simp] theorem State.setEvents_draws (s : State) (es : List Bool) : (s.setEvents es).draws = s.draws := rfl
@[simp] theorem State.setEvents_ctx (s : State) (es : List Bool) : (s.setEvents es).ctx = s.ctx := rfl
@[simp] theorem State.setEvents_reg (s : State) (es : List Bool) (k : RegNum) : (s.setEvents es).reg k = s.reg k := rfl
@[simp] theorem State.setEvents_seg (s : State) (es : List Bool) (q : SegReg) : (s.setEvents es).seg q = s.seg q := rfl

/-- A register written reads as what was written (R12, R25). -/
@[simp] theorem State.reg_setReg_self (s : State) (n : RegNum) (v : Quad) : (s.setReg n v).reg n = v := by
  simp [State.reg, State.setReg]

/-- A register written leaves every other register alone. -/
theorem State.reg_setReg_ne (s : State) (n k : RegNum) (v : Quad) (h : k ≠ n) : (s.setReg n v).reg k = s.reg k := by
  have hn : n.val ≠ k.val := fun e => h (Fin.ext e.symm)
  simp [State.reg, State.setReg, Vector.getElem_set_ne _ _ hn]

/-- Writing back what a register holds changes nothing (R126). -/
@[simp] theorem State.setReg_reg (s : State) (n : RegNum) : s.setReg n (s.reg n) = s := by
  simp [State.setReg, State.reg]

@[simp] theorem SegFile.get_set_self (f : SegFile) (r : SegReg) (v : Segment) : (f.set r v).get r = v := by
  cases r <;> rfl

theorem SegFile.get_set_ne (f : SegFile) (r q : SegReg) (v : Segment) (h : q ≠ r) : (f.set r v).get q = f.get q := by
  cases r <;> cases q <;> first | rfl | exact absurd rfl h

/-- A segment register written reads as what was written, both parts. -/
@[simp] theorem State.seg_setSeg_self (s : State) (r : SegReg) (v : Segment) : (s.setSeg r v).seg r = v :=
  SegFile.get_set_self s.sreg r v

/-- A segment register written leaves the other five alone. -/
theorem State.seg_setSeg_ne (s : State) (r q : SegReg) (v : Segment) (h : q ≠ r) : (s.setSeg r v).seg q = s.seg q :=
  SegFile.get_set_ne s.sreg r q v h

/-- A write of a segment register other than CS leaves CS alone (R32). -/
theorem SegFile.cs_set (f : SegFile) (r : SegReg) (v : Segment) (h : r ≠ .cs) : (f.set r v).cs = f.cs := by
  cases r <;> first | rfl | exact absurd rfl h

end Sys2Proof.Machine
end

