-- ==== Sys2Proof/Laws/Memory.lean ====
section
/-! SUPPORT. The laws of memory as a list: read after write, the frame of a write, and that every memory operation keeps the
canonical form. -/

namespace Sys2Proof.Machine

theorem Memory.read_put (m : Memory) (a : Nat) (v : Byte) (b : Nat) :
    (m.put a v).read b = if b = a then v else m.read b := by
  induction m with
  | nil => simp [Memory.put, Memory.read]
  | cons c m ih =>
    obtain ⟨k, w⟩ := c
    simp only [Memory.put]
    split
    · simp [Memory.read]
    · split
      · rename_i h; subst h; simp only [Memory.read]; split <;> rfl
      · rename_i h; simp only [Memory.read, ih]; split
        · rename_i hk; subst hk; rw [if_neg (Ne.symm h)]
        · rfl

theorem Memory.read_forget (m : Memory) (a b : Nat) :
    (m.forget a).read b = if b = a then Memory.unlisted else m.read b := by
  induction m with
  | nil => simp [Memory.forget, Memory.read]
  | cons c m ih =>
    obtain ⟨k, w⟩ := c
    simp only [Memory.forget, List.filter_cons] at ih ⊢
    by_cases hk : k = a
    · subst hk; simp only [bne_self_eq_false, Bool.false_eq_true, if_false, ih, Memory.read]; split <;> rfl
    · have : (k != a) = true := by simpa using hk
      simp only [this, if_true, Memory.read, ih]
      by_cases hb : b = k
      · subst hb; simp [hk]
      · simp [hb]

/-- Read after write, and every other address alone (R52, R56). -/
theorem Memory.read_write (m : Memory) (a : Nat) (v : Byte) (b : Nat) :
    (m.write a v).read b = if b = a then v else m.read b := by
  unfold Memory.write
  split
  · rename_i h; rw [Memory.read_forget, h]
  · exact Memory.read_put m a v b

/-- An address that is in no written pair reads as before. -/
theorem Memory.read_writeAll_of_notMem (ws : List (Nat × Byte)) (m : Memory) (b : Nat)
    (h : b ∉ ws.map Prod.fst) : (m.writeAll ws).read b = m.read b := by
  induction ws generalizing m with
  | nil => rfl
  | cons w ws ih =>
    simp only [List.map_cons, List.mem_cons, not_or] at h
    rw [Memory.writeAll, ih _ h.2, Memory.read_write, if_neg h.1]

/-- Of several bytes written at distinct addresses each reads as written. -/
theorem Memory.read_writeAll_of_mem (ws : List (Nat × Byte)) (m : Memory) (a : Nat) (v : Byte)
    (hd : (ws.map Prod.fst).Nodup) (h : (a, v) ∈ ws) : (m.writeAll ws).read a = v := by
  induction ws generalizing m with
  | nil => cases h
  | cons w ws ih =>
    simp only [List.map_cons, List.nodup_cons] at hd
    rcases List.mem_cons.mp h with rfl | h
    · rw [Memory.writeAll, Memory.read_writeAll_of_notMem _ _ _ hd.1, Memory.read_write, if_pos rfl]
    · exact ih _ hd.2 h

/-- The canonical form as a proposition. -/
theorem Memory.wf_iff (m : Memory) :
    m.wf = true ↔ (m.Pairwise fun c d => c.1 < d.1) ∧ ∀ c ∈ m, c.2 ≠ Memory.unlisted := by
  simp [Memory.wf]

theorem Memory.mem_put (m : Memory) (a : Nat) (v : Byte) (c : Host.Cell) (h : c ∈ m.put a v) :
    c = (a, v) ∨ c ∈ m := by
  induction m with
  | nil => simpa [Memory.put] using h
  | cons d m ih =>
    obtain ⟨k, w⟩ := d
    simp only [Memory.put] at h
    split at h
    · simpa using h
    · split at h
      · simp only [List.mem_cons] at h ⊢; tauto
      · simp only [List.mem_cons] at h ⊢
        rcases h with h | h
        · exact .inr (.inl h)
        · rcases ih h with h | h
          · exact .inl h
          · exact .inr (.inr h)

theorem Memory.pairwise_put (m : Memory) (a : Nat) (v : Byte) (h : m.Pairwise fun c d => c.1 < d.1) :
    (m.put a v).Pairwise fun c d => c.1 < d.1 := by
  induction m with
  | nil => simp [Memory.put]
  | cons c m ih =>
    obtain ⟨k, w⟩ := c
    rw [List.pairwise_cons] at h
    simp only [Memory.put]
    split
    · rename_i hak
      rw [List.pairwise_cons, List.pairwise_cons]
      refine ⟨fun d hd => ?_, h.1, h.2⟩
      rcases List.mem_cons.mp hd with rfl | hd
      · exact hak
      · exact lt_trans hak (h.1 d hd)
    · split
      · rename_i e; subst e
        rw [List.pairwise_cons]; exact ⟨h.1, h.2⟩
      · rename_i h1 h2
        rw [List.pairwise_cons]
        refine ⟨fun d hd => ?_, ih h.2⟩
        rcases Memory.mem_put m a v d hd with rfl | hd
        · show k < a; omega
        · exact h.1 d hd

/-- A byte written keeps the canonical form. -/
theorem Memory.wf_write (m : Memory) (a : Nat) (v : Byte) (h : m.wf = true) : (m.write a v).wf = true := by
  rw [Memory.wf_iff] at h ⊢
  unfold Memory.write
  split
  · exact ⟨h.1.filter _, fun c hc => h.2 c (List.mem_filter.mp hc).1⟩
  · rename_i hv
    refine ⟨Memory.pairwise_put m a v h.1, fun c hc => ?_⟩
    rcases Memory.mem_put m a v c hc with rfl | hc
    · exact hv
    · exact h.2 c hc

/-- Several bytes written keep the canonical form. -/
theorem Memory.wf_writeAll (ws : List (Nat × Byte)) (m : Memory) (h : m.wf = true) : (m.writeAll ws).wf = true := by
  induction ws generalizing m with
  | nil => exact h
  | cons w ws ih => exact ih _ (Memory.wf_write m w.1 w.2 h)

/-- The memory after reset has the canonical form. -/
theorem reset_mem_wf : State.reset.mem.wf = true := by decide

end Sys2Proof.Machine
end

