-- ==== Sys2Proof/Laws/Ops.lean ====
section
/-! SUPPORT. For each shared operation one lemma that says once everything it can do: what holds when it answers, and what
state it leaves. Later proofs cite these and do not unfold the operations. -/

namespace Sys2Proof.Machine

/-! Outcomes. -/

/-- An operation in two parts answers when both do. -/
theorem bind_eq_ok {α β : Type} (x : Except Stop α) (f : α → Except Stop β) (b : β) :
    (x >>= f) = .ok b ↔ ∃ a, x = .ok a ∧ f a = .ok b := by
  cases x <;> simp [Bind.bind, Except.bind]

/-- An operation in two parts stops where the first does, or else where the second does. -/
theorem bind_eq_error {α β : Type} (x : Except Stop α) (f : α → Except Stop β) (e : Stop) :
    (x >>= f) = .error e ↔ x = .error e ∨ ∃ a, x = .ok a ∧ f a = .error e := by
  cases x <;> simp [Bind.bind, Except.bind]

/-- A check before an operation: both answer. -/
theorem check_eq_ok {β : Type} (x : Except Stop Unit) (f : Unit → Except Stop β) (b : β) :
    (x >>= f) = .ok b ↔ x = .ok () ∧ f () = .ok b := by
  rw [bind_eq_ok]
  exact ⟨fun ⟨_, h⟩ => h, fun h => ⟨(), h⟩⟩

/-- A meaning answers a next state exactly when its operation does. -/
theorem settle_eq_next (s t : State) (x : Except Stop State) : settle s x = .next t ↔ x = .ok t := by
  rcases x with (_ | _ | _ | _) | _ <;> simp [settle, takeException]

/-- A meaning faults with an exception exactly when its operation raises it; the state left is the one before with
`inhibit_events` false (R240). -/
theorem settle_eq_exception (s left : State) (e : Exception) (x : Except Stop State) :
    settle s x = .fault (.exception e left) ↔ x = .error (.raise e) ∧ left = s.setInhibit false := by
  rcases x with (_ | _ | _ | _) | _ <;> simp [settle, takeException, eq_comm]

/-- No meaning answers that an event was delivered. -/
theorem settle_ne_interrupted (s : State) (x : Except Stop State) : settle s x ≠ .fault .interrupted := by
  rcases x with (_ | _ | _ | _) | _ <;> simp [settle, takeException]

/-! Registers. -/

/-- A register write changes one general register and nothing else. -/
theorem regWrite_eq (s : State) (n : RegNum) (sz : Size) (rex : Bool) (v : Quad) :
    ∃ w, regWrite s n sz rex v = s.setReg (if sz = .byte ∧ isHighByte n rex = true then highByteHome n else n) w := by
  cases sz
  · by_cases h : isHighByte n rex = true
    · rw [if_pos ⟨rfl, h⟩]; simp only [regWrite, if_pos h]; exact ⟨_, rfl⟩
    · rw [if_neg fun e => h e.2]; simp only [regWrite, if_neg h]; exact ⟨_, rfl⟩
  · rw [if_neg (by simp)]; exact ⟨_, rfl⟩
  · rw [if_neg (by simp)]; simp only [regWrite]; split <;> exact ⟨_, rfl⟩
  · rw [if_neg (by simp)]; exact ⟨_, rfl⟩

/-! Memory. -/

/-- Translation of an access answers one physical address a byte. -/
theorem translateFrom_length (s : State) (la : Quad) (kind : Access) (user : Bool) (n k : Nat) (pas : List Nat)
    (h : translateFrom s la kind user n k = .ok pas) : pas.length = n := by
  induction n generalizing k pas with
  | zero => simp only [translateFrom, Except.ok.injEq] at h; simp [← h]
  | succ n ih =>
    simp only [translateFrom] at h
    split at h
    · cases h
    · split at h
      · cases h
      · rename_i hr
        simp only [Except.ok.injEq] at h
        simp [← h, ih _ _ hr]

/-- A read answers exactly when every byte is translated and populated; the value is the bytes, least significant first. -/
theorem memRead_eq_ok (s : State) (la : Quad) (n : Nat) (user : Bool) (v : Quad) :
    memRead s la n user = .ok v ↔
      ∃ pas, translateAll s la n .read user = .ok pas ∧ firstUnpopulated s pas = none
        ∧ v = ofBytesLE (pas.map s.mem.read) := by
  simp only [memRead, bind_eq_ok]
  refine exists_congr fun pas => and_congr_right fun _ => ?_
  cases firstUnpopulated s pas <;> simp [eq_comm]

/-- A write answers exactly when every byte is translated, populated and outside the program text; it changes memory only. -/
theorem memWrite_eq_ok (s t : State) (la : Quad) (n : Nat) (v : Quad) (user : Bool) :
    memWrite s la n v user = .ok t ↔
      ∃ pas, translateAll s la n .write user = .ok pas ∧ firstUnpopulated s pas = none ∧ firstInText s pas = none
        ∧ t = s.setMem (s.mem.writeAll (pas.zip (bytesLE n v))) := by
  simp only [memWrite, bind_eq_ok]
  refine exists_congr fun pas => and_congr_right fun _ => ?_
  cases firstUnpopulated s pas <;> cases firstInText s pas <;> simp [eq_comm]

/-- A segmented read answers when the checks pass and the read does (R64). -/
theorem segRead_eq_ok (s : State) (r : SegReg) (ea : Quad) (n : Nat) (v : Quad) :
    segRead s r ea n = .ok v ↔
      segChecks s r ea n .read = .ok () ∧ alignCheck s (linear s r ea) n .read = .ok ()
        ∧ memRead s (linear s r ea) n (isUser s) = .ok v := by
  simp only [segRead, check_eq_ok]

/-- A segmented write answers when the checks pass and the write does (R65). -/
theorem segWrite_eq_ok (s t : State) (r : SegReg) (ea : Quad) (n : Nat) (v : Quad) :
    segWrite s r ea n v = .ok t ↔
      segChecks s r ea n .write = .ok () ∧ alignCheck s (linear s r ea) n .write = .ok ()
        ∧ memWrite s (linear s r ea) n v (isUser s) = .ok t := by
  simp only [segWrite, check_eq_ok]

/-! What an operation may change: nothing but general registers, segment registers other than CS, memory and the count of
free values. -/

/-- `t` differs from `s` in general registers, segment registers other than CS, memory and draws only. -/
def OnlyData (s t : State) : Prop :=
  t = { s with x := t.x, sreg := t.sreg, mem := t.mem, draws := t.draws } ∧ t.sreg.cs = s.sreg.cs

theorem OnlyData.refl (s : State) : OnlyData s s := ⟨rfl, rfl⟩

theorem OnlyData.trans {s t u : State} (h : OnlyData s t) (h' : OnlyData t u) : OnlyData s u := by
  refine ⟨?_, h'.2.trans h.2⟩
  have h1 := h.1
  have h2 := h'.1
  rw [h2, h1]

theorem OnlyData.setReg (s : State) (n : RegNum) (v : Quad) : OnlyData s (s.setReg n v) := ⟨rfl, rfl⟩

theorem OnlyData.setMem (s : State) (m : Memory) : OnlyData s (s.setMem m) := ⟨rfl, rfl⟩

theorem OnlyData.setDraws (s : State) (n : Nat) : OnlyData s (s.setDraws n) := ⟨rfl, rfl⟩

theorem OnlyData.setSeg (s : State) (r : SegReg) (v : Segment) (h : r ≠ .cs) : OnlyData s (s.setSeg r v) :=
  ⟨rfl, SegFile.cs_set s.sreg r v h⟩

theorem OnlyData.regWrite (s : State) (n : RegNum) (sz : Size) (rex : Bool) (v : Quad) :
    OnlyData s (regWrite s n sz rex v) := by
  obtain ⟨w, hw⟩ := regWrite_eq s n sz rex v
  rw [hw]
  exact OnlyData.setReg s _ w

theorem OnlyData.memWrite {s t : State} {la : Quad} {n : Nat} {v : Quad} {user : Bool}
    (h : memWrite s la n v user = .ok t) : OnlyData s t := by
  obtain ⟨_, _, _, _, rfl⟩ := (memWrite_eq_ok s t la n v user).mp h
  exact OnlyData.setMem s _

theorem OnlyData.segWrite {s t : State} {r : SegReg} {ea : Quad} {n : Nat} {v : Quad}
    (h : segWrite s r ea n v = .ok t) : OnlyData s t :=
  OnlyData.memWrite ((segWrite_eq_ok s t r ea n v).mp h).2.2

theorem OnlyData.writePlace {s t : State} {sz : Size} {rex : Bool} {v : Quad} {p : Place}
    (h : writePlace s sz rex v p = .ok t) : OnlyData s t := by
  cases p with
  | reg n => simp only [Machine.writePlace, Except.ok.injEq] at h; rw [← h]; exact OnlyData.regWrite ..
  | mem seg ea => exact OnlyData.segWrite h

/-! The operand forms. -/

theorem noLock_eq_ok (h : Head) : noLock h = .ok () ↔ h.lock = false := by
  cases hl : h.lock <;> simp [noLock, hl, Stop.ud]

/-- Rows MR and MI answer when there is no LOCK and the destination can be written. -/
theorem storeRM_eq_ok (s t : State) (h : Head) (len : Nat) (sz : Size) (rex : Bool) (dst : RM) (v : Quad) :
    storeRM s h len sz rex dst v = .ok t ↔ h.lock = false ∧ writePlace s sz rex v (place s h len dst) = .ok t := by
  simp only [storeRM, check_eq_ok, noLock_eq_ok]

/-- Row RM answers when there is no LOCK and the source can be read; only then is the register written. -/
theorem loadRM_eq_ok (s t : State) (h : Head) (len : Nat) (sz : Size) (rex : Bool) (dst : RegNum) (src : RM) :
    loadRM s h len sz rex dst src = .ok t ↔
      h.lock = false ∧ ∃ v, readPlace s sz rex (place s h len src) = .ok v ∧ t = regWrite s dst sz rex v := by
  rw [loadRM, check_eq_ok, noLock_eq_ok, bind_eq_ok]
  simp only [Except.ok.injEq, eq_comm (b := t)]

/-- Row FD answers when there is no LOCK and the offset can be read. -/
theorem loadMoffs_eq_ok (s t : State) (h : Head) (sz : Size) (src : Moffs) :
    loadMoffs s h sz src = .ok t ↔
      h.lock = false ∧ ∃ v, readPlace s sz true (moffsPlace s h src) = .ok v ∧ t = regWrite s 0 sz true v := by
  rw [loadMoffs, check_eq_ok, noLock_eq_ok, bind_eq_ok]
  simp only [Except.ok.injEq, eq_comm (b := t)]

/-- Row TD answers when there is no LOCK and the offset can be written. -/
theorem storeMoffs_eq_ok (s t : State) (h : Head) (sz : Size) (dst : Moffs) :
    storeMoffs s h sz dst = .ok t ↔
      h.lock = false ∧ writePlace s sz true (regRead s 0 sz true) (moffsPlace s h dst) = .ok t := by
  simp only [storeMoffs, check_eq_ok, noLock_eq_ok]

/-- Row OI answers when there is no LOCK. -/
theorem immReg_eq_ok (s t : State) (h : Head) (sz : Size) (rex : Bool) (dst : RegNum) (v : Quad) :
    immReg s h sz rex dst v = .ok t ↔ h.lock = false ∧ t = regWrite s dst sz rex v := by
  simp only [immReg, check_eq_ok, noLock_eq_ok, Except.ok.injEq, eq_comm (b := t)]

/-! Segment loads. -/

theorem storeField_eq_ok (h : Head) (f : SregField) (r : SegReg) :
    storeField h f = .ok r ↔ h.lock = false ∧ f = .seg r := by
  cases hl : h.lock <;> cases f <;> simp [storeField, hl]

theorem loadField_eq_ok (h : Head) (f : SregField) (r : SegReg) :
    loadField h f = .ok r ↔ h.lock = false ∧ f = .seg r ∧ r ≠ .cs := by
  simp only [loadField, bind_eq_ok, storeField_eq_ok]
  constructor
  · rintro ⟨q, ⟨hl, rfl⟩, h⟩
    split at h
    · cases h
    · cases h; exact ⟨hl, rfl, by assumption⟩
  · rintro ⟨hl, rfl, hr⟩
    exact ⟨r, ⟨hl, rfl⟩, by simp [hr]⟩

/-- A lookup answers when the entry is in its table, its address canonical in 64-bit mode, and the table can be read. -/
theorem lookup_eq_ok (s : State) (sel : BitVec 16) (raw : Quad) :
    lookup s sel = .ok raw ↔
      outsideTable s sel = false
        ∧ (s.mode = .long64 → canonicalRange s.params.linAddrWidth (descAddr s sel) 8 = true)
        ∧ memRead s (descAddr s sel) 8 false = .ok raw := by
  unfold lookup
  by_cases h : outsideTable s sel = true
  · rw [if_pos h]; simp [h]
  · rw [if_neg h]
    by_cases hc : s.mode = .long64 ∧ canonicalRange s.params.linAddrWidth (descAddr s sel) 8 = false
    · rw [if_pos hc]; simp [hc.1, hc.2]
    · rw [if_neg hc]
      simp only [not_and, Bool.not_eq_false] at hc
      exact ⟨fun hm => ⟨Bool.not_eq_true _ ▸ h, hc, hm⟩, fun hm => hm.2.2⟩

theorem markAccessed_eq_ok (s t : State) (sel : BitVec 16) (raw : Quad) :
    markAccessed s sel raw = .ok t ↔
      (raw.getLsbD 40 = true ∧ t = s)
        ∨ (raw.getLsbD 40 = false
          ∧ memWrite s (byteAddr s (descAddr s sel) 5) 1 ((raw.extractLsb' 40 8 ||| 1).setWidth 64) false = .ok t) := by
  unfold markAccessed
  cases raw.getLsbD 40 <;> simp [eq_comm]

/-- The accessed bit changes memory only. -/
theorem markAccessed_setMem {s t : State} {sel : BitVec 16} {raw : Quad} (h : markAccessed s sel raw = .ok t) :
    t = s.setMem t.mem := by
  rcases (markAccessed_eq_ok s t sel raw).mp h with ⟨_, rfl⟩ | ⟨_, h⟩
  · rfl
  · obtain ⟨_, _, _, _, rfl⟩ := (memWrite_eq_ok _ _ _ _ _ _).mp h
    rfl

/-- A NULL selector goes into SS in 64-bit mode only, at CPL 0 to 2 with RPL = CPL (R168, C4). -/
theorem loadNullSS_eq_ok (s t : State) (sel : BitVec 16) :
    loadNullSS s sel = .ok t ↔ s.mode = .long64 ∧ s.cpl ≠ 3 ∧ selRpl sel = s.cpl ∧ t = loadNull s .ss sel := by
  unfold loadNullSS
  by_cases h1 : s.mode = .long64
  · by_cases h2 : s.cpl = 3
    · rw [if_neg (not_not.mpr h1), if_pos h2]; simp [h2]
    · rw [if_neg (not_not.mpr h1), if_neg h2]
      by_cases h3 : selRpl sel = s.cpl
      · rw [if_neg (not_not.mpr h3)]; simp only [h1, h2, h3, ne_eq, not_false_iff, true_and, Except.ok.injEq, eq_comm]
      · rw [if_pos h3]; simp [h3]
  · rw [if_pos h1]; simp [h1]

/-- A load of SS that is not NULL answers when RPL = DPL = CPL and the segment is a present writable data segment. -/
theorem loadSS_eq_ok (s t : State) (sel : BitVec 16) :
    loadSS s sel = .ok t ↔
      ∃ raw u, lookup s sel = .ok raw ∧ selRpl sel = s.cpl ∧ (descOf raw).isWritableData = true
        ∧ (descOf raw).dpl = s.cpl ∧ (descOf raw).present = true ∧ markAccessed s sel raw = .ok u
        ∧ t = u.setSeg .ss ((descOf raw).segment sel) := by
  rw [loadSS, bind_eq_ok]
  refine exists_congr fun raw => ?_
  by_cases hg : selRpl sel ≠ s.cpl ∨ (descOf raw).isWritableData = false ∨ (descOf raw).dpl ≠ s.cpl
  · simp only [if_pos hg, reduceCtorEq, and_false, false_iff]
    rintro ⟨u, _, h1, h2, h3, _⟩
    rcases hg with h | h | h
    · exact h h1
    · rw [h2] at h; cases h
    · exact h h3
  · simp only [if_neg hg]
    simp only [not_or, not_not, Bool.not_eq_false] at hg
    by_cases hp : (descOf raw).present = false
    · simp [hp]
    · simp only [if_neg hp, bind_eq_ok, Except.ok.injEq, eq_comm (b := t)]
      simp only [hg, Bool.not_eq_false _ ▸ hp, true_and, exists_and_left]

/-- A load of DS, ES, FS or GS that is not NULL answers when the segment is a present data or readable code segment whose
privilege admits RPL and CPL, unless it is conforming code. -/
theorem loadDataSeg_eq_ok (s t : State) (r : SegReg) (sel : BitVec 16) :
    loadDataSeg s r sel = .ok t ↔
      ∃ raw u, lookup s sel = .ok raw ∧ ((descOf raw).isData || (descOf raw).isReadableCode) = true
        ∧ (((descOf raw).isData || (descOf raw).isNonconformingCode) = true →
            selRpl sel ≤ (descOf raw).dpl ∧ s.cpl ≤ (descOf raw).dpl)
        ∧ (descOf raw).present = true ∧ markAccessed s sel raw = .ok u
        ∧ t = u.setSeg r ((descOf raw).segment sel) := by
  rw [loadDataSeg, bind_eq_ok]
  refine exists_congr fun raw => ?_
  by_cases hk : ((descOf raw).isData || (descOf raw).isReadableCode) = false
  · simp only [if_pos hk, reduceCtorEq, and_false, false_iff]
    rintro ⟨u, _, h1, _⟩
    rw [hk] at h1; cases h1
  · simp only [if_neg hk]
    by_cases hg : ((descOf raw).isData || (descOf raw).isNonconformingCode) = true
      ∧ ((descOf raw).dpl < selRpl sel ∨ (descOf raw).dpl < s.cpl)
    · simp only [if_pos hg, reduceCtorEq, and_false, false_iff]
      rintro ⟨u, _, _, h2, _⟩
      rcases hg.2 with h3 | h3
      · exact absurd (h2 hg.1).1 (BitVec.not_le.mpr h3)
      · exact absurd (h2 hg.1).2 (BitVec.not_le.mpr h3)
    · simp only [if_neg hg]
      have h3 : ((descOf raw).isData || (descOf raw).isNonconformingCode) = true →
          selRpl sel ≤ (descOf raw).dpl ∧ s.cpl ≤ (descOf raw).dpl := fun h =>
        ⟨BitVec.not_lt.mp fun h4 => hg ⟨h, .inl h4⟩, BitVec.not_lt.mp fun h4 => hg ⟨h, .inr h4⟩⟩
      by_cases hp : (descOf raw).present = false
      · simp [hp]
      · simp only [if_neg hp, bind_eq_ok, Except.ok.injEq, eq_comm (b := t)]
        simp only [eq_true h3, Bool.not_eq_false _ ▸ hp, Bool.not_eq_false _ ▸ hk, true_and, exists_and_left]

theorem OnlyData.loadNull (s : State) (r : SegReg) (sel : BitVec 16) (h : r ≠ .cs) : OnlyData s (loadNull s r sel) :=
  (OnlyData.setSeg s r _ h).trans (OnlyData.setDraws _ _)

theorem OnlyData.markAccessed {s t : State} {sel : BitVec 16} {raw : Quad} (h : markAccessed s sel raw = .ok t) :
    OnlyData s t := by
  rw [markAccessed_setMem h]
  exact OnlyData.setMem s _

/-- A segment load, when it answers, changes segment registers other than CS, memory and draws. -/
theorem OnlyData.loadSeg {s t : State} {r : SegReg} {sel : BitVec 16} (hr : r ≠ .cs) (h : loadSeg s r sel = .ok t) :
    OnlyData s t := by
  have prot : loadSegProt s r sel = .ok t → OnlyData s t := by
    intro h
    unfold loadSegProt at h
    split at h
    · split at h
      · obtain ⟨_, _, _, rfl⟩ := (loadNullSS_eq_ok s t sel).mp h
        exact OnlyData.loadNull s .ss sel (by decide)
      · obtain ⟨raw, u, _, _, _, _, _, hu, rfl⟩ := (loadSS_eq_ok s t sel).mp h
        exact (OnlyData.markAccessed hu).trans (OnlyData.setSeg u .ss _ (by decide))
    · split at h
      · cases h; exact OnlyData.loadNull s r sel hr
      · obtain ⟨raw, u, _, _, _, _, hu, rfl⟩ := (loadDataSeg_eq_ok s t r sel).mp h
        exact (OnlyData.markAccessed hu).trans (OnlyData.setSeg u r _ hr)
  unfold Machine.loadSeg at h
  split at h
  · cases h; exact OnlyData.setSeg s r _ hr
  · cases h; exact (OnlyData.setSeg s r _ hr).trans (OnlyData.setDraws _ _)
  · exact prot h
  · exact prot h
  · exact prot h

/-! The frame of a step. -/

/-- A step answers a next state exactly when no event is delivered, the instruction is fetched, and it completes; the state
is then that of the instruction, advanced (R13). -/
theorem step_eq_next (s t : State) :
    step s = .next t ↔
      s.delivers = false ∧ ∃ i u, fetchInstr s.passBoundary = .ok i ∧ exec i s.passBoundary = .next u ∧ t = advance i u := by
  unfold step runInstr
  cases s.delivers
  · cases hf : fetchInstr s.passBoundary with
    | error e => rcases e with _ | _ | _ | _ <;> simp [settle, takeException]
    | ok i => cases he : exec i s.passBoundary <;> simp [frame, he, eq_comm]
  · simp

end Sys2Proof.Machine
end

