-- ==== Sys2Proof/Laws/Access.lean ====
section
/-! SUPPORT. The operations that check an access (R58 to R72) against the terms of Safety.lean, which say from the rules when
an access is allowed: each check passes exactly when its term holds, and an allowed access reads and stores what it should. -/

namespace Sys2Proof.Machine

/-! The checks, one by one. -/

/-- The limit check fails exactly outside the limit (R66). -/
theorem inLimit_eq_false (g : Segment) (ea : Quad) (n : Nat) : inLimit g ea n = false ↔ OutsideLimit g ea n := by
  unfold inLimit OutsideLimit
  by_cases h : g.attr.code = false ∧ g.attr.expandDown = true
  · rw [if_pos h, if_pos (by simp [h.1, h.2])]
    cases g.attr.db <;> simp <;> omega
  · rw [if_neg h, if_neg (by simpa [Bool.and_eq_true] using h)]
    simp; omega

theorem inLimit_eq_true (g : Segment) (ea : Quad) (n : Nat) : inLimit g ea n = true ↔ ¬OutsideLimit g ea n := by
  rw [← inLimit_eq_false, Bool.not_eq_false]

/-- The canonical check by shifting agrees with the rule's words about the bits (R62). -/
theorem canonical_iff (w : LinAddrWidth) (la : Quad) : canonical w la = true ↔ Canonical w la := by
  have hw : w.bits - 1 < 64 := by cases w <;> decide
  have bits : ∀ i, i < 64 → (la.sshiftRight (w.bits - 1)).getLsbD i
      = if w.bits - 1 + i < 64 then la.getLsbD (w.bits - 1 + i) else la.getLsbD 63 := by
    intro i hi
    rw [BitVec.getLsbD_sshiftRight]
    simp [Nat.not_le.mpr hi, BitVec.msb_eq_getLsbD_last]
  unfold canonical Canonical
  simp only [Bool.or_eq_true, decide_eq_true_eq]
  constructor
  · rintro (h | h) b hb hb'
    · have h1 := bits (b - (w.bits - 1)) (by omega)
      have h2 := bits 0 (by omega)
      rw [h] at h1 h2
      rw [if_pos (by omega), Nat.add_sub_cancel' hb] at h1
      rw [if_pos (by omega), Nat.add_zero] at h2
      rw [← h1, ← h2]; simp
    · have h1 := bits (b - (w.bits - 1)) (by omega)
      have h2 := bits 0 (by omega)
      rw [h] at h1 h2
      rw [if_pos (by omega), Nat.add_sub_cancel' hb] at h1
      rw [if_pos (by omega), Nat.add_zero] at h2
      rw [BitVec.getLsbD_allOnes] at h1 h2
      rw [← h1, ← h2]; simp; omega
  · intro h
    have all : ∀ i, i < 64 → (la.sshiftRight (w.bits - 1)).getLsbD i = la.getLsbD (w.bits - 1) := by
      intro i hi
      rw [bits i hi]
      split
      · exact h _ (by omega) (by omega)
      · exact h _ (by omega) (by omega)
    cases hb : la.getLsbD (w.bits - 1)
    · left
      apply BitVec.eq_of_getLsbD_eq
      intro i hi
      rw [all i hi, hb]; simp
    · right
      apply BitVec.eq_of_getLsbD_eq
      intro i hi
      rw [all i hi, hb, BitVec.getLsbD_allOnes]; simp [hi]

/-- The range check agrees with the rule (R62). -/
theorem canonicalRange_iff (w : LinAddrWidth) (la : Quad) (n : Nat) :
    canonicalRange w la n = true ↔ CanonicalAccess w la n := by
  simp only [canonicalRange, CanonicalAccess, Bool.and_eq_true, decide_eq_true_eq, List.all_eq_true, List.mem_range,
    canonical_iff]

/-- The alignment check fails exactly on a misaligned reference (R58). -/
theorem alignFault_iff (s : State) (la : Quad) (n : Nat) : alignFault s la n = true ↔ Misaligned s la n := by
  simp only [alignFault, Misaligned, Bool.and_eq_true, decide_eq_true_eq, ne_eq, Nat.dvd_iff_mod_eq_zero]
  tauto

/-- The segment checks pass exactly when the rule allows the access (R64). -/
theorem segChecks_eq_ok (s : State) (r : SegReg) (ea : Quad) (n : Nat) (kind : Access) :
    segChecks s r ea n kind = .ok () ↔ SegAllowed s r ea n kind := by
  have prot : ∀ m, s.mode = m → isProt m = true →
      (protChecks s r ea n kind = .ok () ↔ SegAllowed s r ea n kind) := by
    intro m hm hp
    have hl : s.mode ≠ .long64 := by rintro h; rw [hm] at h; subst h; cases hp
    have hu : (isDataSeg r = true) ↔ (r = .ds ∨ r = .es ∨ r = .fs ∨ r = .gs) := by cases r <;> simp [isDataSeg]
    have hp' : isProt s.mode = true := hm ▸ hp
    have key : SegAllowed s r ea n kind ↔ (((r = .ds ∨ r = .es ∨ r = .fs ∨ r = .gs) → (s.seg r).usable = true)
        ∧ (kind = .write → (s.seg r).attr.code = false ∧ (s.seg r).attr.writable = true)
        ∧ (kind = .read → (s.seg r).attr.code = true → (s.seg r).attr.readable = true)) ∧ inLimit (s.seg r) ea n = true := by
      unfold SegAllowed NotNull KindAllowed
      rw [hu, ← inLimit_eq_true]
      exact ⟨fun h => ⟨h.2.1 hp', h.2.2 hl⟩, fun h => ⟨fun h' => absurd h' hl, fun _ => h.1, fun _ => h.2⟩⟩
    rw [key]
    unfold protChecks
    by_cases h1 : (r = .ds ∨ r = .es ∨ r = .fs ∨ r = .gs) ∧ (!(s.seg r).usable) = true
    · rw [if_pos h1]
      simp only [reduceCtorEq, false_iff]
      intro h
      have := h.1.1 h1.1
      simp [this] at h1
    · rw [if_neg h1]
      have n1 : (r = .ds ∨ r = .es ∨ r = .fs ∨ r = .gs) → (s.seg r).usable = true := by
        intro h; by_contra hc; exact h1 ⟨h, by simpa using hc⟩
      by_cases h2 : kind = .write ∧ ((s.seg r).attr.code || !(s.seg r).attr.writable) = true
      · rw [if_pos h2]
        simp only [reduceCtorEq, false_iff]
        intro h
        have := h.1.2.1 h2.1
        simp [this.1, this.2] at h2
      · rw [if_neg h2]
        by_cases h3 : kind = .read ∧ ((s.seg r).attr.code && !(s.seg r).attr.readable) = true
        · rw [if_pos h3]
          simp only [reduceCtorEq, false_iff]
          intro h
          have h4 := h3.2
          simp only [Bool.and_eq_true, Bool.not_eq_true'] at h4
          have := h.1.2.2 h3.1 h4.1
          rw [h4.2] at this; cases this
        · rw [if_neg h3]
          have n2 : kind = .write → (s.seg r).attr.code = false ∧ (s.seg r).attr.writable = true := by
            intro h
            have : ¬((s.seg r).attr.code || !(s.seg r).attr.writable) = true := fun hc => h2 ⟨h, hc⟩
            simpa using this
          have n3 : kind = .read → (s.seg r).attr.code = true → (s.seg r).attr.readable = true := by
            intro h hc
            have : ¬((s.seg r).attr.code && !(s.seg r).attr.readable) = true := fun hc' => h3 ⟨h, hc'⟩
            simpa [hc] using this
          by_cases h4 : inLimit (s.seg r) ea n = true
          · simp only [h4, Bool.not_true, Bool.false_eq_true, if_false, and_true, true_iff]
            exact ⟨n1, n2, n3⟩
          · simp [h4, Stop.seg0, Stop.exc]
  unfold segChecks
  split
  · rename_i hm
    simp only [SegAllowed, hm, isProt, reduceCtorEq, decide_false, Bool.or_self, Bool.false_eq_true, false_implies,
      true_implies, ne_eq, not_true_eq_false, and_true, ← canonicalRange_iff]
    split <;> simp_all [Stop.seg0, Stop.exc]
  · rename_i hm; exact prot _ hm (by decide)
  · rename_i hm; exact prot _ hm (by decide)
  · rename_i hm
    simp only [SegAllowed, hm, isProt, reduceCtorEq, decide_false, Bool.or_self, Bool.false_eq_true, false_implies,
      true_implies, ne_eq, not_false_eq_true, true_and, ← inLimit_eq_true]
    split <;> simp_all [Stop.seg0, Stop.exc]
  · rename_i hm
    simp only [SegAllowed, hm, isProt, reduceCtorEq, decide_false, Bool.or_self, Bool.false_eq_true, false_implies,
      true_implies, ne_eq, not_false_eq_true, true_and, ← inLimit_eq_true]
    split <;> simp_all [Stop.seg0, Stop.exc]

/-! Translation. -/

/-- Translation of an access answers exactly the addresses its bytes map to (R71). -/
theorem translateFrom_eq_ok (s : State) (la : Quad) (kind : Access) (user : Bool) (n k : Nat) (pas : List Nat) :
    translateFrom s la kind user n k = .ok pas ↔
      pas.length = n ∧ ∀ j (h : j < pas.length), ∃ pa, translate s (byteAddr s la (k + j)) kind user = .ok pa
        ∧ pas[j] = pa.toNat := by
  induction n generalizing k pas with
  | zero =>
    simp only [translateFrom, Except.ok.injEq]
    constructor
    · rintro rfl; exact ⟨rfl, fun j h => absurd h (Nat.not_lt_zero j)⟩
    · rintro ⟨h, _⟩; exact (List.length_eq_zero_iff.mp h).symm
  | succ n ih =>
    simp only [translateFrom]
    cases ht : translate s (byteAddr s la k) kind user with
    | error code =>
      simp only [reduceCtorEq, false_iff]
      rintro ⟨hl, h⟩
      obtain ⟨pa, hp, _⟩ := h 0 (by omega)
      rw [Nat.add_zero, ht] at hp; cases hp
    | ok pa =>
      cases hr : translateFrom s la kind user n (k + 1) with
      | error e =>
        simp only [reduceCtorEq, false_iff]
        rintro ⟨hl, h⟩
        have : translateFrom s la kind user n (k + 1) = .ok pas.tail := by
          rw [ih]
          refine ⟨by simp [hl], fun j hj => ?_⟩
          simp only [List.length_tail] at hj
          obtain ⟨q, hq, he⟩ := h (j + 1) (by omega)
          refine ⟨q, by rw [show k + 1 + j = k + (j + 1) by omega]; exact hq, ?_⟩
          simpa [List.getElem_tail] using he
        rw [hr] at this; cases this
      | ok rest =>
        simp only [Except.ok.injEq]
        constructor
        · rintro rfl
          obtain ⟨hl, h⟩ := (ih (k + 1) rest).mp hr
          refine ⟨by simp [hl], fun j hj => ?_⟩
          cases j with
          | zero => exact ⟨pa, by simpa using ht, rfl⟩
          | succ j =>
            simp only [List.length_cons] at hj
            obtain ⟨q, hq, he⟩ := h j (by omega)
            exact ⟨q, by rw [show k + (j + 1) = k + 1 + j by omega]; exact hq, by simpa using he⟩
        · rintro ⟨hl, h⟩
          cases pas with
          | nil => simp at hl
          | cons p pas =>
            obtain ⟨q, hq, he⟩ := h 0 (by simp)
            rw [Nat.add_zero, ht] at hq
            cases hq
            have h2 : translateFrom s la kind user n (k + 1) = .ok pas := by
              rw [ih]
              refine ⟨by simpa using hl, fun j hj => ?_⟩
              obtain ⟨q, hq, he⟩ := h (j + 1) (by simpa using hj)
              exact ⟨q, by rw [show k + 1 + j = k + (j + 1) by omega]; exact hq, by simpa using he⟩
            rw [hr] at h2
            cases h2
            simp only [List.getElem_cons_zero] at he
            rw [he]

/-- Translation of an access in the claims' term. -/
theorem translateAll_eq_ok (s : State) (la : Quad) (n : Nat) (kind : Access) (user : Bool) (pas : List Nat) :
    translateAll s la n kind user = .ok pas ↔ MapsTo s la n kind user pas := by
  simp only [translateAll, translateFrom_eq_ok, MapsTo, Nat.zero_add]

theorem firstUnpopulated_eq_none (s : State) (pas : List Nat) :
    firstUnpopulated s pas = none ↔ ∀ a ∈ pas, inRegions s.populated a = true := by
  simp [firstUnpopulated]

theorem firstInText_eq_none (s : State) (pas : List Nat) :
    firstInText s pas = none ↔ ∀ a ∈ pas, inRegions s.text a = false := by
  simp [firstInText]

/-- The alignment check passes exactly on an aligned reference when translation answers (R58, R243). -/
theorem alignCheck_eq_ok (s : State) (la : Quad) (n : Nat) (kind : Access) :
    alignCheck s la n kind = .ok () ↔ ¬Misaligned s la n := by
  rw [← alignFault_iff]
  unfold alignCheck
  cases alignFault s la n
  · simp
  · cases s.params.alignBeforePage
    · cases translateAll s la n kind (isUser s) <;> simp
    · simp

/-! Values. -/

/-- Bytes least significant first, as a word and as a number (R52). -/
theorem ofBytesLE_eq (bs : List Byte) : ofBytesLE bs = BitVec.ofNat 64 (littleEndian bs) := by
  induction bs with
  | nil => rfl
  | cons b bs ih =>
    simp only [ofBytesLE, littleEndian, ih]
    have hd : (BitVec.ofNat 64 (littleEndian bs) <<< 8) &&& b.setWidth 64 = 0#64 := by
      apply BitVec.eq_of_getLsbD_eq
      intro i hi
      simp only [BitVec.getLsbD_and, BitVec.getLsbD_shiftLeft, BitVec.getLsbD_setWidth, BitVec.getLsbD_zero]
      by_cases h : i < 8
      · simp [h]
      · simp [BitVec.getLsbD_of_ge b i (by omega)]
    rw [← BitVec.add_eq_or_of_and_eq_zero _ _ hd]
    apply BitVec.eq_of_toNat_eq
    simp only [BitVec.toNat_add, BitVec.toNat_shiftLeft, BitVec.toNat_ofNat, BitVec.toNat_setWidth, Nat.shiftLeft_eq]
    have := b.isLt
    omega

/-- The value an allowed read gives. -/
theorem valueAt_eq (s : State) (pas : List Nat) : ofBytesLE (pas.map s.mem.read) = valueAt s pas := ofBytesLE_eq _

theorem bytesLE_length (n : Nat) (v : Quad) : (bytesLE n v).length = n := by
  induction n generalizing v with
  | zero => rfl
  | succ n ih => simp [bytesLE, ih]

/-- Byte `k` of a value (R52). -/
theorem bytesLE_getElem (n : Nat) (v : Quad) (k : Nat) (h : k < (bytesLE n v).length) :
    (bytesLE n v)[k] = (v >>> (8 * k)).setWidth 8 := by
  induction n generalizing v k with
  | zero => simp [bytesLE] at h
  | succ n ih =>
    cases k with
    | zero => simp [bytesLE]
    | succ k =>
      have hk : k < (bytesLE n (v >>> 8)).length := by
        rw [bytesLE_length] at h ⊢; omega
      have := ih (v >>> 8) k hk
      rw [← BitVec.shiftRight_add, show 8 + 8 * k = 8 * (k + 1) by omega] at this
      exact this

/-- What a write of several bytes leaves (R72). -/
theorem storesBytes_writeAll (s : State) (pas : List Nat) (n : Nat) (v : Quad) (h : pas.length = n) :
    StoresBytes s (s.setMem (s.mem.writeAll (pas.zip (bytesLE n v)))) pas v := by
  have hz : (pas.zip (bytesLE n v)).map Prod.fst = pas := by
    rw [List.map_fst_zip]; rw [bytesLE_length]; omega
  refine ⟨rfl, fun a ha => ?_, fun hd k hk => ?_⟩
  · exact Memory.read_writeAll_of_notMem _ _ _ (by rwa [hz])
  · refine Memory.read_writeAll_of_mem _ _ _ _ (by rwa [hz]) ?_
    have hk' : k < (bytesLE n v).length := by rw [bytesLE_length]; omega
    rw [← bytesLE_getElem n v k hk']
    have hlen : k < (pas.zip (bytesLE n v)).length := by simp only [List.length_zip]; omega
    have := List.getElem_mem hlen
    rwa [List.getElem_zip] at this

/-! Whole accesses. -/

/-- An access is allowed exactly when the segment checks, the alignment check and translation pass and every byte can be
reached. -/
theorem accessAllowed_iff (s : State) (r : SegReg) (ea : Quad) (n : Nat) (kind : Access) (pas : List Nat) :
    AccessAllowed s r ea n kind pas ↔
      segChecks s r ea n kind = .ok () ∧ alignCheck s (linear s r ea) n kind = .ok ()
        ∧ translateAll s (linear s r ea) n kind (isUser s) = .ok pas ∧ firstUnpopulated s pas = none
        ∧ (kind = .write → firstInText s pas = none) := by
  rw [segChecks_eq_ok, alignCheck_eq_ok, translateAll_eq_ok, firstUnpopulated_eq_none, firstInText_eq_none]
  unfold AccessAllowed Reachable isUser
  refine and_congr_right fun _ => and_congr_right fun _ => and_congr_right fun _ => ?_
  exact ⟨fun h => ⟨fun a ha => (h a ha).1, fun hk a ha => (h a ha).2 hk⟩,
    fun h a ha => ⟨h.1 a ha, fun hk => h.2 hk a ha⟩⟩

/-- An allowed read gives the value at its physical addresses (R64). -/
theorem segRead_of_allowed {s : State} {r : SegReg} {ea : Quad} {n : Nat} {pas : List Nat}
    (h : AccessAllowed s r ea n .read pas) : segRead s r ea n = .ok (valueAt s pas) := by
  obtain ⟨h1, h2, h3, h4, _⟩ := (accessAllowed_iff s r ea n .read pas).mp h
  rw [segRead_eq_ok, memRead_eq_ok]
  exact ⟨h1, h2, pas, h3, h4, (valueAt_eq s pas).symm⟩

/-- An allowed write stores its bytes and changes nothing else (R65). -/
theorem segWrite_of_allowed {s : State} {r : SegReg} {ea : Quad} {n : Nat} {pas : List Nat} (v : Quad)
    (h : AccessAllowed s r ea n .write pas) : ∃ t, segWrite s r ea n v = .ok t ∧ StoresBytes s t pas v := by
  obtain ⟨h1, h2, h3, h4, h5⟩ := (accessAllowed_iff s r ea n .write pas).mp h
  refine ⟨_, (segWrite_eq_ok ..).mpr ⟨h1, h2, (memWrite_eq_ok ..).mpr ⟨pas, h3, h4, h5 rfl, rfl⟩⟩, ?_⟩
  exact storesBytes_writeAll s pas n v ((translateAll_eq_ok ..).mp h3).1

end Sys2Proof.Machine
end

