-- ==== Sys2Proof/Laws/Registers.lean ====
section
/-! SUPPORT. The register views of R23 and R24 against the terms of Safety.lean: which bits a write replaces, which bits a
read gives. -/

namespace Sys2Proof.Machine

/-- The bits of a merged register: `w` bits from `lo` on are new, all others old (R24). -/
theorem getLsbD_replaceBits (lo w : Nat) (x v : Quad) (i : Nat) (hi : i < 64) :
    (replaceBits lo w x v).getLsbD i = if lo ≤ i ∧ i < lo + w then v.getLsbD (i - lo) else x.getLsbD i := by
  have mask : ∀ j, j < 64 → (BitVec.ofNat 64 (2 ^ w - 1)).getLsbD j = decide (j < w) := by
    intro j hj
    rw [BitVec.getLsbD_ofNat, Nat.testBit_two_pow_sub_one]
    simp [hj]
  unfold replaceBits
  simp only [BitVec.getLsbD_or, BitVec.getLsbD_and, BitVec.getLsbD_not, BitVec.getLsbD_shiftLeft, hi, decide_true,
    Bool.true_and]
  by_cases h1 : i < lo
  · have : ¬(lo ≤ i ∧ i < lo + w) := by omega
    simp [h1, this]
  · rw [mask (i - lo) (by omega)]
    by_cases h2 : i - lo < w
    · have : lo ≤ i ∧ i < lo + w := by omega
      simp [h1, h2, this]
    · have : ¬(lo ≤ i ∧ i < lo + w) := by omega
      simp [h1, h2, this]

/-- A merge looks at the low `w` bits of the new value only. -/
theorem replaceBits_congr (lo w : Nat) (x u v : Quad) (h : ∀ j, j < w → u.getLsbD j = v.getLsbD j) :
    replaceBits lo w x u = replaceBits lo w x v := by
  apply BitVec.eq_of_getLsbD_eq
  intro i hi
  rw [getLsbD_replaceBits _ _ _ _ i hi, getLsbD_replaceBits _ _ _ _ i hi]
  split
  · exact h _ (by omega)
  · rfl

theorem byteReg_high {n : RegNum} {rex : Bool} (h : isHighByte n rex = true) :
    byteReg n rex = (highByteHome n, 8) := by
  simp only [isHighByte, Bool.and_eq_true, Bool.not_eq_true', decide_eq_true_eq] at h
  rw [byteReg, if_pos ⟨h.1.1, h.1.2, h.2⟩]; rfl

theorem byteReg_low {n : RegNum} {rex : Bool} (h : ¬isHighByte n rex = true) : byteReg n rex = (n, 0) := by
  simp only [isHighByte, Bool.and_eq_true, Bool.not_eq_true', decide_eq_true_eq] at h
  rw [byteReg, if_neg (by tauto)]

/-- A byte write (R24). -/
theorem regWrite_byte (s : State) (n : RegNum) (rex : Bool) (v : Quad) :
    regWrite s n .byte rex v = withByte s n rex v := by
  unfold withByte
  by_cases h : isHighByte n rex = true
  · rw [byteReg_high h]
    simp only [regWrite, if_pos h]
    refine congrArg (s.setReg _) ?_
    apply BitVec.eq_of_getLsbD_eq
    intro i hi
    rw [getLsbD_replaceBits _ _ _ _ i (by omega)]
    simp only [BitVec.getLsbD_append, BitVec.getLsbD_extractLsb', BitVec.getLsbD_setWidth]
    by_cases h1 : i < 8
    · simp [h1, show i < 16 by omega, show ¬8 ≤ i by omega]
    · by_cases h2 : i < 16
      · simp [h1, h2, show 8 ≤ i by omega, show i - 8 < 8 by omega]
      · simp [h2, show i - 16 < 48 by omega, show 16 + (i - 16) = i by omega]
  · rw [byteReg_low h]
    simp only [regWrite, if_neg h]
    refine congrArg (s.setReg _) ?_
    apply BitVec.eq_of_getLsbD_eq
    intro i hi
    rw [getLsbD_replaceBits _ _ _ _ i (by omega)]
    simp only [BitVec.getLsbD_append, BitVec.getLsbD_extractLsb', BitVec.getLsbD_setWidth]
    by_cases h1 : i < 8
    · rw [if_pos (by omega)]; simp [h1]
    · rw [if_neg (by omega)]; simp [h1, show i - 8 < 56 by omega, show 8 + (i - 8) = i by omega]

/-- A 16-bit write (R24). -/
theorem regWrite_word (s : State) (n : RegNum) (rex : Bool) (v : Quad) :
    regWrite s n .word rex v = withWord s n v := by
  unfold withWord
  simp only [regWrite]
  refine congrArg (s.setReg _) ?_
  apply BitVec.eq_of_getLsbD_eq
  intro i hi
  rw [getLsbD_replaceBits _ _ _ _ i (by omega)]
  simp only [BitVec.getLsbD_append, BitVec.getLsbD_extractLsb', BitVec.getLsbD_setWidth]
  by_cases h1 : i < 16
  · rw [if_pos (by omega)]; simp [h1]
  · rw [if_neg (by omega)]; simp [h1, show i - 16 < 48 by omega, show 16 + (i - 16) = i by omega]

/-- A 32-bit write (R24). -/
theorem regWrite_dword (s : State) (n : RegNum) (rex : Bool) (v : Quad) :
    regWrite s n .dword rex v = withDword s n v := by
  unfold withDword
  simp only [regWrite]
  by_cases hm : s.mode = .long64
  · rw [if_pos hm, if_pos hm]
    refine congrArg (s.setReg _) ?_
    apply BitVec.eq_of_getLsbD_eq
    intro i hi
    rw [getLsbD_replaceBits _ _ _ _ i (by omega)]
    by_cases h1 : i < 32
    · rw [if_pos (by omega)]; simp [h1, hi]
    · rw [if_neg (by omega)]; simp [h1]
  · rw [if_neg hm, if_neg hm]
    refine congrArg (s.setReg _) ?_
    apply BitVec.eq_of_getLsbD_eq
    intro i hi
    rw [getLsbD_replaceBits _ _ _ _ i (by omega)]
    simp only [BitVec.getLsbD_append, BitVec.getLsbD_extractLsb', BitVec.getLsbD_setWidth]
    by_cases h1 : i < 32
    · simp [h1]
    · simp [h1, show i - 32 < 32 by omega, show 32 + (i - 32) = i by omega]

/-- A 64-bit write (R24). -/
theorem regWrite_qword (s : State) (n : RegNum) (rex : Bool) (v : Quad) :
    regWrite s n .qword rex v = s.setReg n v := rfl

/-- The low byte of a byte register read (R23). -/
theorem getLsbD_regRead_byte (s : State) (n : RegNum) (rex : Bool) (j : Nat) (hj : j < 8) :
    (regRead s n .byte rex).getLsbD j = (byteValue s n rex).getLsbD j := by
  unfold byteValue
  by_cases h : isHighByte n rex = true
  · rw [byteReg_high h]
    simp [regRead, h, hj, show j < 64 by omega]
  · rw [byteReg_low h]
    simp [regRead, h, Size.trunc, hj, show j < 64 by omega]

/-- The low bits of a register read (R23). -/
theorem getLsbD_regRead (s : State) (n : RegNum) (sz : Size) (rex : Bool) (h : sz ≠ .byte) (j : Nat)
    (hj : j < 8 * sz.bytes) : (regRead s n sz rex).getLsbD j = (s.reg n).getLsbD j := by
  cases sz
  · exact absurd rfl h
  · simp only [Size.bytes] at hj
    simp [regRead, Size.trunc, show j < 16 by omega, show j < 64 by omega]
  · simp only [Size.bytes] at hj
    simp [regRead, Size.trunc, show j < 32 by omega, show j < 64 by omega]
  · rfl

/-- Byte writes agree on values with the same low byte. -/
theorem withByte_congr (s : State) (n : RegNum) (rex : Bool) (u v : Quad)
    (h : ∀ j, j < 8 → u.getLsbD j = v.getLsbD j) : withByte s n rex u = withByte s n rex v := by
  unfold withByte; rw [replaceBits_congr _ _ _ u v h]

/-- 16-bit writes agree on values with the same low 16 bits. -/
theorem withWord_congr (s : State) (n : RegNum) (u v : Quad)
    (h : ∀ j, j < 16 → u.getLsbD j = v.getLsbD j) : withWord s n u = withWord s n v := by
  unfold withWord; rw [replaceBits_congr _ _ _ u v h]

/-- 32-bit writes agree on values with the same low 32 bits. -/
theorem withDword_congr (s : State) (n : RegNum) (u v : Quad)
    (h : ∀ j, j < 32 → u.getLsbD j = v.getLsbD j) : withDword s n u = withDword s n v := by
  unfold withDword; rw [replaceBits_congr _ _ _ u v h]

end Sys2Proof.Machine
end

