-- ==== Sys2Proof/Laws/Exec.lean ====
section
/-! SUPPORT. What the meanings can do, said once: an access as its checks and then its bytes, when a check stops it and with
which exception (`accessPath_eq_error`), every row with a memory operand as one access (`exec_access`), and every row that
raises #UD whatever the state (`exec_ud`). -/

namespace Sys2Proof.Machine

/-! An access: the checks, then the bytes. -/

/-- The checks and the translation of an access, in the order of R64, R65 and R71; the physical addresses of its bytes. -/
def accessPath (s : State) (a : DataAccess) : Except Stop (List Nat) := do
  segChecks s a.seg a.ea a.bytes a.kind
  alignCheck s (linear s a.seg a.ea) a.bytes a.kind
  translateAll s (linear s a.seg a.ea) a.bytes a.kind (isUser s)

/-- A read is its path, then its bytes. -/
theorem segRead_eq_path (s : State) (r : SegReg) (ea : Quad) (n : Nat) :
    segRead s r ea n = (accessPath s ⟨r, ea, n, .read⟩ >>= fun pas =>
      match firstUnpopulated s pas with
      | some a => .error (.unpopulated a)
      | none => .ok (ofBytesLE (pas.map s.mem.read))) := by
  simp only [segRead, memRead, accessPath, bind_assoc] <;> rfl

/-- A write is its path, then its bytes. -/
theorem segWrite_eq_path (s : State) (r : SegReg) (ea : Quad) (n : Nat) (v : Quad) :
    segWrite s r ea n v = (accessPath s ⟨r, ea, n, .write⟩ >>= fun pas =>
      match firstUnpopulated s pas with
      | some a => .error (.unpopulated a)
      | none =>
        match firstInText s pas with
        | some a => .error (.refuse (.storesIntoText a))
        | none => .ok (s.setMem (s.mem.writeAll (pas.zip (bytesLE n v))))) := by
  simp only [segWrite, memWrite, accessPath, bind_assoc] <;> rfl

/-- An access's path is clear exactly when the rules allow it. -/
theorem accessPath_eq_ok (s : State) (a : DataAccess) (pas : List Nat) :
    accessPath s a = .ok pas ↔ SegAllowed s a.seg a.ea a.bytes a.kind ∧ ¬Misaligned s (linear s a.seg a.ea) a.bytes
      ∧ MapsTo s (linear s a.seg a.ea) a.bytes a.kind (decide (s.cpl = 3)) pas := by
  rw [accessPath, check_eq_ok, check_eq_ok, segChecks_eq_ok, alignCheck_eq_ok, translateAll_eq_ok]; rfl

/-- The stop that raises an exception. -/
def raiseStop (k : ExcKind) (code : Option (BitVec 32)) (addr : Option (BitVec 64)) : Stop :=
  .raise { mnemonic := .mov, kind := k, code := code, addr := addr }

theorem settle_raiseStop (s : State) (k : ExcKind) (code : Option (BitVec 32)) (addr : Option (BitVec 64)) :
    settle s (.error (raiseStop k code addr)) = raised s k code addr := rfl

/-- Translation of an access stops exactly at its first faulting byte (R71). -/
theorem translateAll_eq_error (s : State) (la : Quad) (n : Nat) (kind : Access) (user : Bool) (e : Stop) :
    translateAll s la n kind user = .error e ↔
      ∃ c addr, e = raiseStop .pf (some c) (some addr) ∧ PageFaultAt s la n kind user c addr := by
  have down : ∀ m k0, translateFrom s la kind user m k0 = .error e →
      ∃ c k, e = raiseStop .pf (some c) (some (byteAddr s la k)) ∧ k0 ≤ k ∧ k < k0 + m
        ∧ translate s (byteAddr s la k) kind user = .error c
        ∧ ∀ j, k0 ≤ j → j < k → ∃ pa, translate s (byteAddr s la j) kind user = .ok pa := by
    intro m
    induction m with
    | zero => intro k0 h; cases h
    | succ m ih =>
      intro k0 h
      simp only [translateFrom] at h
      split at h
      · rename_i c hc
        cases h
        exact ⟨c, k0, rfl, le_refl _, by omega, hc, fun j h1 h2 => by omega⟩
      · rename_i pa hp
        split at h
        · rename_i e' he
          cases h
          obtain ⟨c, k, h1, h2, h3, h4, h5⟩ := ih _ he
          refine ⟨c, k, h1, by omega, by omega, h4, fun j h6 h7 => ?_⟩
          by_cases hj : j = k0
          · subst hj; exact ⟨pa, hp⟩
          · exact h5 j (by omega) h7
        · cases h
  constructor
  · intro h
    obtain ⟨c, k, h1, _, h3, h4, h5⟩ := down n 0 h
    exact ⟨c, _, h1, k, by omega, rfl, h4, fun j hj => h5 j (by omega) hj⟩
  · rintro ⟨c, addr, rfl, k, hk, rfl, ht, hb⟩
    have up : ∀ m k0, k0 ≤ k → k < k0 + m →
        translateFrom s la kind user m k0 = .error (.pf c (byteAddr s la k)) := by
      intro m
      induction m with
      | zero => intro k0 h1 h2; omega
      | succ m ih =>
        intro k0 h1 h2
        simp only [translateFrom]
        by_cases e : k0 = k
        · subst e; rw [ht]
        · obtain ⟨pa, hp⟩ := hb k0 (by omega)
          rw [hp, ih (k0 + 1) (by omega) (by omega)]
    exact up n 0 (by omega) (by omega)

/-- The NULL, writability and readability tests of R64 fail exactly where `NotNull` or `KindAllowed` does. -/
theorem protChecks_eq (s : State) (r : SegReg) (ea : Quad) (n : Nat) (kind : Access) (h : s.mode ≠ .real) :
    (¬(NotNull s r ∧ KindAllowed s r kind) → protChecks s r ea n kind = .error (raiseStop .gp (some 0) none))
      ∧ (NotNull s r ∧ KindAllowed s r kind →
          protChecks s r ea n kind = if inLimit (s.seg r) ea n then .ok () else .error (.seg0 r s)) := by
  have hz : Stop.gp0 s = raiseStop .gp (some 0) none := by
    unfold Stop.gp0 code0; rw [if_neg h]; rfl
  have hu : (isDataSeg r = true) ↔ (r = .ds ∨ r = .es ∨ r = .fs ∨ r = .gs) := by cases r <;> simp [isDataSeg]
  unfold protChecks
  by_cases h1 : (r = .ds ∨ r = .es ∨ r = .fs ∨ r = .gs) ∧ (!(s.seg r).usable) = true
  · refine ⟨fun _ => by rw [if_pos h1, hz], fun hk => ?_⟩
    have := hk.1 (hu.mpr h1.1)
    simp [this] at h1
  · rw [if_neg h1]
    by_cases h2 : kind = .write ∧ ((s.seg r).attr.code || !(s.seg r).attr.writable) = true
    · refine ⟨fun _ => by rw [if_pos h2, hz], fun hk => ?_⟩
      have := hk.2.1 h2.1
      simp [this.1, this.2] at h2
    · rw [if_neg h2]
      by_cases h3 : kind = .read ∧ ((s.seg r).attr.code && !(s.seg r).attr.readable) = true
      · refine ⟨fun _ => by rw [if_pos h3, hz], fun hk => ?_⟩
        have h4 := h3.2
        simp only [Bool.and_eq_true, Bool.not_eq_true'] at h4
        have := hk.2.2 h3.1 h4.1
        rw [h4.2] at this; cases this
      · rw [if_neg h3]
        refine ⟨fun hk => (hk ⟨fun hd => ?_, ⟨fun hw => ?_, fun hr hc => ?_⟩⟩).elim, fun _ => ?_⟩
        · by_contra hc; exact h1 ⟨hu.mp hd, by simpa using hc⟩
        · have : ¬((s.seg r).attr.code || !(s.seg r).attr.writable) = true := fun hc => h2 ⟨hw, hc⟩
          simpa using this
        · have : ¬((s.seg r).attr.code && !(s.seg r).attr.readable) = true := fun hc' => h3 ⟨hr, hc'⟩
          simpa [hc] using this
        · cases inLimit (s.seg r) ea n <;> rfl

/-- The segment checks as a chain: protection, then limit or canonical form (R64, R243). -/
theorem segChecks_eq (s : State) (r : SegReg) (ea : Quad) (n : Nat) (kind : Access) :
    (isProt s.mode = true → ¬(NotNull s r ∧ KindAllowed s r kind) →
        segChecks s r ea n kind = .error (raiseStop .gp (some 0) none))
      ∧ (s.mode ≠ .long64 → (isProt s.mode = true → NotNull s r ∧ KindAllowed s r kind) →
          segChecks s r ea n kind = if inLimit (s.seg r) ea n then .ok () else .error (.seg0 r s))
      ∧ (s.mode = .long64 → segChecks s r ea n kind
          = if canonicalRange s.params.linAddrWidth (linear s r ea) n then .ok () else .error (.seg0 r s)) := by
  unfold segChecks
  cases hm : s.mode with
  | real => exact ⟨fun h => absurd h (by decide), fun _ _ => rfl, fun h => absurd h (by decide)⟩
  | v8086 => exact ⟨fun h => absurd h (by decide), fun _ _ => rfl, fun h => absurd h (by decide)⟩
  | long64 => exact ⟨fun h => absurd h (by decide), fun h => absurd rfl h, fun _ => rfl⟩
  | prot =>
    have hp := protChecks_eq s r ea n kind (by rw [hm]; decide)
    exact ⟨fun _ h => hp.1 h, fun _ h => hp.2 (h rfl), fun h => absurd h (by decide)⟩
  | compat =>
    have hp := protChecks_eq s r ea n kind (by rw [hm]; decide)
    exact ⟨fun _ h => hp.1 h, fun _ h => hp.2 (h rfl), fun h => absurd h (by decide)⟩

/-- An access stops on its path exactly with the exception the lists give it (R250 to R254). -/
theorem accessPath_eq_error (s : State) (a : DataAccess) (e : Stop) :
    accessPath s a = .error e ↔ ∃ k c addr, e = raiseStop k c addr ∧ AccessRaises s a k c addr := by
  obtain ⟨c1, c2, c3⟩ := segChecks_eq s a.seg a.ea a.bytes a.kind
  have seg0 : Stop.seg0 a.seg s = raiseStop (if a.seg = .ss then .ss else .gp) (zeroCode s.mode) none := rfl
  have hac : Misaligned s (linear s a.seg a.ea) a.bytes → Stop.ac0 s = raiseStop .ac (some 0) none := by
    intro h
    unfold Stop.ac0 code0; rw [if_neg h.2.2.1]; rfl
  constructor
  · intro h
    unfold accessPath at h
    rw [bind_eq_error] at h
    rcases h with h | ⟨_, h0, h⟩
    · by_cases hl : s.mode = .long64
      · rw [c3 hl] at h
        split at h
        · cases h
        · rename_i hc
          cases h
          rw [seg0, hl]
          exact ⟨_, _, _, rfl, .nonCanonical hl (by rw [← canonicalRange_iff]; exact hc)⟩
      · by_cases hp : isProt s.mode = true ∧ ¬(NotNull s a.seg ∧ KindAllowed s a.seg a.kind)
        · rw [c1 hp.1 hp.2] at h
          cases h
          exact ⟨_, _, _, rfl, .protection hp.1 hp.2⟩
        · have hp' : isProt s.mode = true → NotNull s a.seg ∧ KindAllowed s a.seg a.kind := fun h1 => by
            by_contra h2; exact hp ⟨h1, h2⟩
          rw [c2 hl hp'] at h
          split at h
          · cases h
          · rename_i hc
            cases h
            exact ⟨_, _, _, seg0, .limit hl hp' (by rw [← inLimit_eq_false]; simpa using hc)⟩
    · have hs := (segChecks_eq_ok ..).mp h0
      rw [bind_eq_error] at h
      rcases h with h | ⟨_, h1, h⟩
      · unfold alignCheck at h
        split at h
        · rename_i hf
          have hf' := (alignFault_iff ..).mp hf
          split at h
          · rename_i hp
            cases h
            exact ⟨_, _, _, hac hf', .alignment hs hf' (.inl hp)⟩
          · rename_i hp
            split at h
            · rename_i e' he'
              cases h
              obtain ⟨c, addr, rfl, hpf⟩ := (translateAll_eq_error ..).mp he'
              exact ⟨_, _, _, rfl, .page hs (.inl (by simpa using hp)) c addr hpf⟩
            · rename_i pas hok
              cases h
              refine ⟨_, _, _, hac hf', .alignment hs hf' (.inr ?_)⟩
              rintro ⟨c, addr, hpf⟩
              have := (translateAll_eq_error ..).mpr ⟨c, addr, rfl, hpf⟩
              rw [show decide (s.cpl = 3) = isUser s from rfl, hok] at this
              cases this
        · cases h
      · obtain ⟨c, addr, rfl, hpf⟩ := (translateAll_eq_error ..).mp h
        exact ⟨_, _, _, rfl, .page hs (.inr ((alignCheck_eq_ok ..).mp h1)) c addr hpf⟩
  · rintro ⟨k, c, addr, rfl, h⟩
    cases h with
    | protection hm h => rw [accessPath, c1 hm h]; rfl
    | limit hm hp h => rw [accessPath, c2 hm hp, (inLimit_eq_false ..).mpr h]; rfl
    | nonCanonical hm h =>
      rw [accessPath, c3 hm, if_neg (by rw [canonicalRange_iff]; exact h), seg0, hm]; rfl
    | alignment hs h hp =>
      have : alignCheck s (linear s a.seg a.ea) a.bytes a.kind = .error (Stop.ac0 s) := by
        unfold alignCheck
        rw [if_pos ((alignFault_iff ..).mpr h)]
        rcases hp with hp | hp
        · rw [if_pos hp]
        · split
          · rfl
          · split
            · rename_i e he
              obtain ⟨c, addr, _, hh⟩ := (translateAll_eq_error ..).mp he
              exact absurd ⟨c, addr, hh⟩ hp
            · rfl
      rw [accessPath, (segChecks_eq_ok ..).mpr hs]
      show (alignCheck s (linear s a.seg a.ea) a.bytes a.kind >>= _) = _
      rw [this, hac h]; rfl
    | page hs hp c la h =>
      have hpf := (translateAll_eq_error ..).mpr ⟨c, la, rfl, h⟩
      rw [show decide (s.cpl = 3) = isUser s from rfl] at hpf
      rw [accessPath, (segChecks_eq_ok ..).mpr hs]
      show (alignCheck s (linear s a.seg a.ea) a.bytes a.kind >>= _) = _
      by_cases hm : Misaligned s (linear s a.seg a.ea) a.bytes
      · have hq : s.params.alignBeforePage = false := hp.resolve_right fun h => h hm
        have : alignCheck s (linear s a.seg a.ea) a.bytes a.kind = .error (raiseStop .pf (some c) (some la)) := by
          unfold alignCheck
          rw [if_pos ((alignFault_iff ..).mpr hm), if_neg (by rw [hq]; decide), hpf]
        rw [this]; rfl
      · rw [(alignCheck_eq_ok ..).mpr hm]
        exact hpf

/-! The operand forms with a memory operand and no LOCK prefix, as one access. -/

theorem storeRM_access (s : State) (h : Head) (len : Nat) (sz : Size) (rex : Bool) (m : MemOp) (v : Quad)
    (hl : h.lock = false) : settle s (storeRM s h len sz rex (.mem m) v)
      = settle s (segWrite s (memPlace s h len m).1 (memPlace s h len m).2 sz.bytes v) := by
  rw [storeRM, (noLock_eq_ok h).mpr hl]; rfl

theorem loadRM_access (s : State) (h : Head) (len : Nat) (sz : Size) (rex : Bool) (d : RegNum) (m : MemOp)
    (hl : h.lock = false) : settle s (loadRM s h len sz rex d (.mem m))
      = settle s (segRead s (memPlace s h len m).1 (memPlace s h len m).2 sz.bytes >>= fun v =>
          .ok (regWrite s d sz rex v)) := by
  rw [loadRM, (noLock_eq_ok h).mpr hl]; rfl

theorem loadMoffs_access (s : State) (h : Head) (sz : Size) (o : Moffs) (hl : h.lock = false) :
    settle s (loadMoffs s h sz o)
      = settle s (segRead s (offPlace s h o).1 (offPlace s h o).2 sz.bytes >>= fun v => .ok (regWrite s 0 sz true v)) := by
  rw [loadMoffs, (noLock_eq_ok h).mpr hl]; rfl

theorem storeMoffs_access (s : State) (h : Head) (sz : Size) (o : Moffs) (hl : h.lock = false) :
    settle s (storeMoffs s h sz o)
      = settle s (segWrite s (offPlace s h o).1 (offPlace s h o).2 sz.bytes (regRead s 0 sz true)) := by
  rw [storeMoffs, (noLock_eq_ok h).mpr hl]; rfl

theorem storeSeg16_access (s : State) (h : Head) (len : Nat) (m : MemOp) (r : SegReg) (hl : h.lock = false) :
    settle s (storeSeg16 s h len (.mem m) (.seg r))
      = settle s (segWrite s (memPlace s h len m).1 (memPlace s h len m).2 2 ((s.seg r).sel.setWidth 64)) := by
  rw [storeSeg16, (storeField_eq_ok h (.seg r) r).mpr ⟨hl, rfl⟩]; rfl

theorem storeSeg32_access (s : State) (h : Head) (len : Nat) (m : MemOp) (r : SegReg) (hl : h.lock = false) :
    settle s (storeSeg32 s h len (.mem m) (.seg r))
      = settle s (segWrite s (memPlace s h len m).1 (memPlace s h len m).2 2 ((s.seg r).sel.setWidth 64)) := by
  rw [storeSeg32, (storeField_eq_ok h (.seg r) r).mpr ⟨hl, rfl⟩]; rfl

theorem storeSeg64_access (s : State) (h : Head) (len : Nat) (m : MemOp) (r : SegReg) (hl : h.lock = false) :
    settle s (storeSeg64 s h len (.mem m) (.seg r))
      = settle s (segWrite s (memPlace s h len m).1 (memPlace s h len m).2 2 ((s.seg r).sel.setWidth 64)) := by
  rw [storeSeg64, (storeField_eq_ok h (.seg r) r).mpr ⟨hl, rfl⟩]; rfl

theorem loadSeg16_access (s : State) (h : Head) (len : Nat) (m : MemOp) (r : SegReg) (hl : h.lock = false)
    (hr : r ≠ .cs) : settle s (loadSeg16 s h len (.seg r) (.mem m))
      = settle s (segRead s (memPlace s h len m).1 (memPlace s h len m).2 2 >>= fun v => loadSeg s r (v.setWidth 16)) := by
  rw [loadSeg16, (loadField_eq_ok h (.seg r) r).mpr ⟨hl, rfl, hr⟩]; rfl

theorem m64Bytes_eq (s : State) : m64Bytes s = m64Width s := by
  unfold m64Bytes m64Width; cases s.params.sregLoadM64Width <;> rfl

theorem loadSeg64_access (s : State) (h : Head) (len : Nat) (m : MemOp) (r : SegReg) (hl : h.lock = false)
    (hr : r ≠ .cs) : settle s (loadSeg64 s h len (.seg r) (.mem m))
      = settle s (segRead s (memPlace s h len m).1 (memPlace s h len m).2 (m64Width s) >>= fun v =>
          loadSeg s r (v.setWidth 16)) := by
  rw [loadSeg64, (loadField_eq_ok h (.seg r) r).mpr ⟨hl, rfl, hr⟩, ← m64Bytes_eq]; rfl

theorem field_of_named {f : SregField} (h : namesNone f = false) : ∃ r, f = .seg r := by
  cases f with
  | seg r => exact ⟨r, rfl⟩
  | none6 => cases h
  | none7 => cases h

/-- Every row with a memory operand is one access: a read, then what is done with the value (for a row that loads no segment
register, always a next state), or a write. -/
theorem exec_access (i : Instr) (s : State) (a : DataAccess) (hu : raisesUD i = false) (ha : dataAccess s i = some a) :
    (a.kind = .read ∧ ∃ f : Quad → Except Stop State,
        exec i s = settle s (segRead s a.seg a.ea a.bytes >>= f) ∧ (destSeg i = none → ∀ v, ∃ t, f v = .ok t))
      ∨ (a.kind = .write ∧ ∃ v, exec i s = settle s (segWrite s a.seg a.ea a.bytes v)) := by
  have hl : i.head.lock = false := by
    unfold raisesUD at hu
    rw [Bool.or_eq_false_iff] at hu
    exact hu.1
  cases i
  case movRm8R8 h d r =>
    cases d with
    | reg n => cases ha
    | mem m => cases ha; exact .inr ⟨rfl, _, storeRM_access s h _ _ _ m _ hl⟩
  case movRm8R8Rex h d r =>
    cases d with
    | reg n => cases ha
    | mem m => cases ha; exact .inr ⟨rfl, _, storeRM_access s h _ _ _ m _ hl⟩
  case movRm16R16 h d r =>
    cases d with
    | reg n => cases ha
    | mem m => cases ha; exact .inr ⟨rfl, _, storeRM_access s h _ _ _ m _ hl⟩
  case movRm32R32 h d r =>
    cases d with
    | reg n => cases ha
    | mem m => cases ha; exact .inr ⟨rfl, _, storeRM_access s h _ _ _ m _ hl⟩
  case movRm64R64 h d r =>
    cases d with
    | reg n => cases ha
    | mem m => cases ha; exact .inr ⟨rfl, _, storeRM_access s h _ _ _ m _ hl⟩
  case movR8Rm8 h d r =>
    cases r with
    | reg n => cases ha
    | mem m => cases ha; exact .inl ⟨rfl, _, loadRM_access s h _ _ _ d m hl, fun _ v => ⟨_, rfl⟩⟩
  case movR8Rm8Rex h d r =>
    cases r with
    | reg n => cases ha
    | mem m => cases ha; exact .inl ⟨rfl, _, loadRM_access s h _ _ _ d m hl, fun _ v => ⟨_, rfl⟩⟩
  case movR16Rm16 h d r =>
    cases r with
    | reg n => cases ha
    | mem m => cases ha; exact .inl ⟨rfl, _, loadRM_access s h _ _ _ d m hl, fun _ v => ⟨_, rfl⟩⟩
  case movR32Rm32 h d r =>
    cases r with
    | reg n => cases ha
    | mem m => cases ha; exact .inl ⟨rfl, _, loadRM_access s h _ _ _ d m hl, fun _ v => ⟨_, rfl⟩⟩
  case movR64Rm64 h d r =>
    cases r with
    | reg n => cases ha
    | mem m => cases ha; exact .inl ⟨rfl, _, loadRM_access s h _ _ _ d m hl, fun _ v => ⟨_, rfl⟩⟩
  case movRm16Sreg h d f =>
    simp only [raisesUD, Bool.or_eq_false_iff] at hu
    replace hu := hu.2
    obtain ⟨r, rfl⟩ := field_of_named hu
    cases d with
    | reg n => cases ha
    | mem m => cases ha; exact .inr ⟨rfl, _, storeSeg16_access s h _ m r hl⟩
  case movR32M16Sreg h d f =>
    simp only [raisesUD, Bool.or_eq_false_iff] at hu
    replace hu := hu.2
    obtain ⟨r, rfl⟩ := field_of_named hu
    cases d with
    | reg n => cases ha
    | mem m =>
      cases ha
      refine .inr ⟨rfl, (s.seg r).sel.setWidth 64, ?_⟩
      show settle s (if _ then _ else _) = _
      split
      · exact storeSeg16_access s h _ m r hl
      · exact storeSeg32_access s h _ m r hl
  case movR64M16Sreg h d f =>
    simp only [raisesUD, Bool.or_eq_false_iff] at hu
    replace hu := hu.2
    obtain ⟨r, rfl⟩ := field_of_named hu
    cases d with
    | reg n => cases ha
    | mem m => cases ha; exact .inr ⟨rfl, _, storeSeg64_access s h _ m r hl⟩
  case movSregRm16 h f d =>
    simp only [raisesUD, Bool.or_eq_false_iff, decide_eq_false_iff_not] at hu
    obtain ⟨r, rfl⟩ := field_of_named hu.2.1
    have hr : r ≠ .cs := fun e => hu.2.2 (by rw [e])
    cases d with
    | reg n => cases ha
    | mem m => cases ha; exact .inl ⟨rfl, _, loadSeg16_access s h _ m r hl hr, fun hd => by cases hd⟩
  case movSregRm64 h f d =>
    simp only [raisesUD, Bool.or_eq_false_iff, decide_eq_false_iff_not] at hu
    obtain ⟨r, rfl⟩ := field_of_named hu.2.1
    have hr : r ≠ .cs := fun e => hu.2.2 (by rw [e])
    cases d with
    | reg n => cases ha
    | mem m => cases ha; exact .inl ⟨rfl, _, loadSeg64_access s h _ m r hl hr, fun hd => by cases hd⟩
  case movAlMoffs8 h o => cases ha; exact .inl ⟨rfl, _, loadMoffs_access s h _ o hl, fun _ v => ⟨_, rfl⟩⟩
  case movAlMoffs8RexW h o => cases ha; exact .inl ⟨rfl, _, loadMoffs_access s h _ o hl, fun _ v => ⟨_, rfl⟩⟩
  case movAxMoffs16 h o => cases ha; exact .inl ⟨rfl, _, loadMoffs_access s h _ o hl, fun _ v => ⟨_, rfl⟩⟩
  case movEaxMoffs32 h o => cases ha; exact .inl ⟨rfl, _, loadMoffs_access s h _ o hl, fun _ v => ⟨_, rfl⟩⟩
  case movRaxMoffs64 h o => cases ha; exact .inl ⟨rfl, _, loadMoffs_access s h _ o hl, fun _ v => ⟨_, rfl⟩⟩
  case movMoffs8Al h o => cases ha; exact .inr ⟨rfl, _, storeMoffs_access s h _ o hl⟩
  case movMoffs8AlRexW h o => cases ha; exact .inr ⟨rfl, _, storeMoffs_access s h _ o hl⟩
  case movMoffs16Ax h o => cases ha; exact .inr ⟨rfl, _, storeMoffs_access s h _ o hl⟩
  case movMoffs32Eax h o => cases ha; exact .inr ⟨rfl, _, storeMoffs_access s h _ o hl⟩
  case movMoffs64Rax h o => cases ha; exact .inr ⟨rfl, _, storeMoffs_access s h _ o hl⟩
  case movR8Imm8 h d v => cases ha
  case movR8Imm8Rex h d v => cases ha
  case movR16Imm16 h d v => cases ha
  case movR32Imm32 h d v => cases ha
  case movR64Imm64 h d v => cases ha
  case movRm8Imm8 h d r =>
    cases d with
    | reg n => cases ha
    | mem m => cases ha; exact .inr ⟨rfl, _, storeRM_access s h _ _ _ m _ hl⟩
  case movRm8Imm8Rex h d r =>
    cases d with
    | reg n => cases ha
    | mem m => cases ha; exact .inr ⟨rfl, _, storeRM_access s h _ _ _ m _ hl⟩
  case movRm16Imm16 h d r =>
    cases d with
    | reg n => cases ha
    | mem m => cases ha; exact .inr ⟨rfl, _, storeRM_access s h _ _ _ m _ hl⟩
  case movRm32Imm32 h d r =>
    cases d with
    | reg n => cases ha
    | mem m => cases ha; exact .inr ⟨rfl, _, storeRM_access s h _ _ _ m _ hl⟩
  case movRm64Imm32 h d r =>
    cases d with
    | reg n => cases ha
    | mem m => cases ha; exact .inr ⟨rfl, _, storeRM_access s h _ _ _ m _ hl⟩

end Sys2Proof.Machine
end

