-- ==== Sys2Proof/Laws/Fetch.lean ====
section
/-! SUPPORT. What the fetch gathers, said once: the bytes it finds up to the first that it cannot fetch, and why it ends there;
and truncation to the address size, which every view of a register in an address goes through. -/

namespace Sys2Proof.Machine

/-- Where the bytes `bs` are found and the next one is not, the fetch answers the rest of them and why it ends. -/
theorem fetchFrom_of_error (s : State) (bs : List Byte) (e : Stop)
    (hb : ∀ k (h : k < bs.length), fetchByte s k = .ok bs[k]) (he : fetchByte s bs.length = .error e) :
    ∀ n k, k ≤ bs.length → bs.length < k + n → fetchFrom s n k = (bs.drop k, some e)
  | 0, _, h1, h2 => by omega
  | n + 1, k, h1, h2 => by
    unfold fetchFrom
    by_cases hk : k < bs.length
    · rw [hb k hk]
      simp only
      rw [fetchFrom_of_error s bs e hb he n (k + 1) (by omega) (by omega), List.drop_eq_getElem_cons hk]
    · obtain rfl : k = bs.length := by omega
      rw [he]
      simp

/-- Where the bytes `bs` are found and there is room for them, what the fetch answers begins with them. -/
theorem fetchFrom_of_bytes (s : State) (bs : List Byte) (hb : ∀ k (h : k < bs.length), fetchByte s k = .ok bs[k]) :
    ∀ n k, k ≤ bs.length → bs.length ≤ k + n → ∃ rest, (fetchFrom s n k).1 = bs.drop k ++ rest
  | 0, k, h1, h2 => ⟨[], by simp [fetchFrom, List.drop_eq_nil_of_le (by omega : bs.length ≤ k)]⟩
  | n + 1, k, h1, h2 => by
    by_cases hk : k < bs.length
    · obtain ⟨rest, hr⟩ := fetchFrom_of_bytes s bs hb n (k + 1) (by omega) (by omega)
      refine ⟨rest, ?_⟩
      unfold fetchFrom
      rw [hb k hk]
      simp only [hr]
      rw [List.drop_eq_getElem_cons hk]
      rfl
    · exact ⟨(fetchFrom s (n + 1) k).1, by rw [List.drop_eq_nil_of_le (by omega)]; rfl⟩

/-- A step at which no event is delivered and the fetch stops ends as that stop says. -/
theorem step_of_fetch_error (s : State) (e : Stop) (hd : s.delivers = false) (he : fetchInstr s.passBoundary = .error e) :
    step s = settle s.passBoundary (.error e) := by
  unfold step runInstr
  rw [hd, he]
  rfl

/-- A view of a register may stand for the register in a sum that is truncated. -/
theorem trunc_trunc_add (a : AddrSize) (x y : Quad) : a.trunc (a.trunc x + y) = a.trunc (x + y) := by
  cases a <;> simp only [AddrSize.trunc] <;> bv_omega

/-- A view of a register may stand for the register in a product that is truncated. -/
theorem trunc_trunc_shiftLeft (a : AddrSize) (x : Quad) (n : Nat) : a.trunc (a.trunc x <<< n) = a.trunc (x <<< n) := by
  cases a <;> simp only [AddrSize.trunc] <;> ext i <;> simp

end Sys2Proof.Machine
end

