-- ==== Sys2Proof/Laws/Frames.lean ====
section
/-! SUPPORT. What a completed instruction is, said once: a register written, a store, or a segment load (`exec_cases`); and
what a completed segment load is (`loadSeg_cases`). Frames and invariants are short case analyses over these two. -/

namespace Sys2Proof.Machine

/-- The register a write at a size goes to is the one `destReg` names. -/
theorem regWrite_home (s : State) (n : RegNum) (rex : Bool) (v : Quad) :
    ∃ w, regWrite s n .byte rex v = s.setReg (byteReg n rex).1 w := by
  rw [regWrite_byte]; exact ⟨_, rfl⟩

/-- The three shapes of a completed instruction. -/
inductive Completed (i : Instr) (s t : State) : Prop where
  /-- a general register is written, and nothing else but the count of free values -/
  | register (r : RegNum) (w : Quad) (d : Nat) (hr : destReg i = some r) (hs : destSeg i = none)
      (ha : ∀ a, dataAccess s i = some a → a.kind ≠ .write) (ht : t = (s.setReg r w).setDraws d)
  /-- a store -/
  | store (a : DataAccess) (v : Quad) (hr : destReg i = none) (hs : destSeg i = none) (ha : dataAccess s i = some a)
      (hk : a.kind = .write) (ht : segWrite s a.seg a.ea a.bytes v = .ok t)
  /-- a segment load -/
  | segment (q : SegReg) (v : BitVec 16) (hr : destReg i = none) (hs : destSeg i = some (.seg q)) (hq : q ≠ .cs)
      (hv : LoadsSelector s i q v) (ht : loadSeg s q v = .ok t)

theorem setDraws_self (s : State) : s.setDraws s.draws = s := rfl

/-- Rows MR and MI. -/
theorem storeRM_completed {i : Instr} {s t : State} {h : Head} {imm : Nat} {sz : Size} {rex : Bool} {d : RM} {v : Quad}
    (hx : storeRM s h (modrmLength h d imm) sz rex d v = .ok t)
    (ha : dataAccess s i = rmAccess s h imm sz.bytes .write d) (hs : destSeg i = none)
    (hr : destReg i = if sz = .byte ∧ rex = false then (rmReg d).map fun n => (byteReg n false).1 else rmReg d) :
    Completed i s t := by
  obtain ⟨-, hw⟩ := (storeRM_eq_ok ..).mp hx
  cases d with
  | reg n =>
    have hw' : regWrite s n sz rex v = t := by simpa [place, writePlace] using hw
    have hn : ∀ a, dataAccess s i = some a → a.kind ≠ .write := by rw [ha]; intro a h; cases h
    cases sz with
    | byte =>
      obtain ⟨w, hh⟩ := regWrite_home s n rex v
      exact .register (byteReg n rex).1 w s.draws (by rw [hr]; cases rex <;> rfl) hs hn (by rw [← hw', hh]; rfl)
    | word => exact .register n _ s.draws hr hs hn (by rw [← hw', regWrite_word]; rfl)
    | dword => exact .register n _ s.draws hr hs hn (by rw [← hw', regWrite_dword]; rfl)
    | qword => exact .register n _ s.draws hr hs hn (by rw [← hw', regWrite_qword]; rfl)
  | mem m => exact .store _ v (by rw [hr]; split <;> rfl) hs (ha.trans rfl) rfl hw

/-- Rows RM and FD: a register written after a read. -/
theorem regWrite_completed {i : Instr} {s t : State} {n : RegNum} {sz : Size} {rex : Bool} {v : Quad}
    (ht : t = regWrite s n sz rex v) (ha : ∀ a, dataAccess s i = some a → a.kind ≠ .write) (hs : destSeg i = none)
    (hr : destReg i = if sz = .byte then some (byteReg n rex).1 else some n) : Completed i s t := by
  cases sz with
  | byte =>
    obtain ⟨w, hh⟩ := regWrite_home s n rex v
    exact .register (byteReg n rex).1 w s.draws hr hs ha (by rw [ht, hh]; rfl)
  | word => exact .register n _ s.draws hr hs ha (by rw [ht, regWrite_word]; rfl)
  | dword => exact .register n _ s.draws hr hs ha (by rw [ht, regWrite_dword]; rfl)
  | qword => exact .register n _ s.draws hr hs ha (by rw [ht, regWrite_qword]; rfl)

theorem rmAccess_read {s : State} {h : Head} {imm n : Nat} {d : RM} (a : DataAccess)
    (ha : rmAccess s h imm n .read d = some a) : a.kind ≠ .write := by
  cases d with
  | reg _ => cases ha
  | mem _ => cases ha; exact fun h => by cases h

theorem offAccess_read {s : State} {h : Head} {n : Nat} {o : Moffs} (a : DataAccess)
    (ha : offAccess s h n .read o = some a) : a.kind ≠ .write := by
  cases ha; exact fun h => by cases h

/-- A source of a segment load that can be read. -/
theorem sourceIs_of_read {s : State} {h : Head} {len n : Nat} {m : MemOp} {v : Quad}
    (hv : segRead s (memPlace s h len m).1 (memPlace s h len m).2 n = .ok v) : SourceIs s h len n (.mem m) v := by
  rw [segRead_eq_path, bind_eq_ok] at hv
  obtain ⟨pas, hp, hv⟩ := hv
  obtain ⟨h1, h2, h3⟩ := (accessPath_eq_ok ..).mp hp
  split at hv
  · cases hv
  · rename_i hn
    cases hv
    refine ⟨pas, ⟨h1, h2, h3, fun a ha => ⟨(firstUnpopulated_eq_none s pas).mp hn a ha, fun hw => by cases hw⟩⟩, ?_⟩
    rw [valueAt_eq]

/-- 8C at operand size 16. -/
theorem storeSeg16_completed {i : Instr} {s t : State} {h : Head} {d : RM} {f : SregField}
    (hx : storeSeg16 s h (modrmLength h d 0) d f = .ok t) (ha : dataAccess s i = rmAccess s h 0 2 .write d)
    (hs : destSeg i = none) (hr : destReg i = rmReg d) : Completed i s t := by
  obtain ⟨r, -, hw⟩ := (bind_eq_ok ..).mp hx
  cases d with
  | reg n =>
    cases hw
    exact .register n _ s.draws hr hs (by rw [ha]; intro a h; cases h) (by rw [regWrite_word]; rfl)
  | mem m => exact .store _ _ hr hs ha rfl hw

/-- Every completed instruction has one of the three shapes. -/
theorem exec_cases {i : Instr} {s t : State} (hx : exec i s = .next t) : Completed i s t := by
  cases i
  case movRm8R8 h d r => exact storeRM_completed ((settle_eq_next ..).mp hx) rfl rfl rfl
  case movRm8R8Rex h d r => exact storeRM_completed ((settle_eq_next ..).mp hx) rfl rfl rfl
  case movRm16R16 h d r => exact storeRM_completed ((settle_eq_next ..).mp hx) rfl rfl rfl
  case movRm32R32 h d r => exact storeRM_completed ((settle_eq_next ..).mp hx) rfl rfl rfl
  case movRm64R64 h d r => exact storeRM_completed ((settle_eq_next ..).mp hx) rfl rfl rfl
  case movR8Rm8 h d m =>
    obtain ⟨-, v, -, ht⟩ := (loadRM_eq_ok ..).mp ((settle_eq_next ..).mp hx)
    exact regWrite_completed ht rmAccess_read rfl rfl
  case movR8Rm8Rex h d m =>
    obtain ⟨-, v, -, ht⟩ := (loadRM_eq_ok ..).mp ((settle_eq_next ..).mp hx)
    exact regWrite_completed ht rmAccess_read rfl rfl
  case movR16Rm16 h d m =>
    obtain ⟨-, v, -, ht⟩ := (loadRM_eq_ok ..).mp ((settle_eq_next ..).mp hx)
    exact regWrite_completed ht rmAccess_read rfl rfl
  case movR32Rm32 h d m =>
    obtain ⟨-, v, -, ht⟩ := (loadRM_eq_ok ..).mp ((settle_eq_next ..).mp hx)
    exact regWrite_completed ht rmAccess_read rfl rfl
  case movR64Rm64 h d m =>
    obtain ⟨-, v, -, ht⟩ := (loadRM_eq_ok ..).mp ((settle_eq_next ..).mp hx)
    exact regWrite_completed ht rmAccess_read rfl rfl
  case movRm16Sreg h d f => exact storeSeg16_completed ((settle_eq_next ..).mp hx) rfl rfl rfl
  case movR32M16Sreg h d f =>
    have ho := (settle_eq_next ..).mp hx
    split at ho
    · exact storeSeg16_completed ho rfl rfl rfl
    · obtain ⟨r, hf, hw⟩ := (bind_eq_ok ..).mp ho
      cases d with
      | reg n =>
        cases hw
        refine .register n (replaceBits 0 32 (if s.mode = .long64 then 0 else s.reg n) (upperSel s r).1) (upperSel s r).2 rfl rfl
          (fun a ha => by cases ha) ?_
        rw [regWrite_dword]; rfl
      | mem m => exact .store _ _ rfl rfl rfl rfl hw
  case movR64M16Sreg h d f =>
    obtain ⟨r, hf, hw⟩ := (bind_eq_ok ..).mp ((settle_eq_next ..).mp hx)
    cases d with
    | reg n => cases hw; exact .register n _ s.draws rfl rfl (fun a ha => by cases ha) rfl
    | mem m => exact .store _ _ rfl rfl rfl rfl hw
  case movSregRm16 h f d =>
    obtain ⟨r, hf, hw⟩ := (bind_eq_ok ..).mp ((settle_eq_next ..).mp hx)
    obtain ⟨hl, rfl, hr⟩ := (loadField_eq_ok h f r).mp hf
    obtain ⟨v, hv, ht⟩ := (bind_eq_ok ..).mp hw
    cases d with
    | reg n =>
      cases hv
      refine .segment r _ rfl rfl hr ⟨h, .reg n, s.reg n, hl, ?_, .inl ⟨rfl, rfl⟩⟩ ht
      apply BitVec.eq_of_getLsbD_eq
      intro k hk
      simp only [BitVec.getLsbD_setWidth, hk, decide_true, Bool.true_and]
      rw [getLsbD_regRead s n .word _ (by decide) k hk]
    | mem m => exact .segment r _ rfl rfl hr ⟨h, .mem m, v, hl, rfl, .inl ⟨rfl, sourceIs_of_read hv⟩⟩ ht
  case movSregRm64 h f d =>
    obtain ⟨r, hf, hw⟩ := (bind_eq_ok ..).mp ((settle_eq_next ..).mp hx)
    obtain ⟨hl, rfl, hr⟩ := (loadField_eq_ok h f r).mp hf
    cases d with
    | reg n => exact .segment r _ rfl rfl hr ⟨h, .reg n, s.reg n, hl, rfl, .inr ⟨rfl, rfl⟩⟩ hw
    | mem m =>
      replace hw : (segRead s (memPlace s h (modrmLength h (.mem m) 0) m).1 (memPlace s h (modrmLength h (.mem m) 0) m).2
        (m64Bytes s) >>= fun v => loadSeg s r (v.setWidth 16)) = .ok t := hw
      obtain ⟨v, hv, ht⟩ := (bind_eq_ok ..).mp hw
      rw [m64Bytes_eq] at hv
      exact .segment r _ rfl rfl hr ⟨h, .mem m, v, hl, rfl, .inr ⟨rfl, sourceIs_of_read hv⟩⟩ ht
  case movAlMoffs8 h o =>
    obtain ⟨-, v, -, ht⟩ := (loadMoffs_eq_ok ..).mp ((settle_eq_next ..).mp hx)
    exact regWrite_completed ht offAccess_read rfl rfl
  case movAlMoffs8RexW h o =>
    obtain ⟨-, v, -, ht⟩ := (loadMoffs_eq_ok ..).mp ((settle_eq_next ..).mp hx)
    exact regWrite_completed ht offAccess_read rfl rfl
  case movAxMoffs16 h o =>
    obtain ⟨-, v, -, ht⟩ := (loadMoffs_eq_ok ..).mp ((settle_eq_next ..).mp hx)
    exact regWrite_completed ht offAccess_read rfl rfl
  case movEaxMoffs32 h o =>
    obtain ⟨-, v, -, ht⟩ := (loadMoffs_eq_ok ..).mp ((settle_eq_next ..).mp hx)
    exact regWrite_completed ht offAccess_read rfl rfl
  case movRaxMoffs64 h o =>
    obtain ⟨-, v, -, ht⟩ := (loadMoffs_eq_ok ..).mp ((settle_eq_next ..).mp hx)
    exact regWrite_completed ht offAccess_read rfl rfl
  case movMoffs8Al h o => exact .store _ _ rfl rfl rfl rfl ((storeMoffs_eq_ok ..).mp ((settle_eq_next ..).mp hx)).2
  case movMoffs8AlRexW h o => exact .store _ _ rfl rfl rfl rfl ((storeMoffs_eq_ok ..).mp ((settle_eq_next ..).mp hx)).2
  case movMoffs16Ax h o => exact .store _ _ rfl rfl rfl rfl ((storeMoffs_eq_ok ..).mp ((settle_eq_next ..).mp hx)).2
  case movMoffs32Eax h o => exact .store _ _ rfl rfl rfl rfl ((storeMoffs_eq_ok ..).mp ((settle_eq_next ..).mp hx)).2
  case movMoffs64Rax h o => exact .store _ _ rfl rfl rfl rfl ((storeMoffs_eq_ok ..).mp ((settle_eq_next ..).mp hx)).2
  case movR8Imm8 h d v =>
    exact regWrite_completed ((immReg_eq_ok ..).mp ((settle_eq_next ..).mp hx)).2 (fun a ha => by cases ha) rfl rfl
  case movR8Imm8Rex h d v =>
    exact regWrite_completed ((immReg_eq_ok ..).mp ((settle_eq_next ..).mp hx)).2 (fun a ha => by cases ha) rfl rfl
  case movR16Imm16 h d v =>
    exact regWrite_completed ((immReg_eq_ok ..).mp ((settle_eq_next ..).mp hx)).2 (fun a ha => by cases ha) rfl rfl
  case movR32Imm32 h d v =>
    exact regWrite_completed ((immReg_eq_ok ..).mp ((settle_eq_next ..).mp hx)).2 (fun a ha => by cases ha) rfl rfl
  case movR64Imm64 h d v =>
    exact regWrite_completed ((immReg_eq_ok ..).mp ((settle_eq_next ..).mp hx)).2 (fun a ha => by cases ha) rfl rfl
  case movRm8Imm8 h d v => exact storeRM_completed ((settle_eq_next ..).mp hx) rfl rfl rfl
  case movRm8Imm8Rex h d v => exact storeRM_completed ((settle_eq_next ..).mp hx) rfl rfl rfl
  case movRm16Imm16 h d v => exact storeRM_completed ((settle_eq_next ..).mp hx) rfl rfl rfl
  case movRm32Imm32 h d v => exact storeRM_completed ((settle_eq_next ..).mp hx) rfl rfl rfl
  case movRm64Imm32 h d v => exact storeRM_completed ((settle_eq_next ..).mp hx) rfl rfl rfl

/-! Segment loads. -/

/-- The shapes of a completed load of `q` with the selector `v` (R168, R173, R174). -/
inductive Loaded (s : State) (q : SegReg) (v : BitVec 16) (t : State) : Prop where
  | real (hm : s.mode = .real) (ht : t = loadSegReal s q v)
  | v8086 (hm : s.mode = .v8086) (ht : t = loadSegV8086 s q v)
  | null (hm : isChecked s.mode = true) (hn : selIsNull v = true)
      (hss : q = .ss → s.mode = .long64 ∧ s.cpl ≠ 3 ∧ selRpl v = s.cpl) (ht : t = loadNull s q v)
  | table (hm : isChecked s.mode = true) (hn : selIsNull v = false) (raw : Quad) (u : State)
      (hl : lookup s v = .ok raw)
      (hss : q = .ss → selRpl v = s.cpl ∧ (descOf raw).isWritableData = true ∧ (descOf raw).dpl = s.cpl)
      (hds : q ≠ .ss → ((descOf raw).isData || (descOf raw).isReadableCode) = true
        ∧ (((descOf raw).isData || (descOf raw).isNonconformingCode) = true →
            selRpl v ≤ (descOf raw).dpl ∧ s.cpl ≤ (descOf raw).dpl))
      (hp : (descOf raw).present = true) (hu : markAccessed s v raw = .ok u)
      (ht : t = u.setSeg q ((descOf raw).segment v))

/-- Every completed segment load has one of these shapes. -/
theorem loadSeg_cases {s t : State} {q : SegReg} {v : BitVec 16} (h : loadSeg s q v = .ok t) : Loaded s q v t := by
  have prot : isChecked s.mode = true → loadSegProt s q v = .ok t → Loaded s q v t := by
    intro hm h
    unfold loadSegProt at h
    by_cases hq : q = .ss
    · subst hq
      rw [if_pos rfl] at h
      split at h
      · rename_i hn
        obtain ⟨h1, h2, h3, ht⟩ := (loadNullSS_eq_ok s t v).mp h
        exact .null hm hn (fun _ => ⟨h1, h2, h3⟩) ht
      · rename_i hn
        obtain ⟨raw, u, hl, h1, h2, h3, hp, hu, ht⟩ := (loadSS_eq_ok s t v).mp h
        exact .table hm (by simpa using hn) raw u hl (fun _ => ⟨h1, h2, h3⟩) (fun h => absurd rfl h) hp hu ht
    · rw [if_neg hq] at h
      split at h
      · rename_i hn
        exact .null hm hn (fun h => absurd h hq) (by cases h; rfl)
      · rename_i hn
        obtain ⟨raw, u, hl, h1, h2, hp, hu, ht⟩ := (loadDataSeg_eq_ok s t q v).mp h
        exact .table hm (by simpa using hn) raw u hl (fun h => absurd h hq) (fun _ => ⟨h1, h2⟩) hp hu ht
  unfold loadSeg at h
  cases hm : s.mode with
  | real => rw [hm] at h; exact .real hm (by cases h; rfl)
  | v8086 => rw [hm] at h; exact .v8086 hm (by cases h; rfl)
  | prot => rw [hm] at h; exact prot (by rw [hm]; rfl) h
  | compat => rw [hm] at h; exact prot (by rw [hm]; rfl) h
  | long64 => rw [hm] at h; exact prot (by rw [hm]; rfl) h

end Sys2Proof.Machine
end

