-- ==== Sys2Proof/Laws/PerInstr.lean ====
section
/-! SUPPORT. Families of statements for every instruction, one lemma a constructor (LAWS.json names them): the encoding of an
instruction has exactly the length the step advances the pc by. -/

namespace Sys2Proof.Laws.EncodeLength

open Sys2Proof Sys2Proof.Machine

/-- R27, R90: the bytes of an instruction are as many as its length. -/
def Statement (i : Instr) : Prop := (encode i).length = i.length

theorem legacyBytes_length (h : Head) :
    h.legacyBytes.length = h.lock.toNat + h.seg.isSome.toNat + h.p66.toNat + h.p67.toNat := by
  obtain ⟨l, s, a, b, r⟩ := h
  cases l <;> cases s <;> cases a <;> cases b <;> rfl

theorem head_length (h : Head) (x : Rex) (op : Byte) : (h.encode x op).length = h.length + 1 := by
  unfold Head.encode Head.length
  simp only [List.length_append, legacyBytes_length, List.length_singleton]
  cases h.rex <;> rfl

theorem disp16_length (d : Disp16) : d.encode.length = d.length := by cases d <;> rfl

theorem disp32_length (d : Disp32) : d.encode.length = d.length := by cases d <;> rfl

theorem rm_length (r : BitVec 3) (d : RM) : (d.encode r).length = d.length := by
  cases d with
  | reg n => rfl
  | mem m =>
    cases m <;>
      simp only [RM.encode, RM.length, MemOp.length, List.length_cons, disp16_length, disp32_length, bytesLE_length] <;>
      omega

theorem moffs_length (o : Moffs) : o.encode.length = o.length := by cases o <;> rfl

theorem rmReg_length (h : Head) (w : Bool) (op : Byte) (d : RM) (r : RegNum) :
    (encodeRmReg h w op d r).length = modrmLength h d 0 := by
  simp only [encodeRmReg, List.length_append, head_length, rm_length, modrmLength]; omega

theorem rmField_length (h : Head) (w : Bool) (op : Byte) (d : RM) (f : BitVec 3) :
    (encodeRmField h w op d f).length = modrmLength h d 0 := by
  simp only [encodeRmField, List.length_append, head_length, rm_length, modrmLength]; omega

theorem rmImm_length (h : Head) (w : Bool) (op : Byte) (d : RM) (n : Nat) (v : Quad) :
    (encodeRmField h w op d 0 ++ bytesLE n v).length = modrmLength h d n := by
  simp only [List.length_append, rmField_length, bytesLE_length, modrmLength]; omega

theorem encodeMoffs_length (h : Head) (w : Bool) (op : Byte) (o : Moffs) :
    (encodeMoffs h w op o).length = h.length + 1 + o.length := by
  simp only [encodeMoffs, List.length_append, head_length, moffs_length]

theorem opReg_length (h : Head) (w : Bool) (five : BitVec 5) (r : RegNum) (n : Nat) (v : Quad) :
    (encodeOpReg h w five r (bytesLE n v)).length = h.length + 1 + n := by
  simp only [encodeOpReg, List.length_append, head_length, bytesLE_length]

theorem movRm8R8 (h : Head) (dst : RM) (src : RegNum) : Statement (.movRm8R8 h dst src) := rmReg_length ..

theorem movRm8R8Rex (h : Head) (dst : RM) (src : RegNum) : Statement (.movRm8R8Rex h dst src) := rmReg_length ..

theorem movRm16R16 (h : Head) (dst : RM) (src : RegNum) : Statement (.movRm16R16 h dst src) := rmReg_length ..

theorem movRm32R32 (h : Head) (dst : RM) (src : RegNum) : Statement (.movRm32R32 h dst src) := rmReg_length ..

theorem movRm64R64 (h : Head) (dst : RM) (src : RegNum) : Statement (.movRm64R64 h dst src) := rmReg_length ..

theorem movR8Rm8 (h : Head) (dst : RegNum) (src : RM) : Statement (.movR8Rm8 h dst src) := rmReg_length ..

theorem movR8Rm8Rex (h : Head) (dst : RegNum) (src : RM) : Statement (.movR8Rm8Rex h dst src) := rmReg_length ..

theorem movR16Rm16 (h : Head) (dst : RegNum) (src : RM) : Statement (.movR16Rm16 h dst src) := rmReg_length ..

theorem movR32Rm32 (h : Head) (dst : RegNum) (src : RM) : Statement (.movR32Rm32 h dst src) := rmReg_length ..

theorem movR64Rm64 (h : Head) (dst : RegNum) (src : RM) : Statement (.movR64Rm64 h dst src) := rmReg_length ..

theorem movRm16Sreg (h : Head) (dst : RM) (src : SregField) : Statement (.movRm16Sreg h dst src) := rmField_length ..

theorem movR32M16Sreg (h : Head) (dst : RM) (src : SregField) : Statement (.movR32M16Sreg h dst src) := rmField_length ..

theorem movR64M16Sreg (h : Head) (dst : RM) (src : SregField) : Statement (.movR64M16Sreg h dst src) := rmField_length ..

theorem movSregRm16 (h : Head) (dst : SregField) (src : RM) : Statement (.movSregRm16 h dst src) := rmField_length ..

theorem movSregRm64 (h : Head) (dst : SregField) (src : RM) : Statement (.movSregRm64 h dst src) := rmField_length ..

theorem movAlMoffs8 (h : Head) (src : Moffs) : Statement (.movAlMoffs8 h src) := encodeMoffs_length ..

theorem movAlMoffs8RexW (h : Head) (src : Moffs) : Statement (.movAlMoffs8RexW h src) := encodeMoffs_length ..

theorem movAxMoffs16 (h : Head) (src : Moffs) : Statement (.movAxMoffs16 h src) := encodeMoffs_length ..

theorem movEaxMoffs32 (h : Head) (src : Moffs) : Statement (.movEaxMoffs32 h src) := encodeMoffs_length ..

theorem movRaxMoffs64 (h : Head) (src : Moffs) : Statement (.movRaxMoffs64 h src) := encodeMoffs_length ..

theorem movMoffs8Al (h : Head) (dst : Moffs) : Statement (.movMoffs8Al h dst) := encodeMoffs_length ..

theorem movMoffs8AlRexW (h : Head) (dst : Moffs) : Statement (.movMoffs8AlRexW h dst) := encodeMoffs_length ..

theorem movMoffs16Ax (h : Head) (dst : Moffs) : Statement (.movMoffs16Ax h dst) := encodeMoffs_length ..

theorem movMoffs32Eax (h : Head) (dst : Moffs) : Statement (.movMoffs32Eax h dst) := encodeMoffs_length ..

theorem movMoffs64Rax (h : Head) (dst : Moffs) : Statement (.movMoffs64Rax h dst) := encodeMoffs_length ..

theorem movR8Imm8 (h : Head) (dst : RegNum) (imm : BitVec 8) : Statement (.movR8Imm8 h dst imm) := opReg_length ..

theorem movR8Imm8Rex (h : Head) (dst : RegNum) (imm : BitVec 8) : Statement (.movR8Imm8Rex h dst imm) := opReg_length ..

theorem movR16Imm16 (h : Head) (dst : RegNum) (imm : BitVec 16) : Statement (.movR16Imm16 h dst imm) := opReg_length ..

theorem movR32Imm32 (h : Head) (dst : RegNum) (imm : BitVec 32) : Statement (.movR32Imm32 h dst imm) := opReg_length ..

theorem movR64Imm64 (h : Head) (dst : RegNum) (imm : BitVec 64) : Statement (.movR64Imm64 h dst imm) := opReg_length ..

theorem movRm8Imm8 (h : Head) (dst : RM) (imm : BitVec 8) : Statement (.movRm8Imm8 h dst imm) := rmImm_length ..

theorem movRm8Imm8Rex (h : Head) (dst : RM) (imm : BitVec 8) : Statement (.movRm8Imm8Rex h dst imm) := rmImm_length ..

theorem movRm16Imm16 (h : Head) (dst : RM) (imm : BitVec 16) : Statement (.movRm16Imm16 h dst imm) := rmImm_length ..

theorem movRm32Imm32 (h : Head) (dst : RM) (imm : BitVec 32) : Statement (.movRm32Imm32 h dst imm) := rmImm_length ..

theorem movRm64Imm32 (h : Head) (dst : RM) (imm : BitVec 32) : Statement (.movRm64Imm32 h dst imm) := rmImm_length ..

end Sys2Proof.Laws.EncodeLength
end

