-- ==== Sys2Proof/Laws/Segments.lean ====
section
/-! SUPPORT. Selectors, descriptor tables and segment loads (R168 to R175) in the terms of Safety.lean: a row that loads a
selector is LoadSeg of it, and each test of the selector as a number. -/

namespace Sys2Proof.Machine

/-- A row that loads a selector does what LoadSeg does with it (R167, R169). -/
theorem exec_load {s : State} {i : Instr} {q : SegReg} {sel : BitVec 16} (hq : q ≠ .cs) (h : LoadsSelector s i q sel) :
    exec i s = settle s (loadSeg s q sel) := by
  obtain ⟨h, src, v, hl, rfl, hi⟩ := h
  have hf : loadField h (.seg q) = .ok q := (loadField_eq_ok ..).mpr ⟨hl, rfl, hq⟩
  rcases hi with ⟨rfl, hs⟩ | ⟨rfl, hs⟩
  · show settle s (loadSeg16 ..) = _
    unfold loadSeg16
    rw [hf]
    cases src with
    | reg k =>
      simp only [SourceIs] at hs; subst hs
      show settle s (loadSeg s q ((regRead s k .word h.rex).setWidth 16)) = _
      congr 2
      apply BitVec.eq_of_getLsbD_eq
      intro i hi
      simp only [BitVec.getLsbD_setWidth, getLsbD_regRead s k .word h.rex (by decide) i (by simpa [Size.bytes] using hi)]
    | mem m =>
      obtain ⟨pas, ha, rfl⟩ := hs
      show settle s (readPlace s .word h.rex (place s h _ (.mem m)) >>= fun v => loadSeg s q (v.setWidth 16)) = _
      have : readPlace s .word h.rex (place s h (modrmLength h (.mem m) 0) (.mem m)) = .ok (valueAt s pas) := segRead_of_allowed ha
      rw [this]; rfl
  · show settle s (loadSeg64 ..) = _
    unfold loadSeg64
    rw [hf]
    cases src with
    | reg k => simp only [SourceIs] at hs; subst hs; rfl
    | mem m =>
      obtain ⟨pas, ha, rfl⟩ := hs
      have hm : m64Bytes s = m64Width s := by unfold m64Bytes m64Width; cases s.params.sregLoadM64Width <;> rfl
      have hr := segRead_of_allowed ha
      rw [← hm] at hr
      show settle s (segRead s _ _ (m64Bytes s) >>= fun v => loadSeg s q (v.setWidth 16)) = _
      have e : segRead s (effSeg s.mode h.seg (defaultSeg m)) (effAddr s (addressSize s.ctx h.p67) (modrmLength h (.mem m) 0) m) (m64Bytes s) = .ok (valueAt s pas) := hr
      rw [e]; rfl

/-- In the loadSeg_checked modes LoadSeg is its loadSeg_checked form (R168). -/
theorem loadSeg_checked {s : State} (h : isChecked s.mode = true) (q : SegReg) (sel : BitVec 16) : loadSeg s q sel = loadSegProt s q sel := by
  unfold loadSeg
  cases hm : s.mode <;> rw [hm] at h <;> first | rfl | exact absurd h (by decide)

/-- NULL selectors are 0 to 3 (R33). -/
theorem selIsNull_iff (sel : BitVec 16) : selIsNull sel = true ↔ sel.toNat ≤ 3 := by
  simp only [selIsNull, decide_eq_true_eq, ← BitVec.toNat_inj, BitVec.extractLsb'_toNat, Nat.shiftRight_eq_div_pow]
  have := sel.isLt
  simp; omega

/-- The RPL as a number. -/
theorem selRpl_toNat (sel : BitVec 16) : (selRpl sel).toNat = sel.toNat % 4 := by
  simp [selRpl, BitVec.extractLsb'_toNat]

/-- The offset of an entry (R171). -/
theorem selOffset_eq (sel : BitVec 16) : selOffset sel = sel.toNat / 8 * 8 := by
  have := sel.isLt
  simp [selOffset, BitVec.extractLsb'_toNat, Nat.shiftRight_eq_div_pow]
  omega

/-- The address of an entry (R171). -/
theorem descAddr_eq (s : State) (sel : BitVec 16) : descAddr s sel = entryAddr s sel := by
  unfold descAddr entryAddr tableBase selTi
  rw [selOffset_eq]

/-- The table limit check (R171). -/
theorem outsideTable_iff (s : State) (sel : BitVec 16) : outsideTable s sel = true ↔ OutsideTable s sel := by
  unfold outsideTable OutsideTable tableLimit selTi
  rw [selOffset_eq]
  by_cases h : sel.getLsbD 2 = true
  · simp [h]
  · rw [Bool.not_eq_true] at h
    simp only [h]; simp

/-- A descriptor that can be read is what the lookup answers (R170). -/
theorem lookup_of_descriptor {s : State} {sel : BitVec 16} {raw : Quad} (h : DescriptorIs s sel raw) : lookup s sel = .ok raw := by
  obtain ⟨h1, h2, pas, h3, h4, rfl⟩ := h
  rw [lookup_eq_ok, memRead_eq_ok]
  refine ⟨?_, fun hm => ?_, pas, ?_, ?_, (valueAt_eq s pas).symm⟩
  · rw [← outsideTable_iff] at h1; simpa using h1
  · rw [canonicalRange_iff, descAddr_eq]; exact h2 hm
  · rw [translateAll_eq_ok, descAddr_eq]; exact h3
  · rw [firstUnpopulated_eq_none]; exact fun a ha => (h4 a ha).1

/-- The error code of a selector (R239). -/
theorem selectorCode_eq (sel : BitVec 16) : selectorCode sel = some (BitVec.ofNat 32 (sel.toNat / 4 * 4)) := by
  unfold selectorCode
  congr 1
  apply BitVec.eq_of_toNat_eq
  have h : (sel &&& 0xFFFC#16).toNat = sel.toNat / 4 * 4 := by
    have : sel &&& 0xFFFC#16 = (sel >>> 2) <<< 2 := by
      apply BitVec.eq_of_getLsbD_eq
      intro i hi
      have : i = 0 ∨ i = 1 ∨ 2 ≤ i := by omega
      rcases this with rfl | rfl | h2
      · simp
      · simp
      · simp only [BitVec.getLsbD_and, BitVec.getLsbD_shiftLeft, BitVec.getLsbD_ushiftRight, show ¬ i < 2 by omega, hi, decide_true, decide_false, Bool.not_false, Bool.true_and, show 2 + (i-2) = i by omega]
        have : (0xFFFC#16).getLsbD i = true := by
          have : ∀ i < 16, 2 ≤ i → (0xFFFC#16).getLsbD i = true := by decide
          exact this i hi h2
        rw [this, Bool.and_true]
    rw [this]
    have := sel.isLt
    simp [Nat.shiftRight_eq_div_pow, Nat.shiftLeft_eq]; omega
  have := sel.isLt
  rw [BitVec.toNat_setWidth, BitVec.toNat_ofNat]
  show (sel &&& 0xFFFC#16).toNat % _ = _
  rw [h]

/-- A linear address is cut to its width once. -/
theorem linearWidth_idem (s : State) (v : Quad) : linearWidth s (linearWidth s v) = linearWidth s v := by
  unfold linearWidth
  split
  · rfl
  · unfold AddrSize.trunc
    simp

/-- The first byte of an access at an address of the right width. -/
theorem byteAddr_zero (s : State) (v : Quad) (k : Nat) : byteAddr s (byteAddr s v k) 0 = byteAddr s v k := by
  unfold byteAddr
  simp [linearWidth_idem]

/-- The accessed bit in the claims' terms (R175). -/
theorem markAccessed_eq (s : State) (sel : BitVec 16) (raw : Quad) :
    markAccessed s sel raw = if raw.getLsbD 40 = true then .ok s
      else memWrite s (accessedAddr s sel) 1 ((raw.extractLsb' 40 8 ||| 1).setWidth 64) false := by
  unfold markAccessed
  rw [descAddr_eq]; rfl

end Sys2Proof.Machine
end

