-- ==== Sys2Proof/Tests/Slice0.lean ====
section
/-! SUPPORT. Tests. Expected values come from spec/95_test_vectors.md (named V1 to V106) and the tables of
spec/30_encoding.md. First the decoder and the well-formedness checks, then single steps, then for every obligation with
hypotheses a concrete state and operands that meet them. -/

namespace Sys2Proof.Tests

open Sys2Proof Sys2Proof.Machine

/-! Contexts, start states (section 2.1 of the vectors) and what a step leaves. -/

def c64 : Ctx := { mode := .long64, csD := .d32 }
def c32 : Ctx := { mode := .prot, csD := .d32 }
def c16 : Ctx := { mode := .real, csD := .d16 }

def e : Head := Head.empty
def rex : Head := { e with rex := true }
def p66 : Head := { e with p66 := true }
def p67 : Head := { e with p67 := true }
def locked : Head := { e with lock := true }

/-- Writable expand-up data, or readable nonconforming code. -/
def segment (code : Bool) (sel : BitVec 16) (base : Quad) (limit : BitVec 32) (dpl : BitVec 2) : Segment :=
  { sel := sel
    base := base
    limit := limit
    attr := { resetDataAttr with code := code, writable := !code, readable := code, dpl := dpl }
    usable := true }

/-- S64. -/
def s64 : State :=
  { State.reset with
    mode := .long64
    csD := .d32
    pc := 0x1000
    sreg :=
      { es := segment false 0x2B 0 0xFFFFFFFF 0
        cs := segment true 0x33 0 0xFFFFFFFF 0
        ss := segment false 0 0 0xFFFFFFFF 0
        ds := segment false 0x2B 0 0xFFFFFFFF 0
        fs := segment false 0 0 0xFFFFFFFF 0
        gs := segment false 0 0 0xFFFFFFFF 0 } }

/-- S32, with DS, ES, SS, FS and GS of this DPL, at this CPL. -/
def s32At (cpl : BitVec 2) : State :=
  { State.reset with
    mode := .prot
    csD := .d32
    pc := 0x1000
    cpl := cpl
    sreg :=
      { es := segment false 0x10 0 0xFFFFFFFF cpl
        cs := segment true 0x08 0 0xFFFFFFFF 0
        ss := segment false 0x10 0 0xFFFFFFFF cpl
        ds := segment false 0x10 0 0xFFFFFFFF cpl
        fs := segment false 0x10 0 0xFFFFFFFF cpl
        gs := segment false 0x10 0 0xFFFFFFFF cpl } }

/-- S32. -/
def s32 : State := s32At 0

/-- S16. -/
def s16 : State :=
  { State.reset with
    pc := 0x100
    sreg :=
      { es := segment false 0x4000 0x40000 0xFFFF 0
        cs := segment true 0 0 0xFFFF 0
        ss := segment false 0x3000 0x30000 0xFFFF 0
        ds := segment false 0x2000 0x20000 0xFFFF 0
        fs := segment false 0 0 0xFFFF 0
        gs := segment false 0 0 0xFFFF 0 } }

/-- Bytes stored from an address on. -/
def poke (s : State) : Nat → List Byte → State
  | _, [] => s
  | a, b :: bs => poke (s.setMem (s.mem.write a b)) (a + 1) bs

/-- GDT: the ten entries of section 2.1. -/
def gdt (s : State) : State :=
  { poke s 0x5008
      ([0xFF, 0xFF, 0x00, 0x00, 0x00, 0x9A, 0xCF, 0x00] ++ [0xFF, 0xFF, 0x00, 0x00, 0x00, 0x93, 0xCF, 0x00]
        ++ [0xFF, 0xFF, 0x00, 0x00, 0x12, 0x92, 0x00, 0x00] ++ [0xFF, 0xFF, 0x00, 0x00, 0x00, 0xF3, 0xCF, 0x00]
        ++ [0xFF, 0xFF, 0x00, 0x00, 0x00, 0x73, 0xCF, 0x00] ++ [0xFF, 0xFF, 0x00, 0x00, 0x00, 0x98, 0xCF, 0x00]
        ++ [0xFF, 0xFF, 0x00, 0x00, 0x00, 0x9E, 0xCF, 0x00] ++ [0x67, 0x00, 0x00, 0x60, 0x00, 0x89, 0x00, 0x00]
        ++ [0xFF, 0xFF, 0x00, 0x00, 0x00, 0x91, 0xCF, 0x00]) with
    gdtr := { base := 0x5000, limit := 0x4F } }

/-- One step with these bytes as the program text at the pc. -/
def run (s : State) (bs : List Byte) : Host.Outcome State Fault Refusal := step (placeBytes s 0 bs)

/-- A part of the next state. -/
def next? {α : Type} (f : State → α) : Host.Outcome State Fault Refusal → Option α
  | .next t => some (f t)
  | .fault _ => none
  | .refused _ => none

/-- The exception raised: which, its error code, its address. -/
def exc? : Host.Outcome State Fault Refusal → Option (ExcKind × Option (BitVec 32) × Option (BitVec 64))
  | .fault (.exception x _) => some (x.kind, x.code, x.addr)
  | .fault (.unpopulated _) => none
  | .fault (.pcOutsideText _) => none
  | .fault .interrupted => none
  | .next _ => none
  | .refused _ => none

/-- The refusal. -/
def refusal? : Host.Outcome State Fault Refusal → Option Refusal
  | .refused r => some r
  | .next _ => none
  | .fault _ => none

/-- Four bytes of memory. -/
def bytes4 (a : Nat) (t : State) : List Byte := [t.mem.read a, t.mem.read (a + 1), t.mem.read (a + 2), t.mem.read (a + 3)]

/-- The instruction that bytes encode, none left over. -/
def dec (c : Ctx) (bs : List Byte) : Option Instr :=
  match decode c bs with
  | .ok (i, []) => some i
  | .ok (_, _ :: _) => none
  | .error _ => none

theorem next_of {o : Host.Outcome State Fault Refusal} (h : (next? id o).isSome = true) : ∃ t, o = .next t := by
  cases o with
  | next t => exact ⟨t, rfl⟩
  | fault f => cases h
  | refused r => cases h

theorem exception_of {o : Host.Outcome State Fault Refusal} (h : (exc? o).isSome = true) :
    ∃ x left, o = .fault (.exception x left) := by
  cases o with
  | next t => cases h
  | fault f =>
    cases f with
    | exception x left => exact ⟨x, left, rfl⟩
    | unpopulated a => cases h
    | pcOutsideText a => cases h
    | interrupted => cases h
  | refused r => cases h

/-! Decoding: one word of every row. -/

theorem test_decode_T1 : dec c64 [0x88, 0xE0] = some (.movRm8R8 e (.reg 0) 4) := by decide

theorem test_decode_T2 : dec c64 [0x40, 0x88, 0xE0] = some (.movRm8R8Rex rex (.reg 0) 4) := by decide

theorem test_decode_T3 : dec c64 [0x66, 0x89, 0xD8] = some (.movRm16R16 p66 (.reg 0) 3) := by decide

theorem test_decode_T4 : dec c64 [0x89, 0x14, 0x85, 0x00, 0x01, 0x00, 0x00] = some (.movRm32R32 e (.mem (.sibAbs 2 (some 0) 0x100)) 2) := by decide

theorem test_decode_T5 : dec c64 [0x4F, 0x89, 0xB4, 0x6C, 0x00, 0x01, 0x00, 0x00] = some (.movRm64R64 rex (.mem (.sib 1 (some 13) 12 (.d32 0x100))) 14) := by decide

theorem test_decode_T6 : dec c64 [0x8A, 0x37] = some (.movR8Rm8 e 6 (.mem (.base 7 .none))) := by decide

theorem test_decode_T7 : dec c64 [0x40, 0x8A, 0x37] = some (.movR8Rm8Rex rex 6 (.mem (.base 7 .none))) := by decide

theorem test_decode_T8 : dec c16 [0x8B, 0x46, 0x02] = some (.movR16Rm16 e 0 (.mem (.sum16 .bp (.d8 2)))) := by decide

theorem test_decode_T9 : dec c64 [0x64, 0x8B, 0x04, 0x25, 0x10, 0x00, 0x00, 0x00] = some (.movR32Rm32 { e with seg := some .fs } 0 (.mem (.sibAbs 0 none 0x10))) := by decide

theorem test_decode_T10 : dec c64 [0x48, 0x8B, 0x44, 0x24, 0x08] = some (.movR64Rm64 rex 0 (.mem (.sib 0 none 4 (.d8 8)))) := by decide

theorem test_decode_T11 : dec c64 [0x66, 0x8C, 0xD8] = some (.movRm16Sreg p66 (.reg 0) (.seg .ds)) := by decide

theorem test_decode_T12 : dec c64 [0x41, 0x8C, 0xC1] = some (.movR32M16Sreg rex (.reg 9) (.seg .es)) := by decide

theorem test_decode_T13 : dec c64 [0x48, 0x8C, 0x18] = some (.movR64M16Sreg rex (.mem (.base 0 .none)) (.seg .ds)) := by decide

theorem test_decode_T14 : dec c64 [0x41, 0x8E, 0xE1] = some (.movSregRm16 rex (.seg .fs) (.reg 9)) := by decide

theorem test_decode_T15 : dec c64 [0x48, 0x8E, 0xD8] = some (.movSregRm64 rex (.seg .ds) (.reg 0)) := by decide

theorem test_decode_T16 : dec c32 [0x26, 0xA0, 0x10, 0x00, 0x00, 0x00] = some (.movAlMoffs8 { e with seg := some .es } (.o32 0x10)) := by decide

theorem test_decode_T17 : dec c64 [0x48, 0xA0, 0x00, 0x20, 0x40, 0x00, 0x00, 0x00, 0x00, 0x00] = some (.movAlMoffs8RexW rex (.o64 0x402000)) := by decide

theorem test_decode_T18 : dec c16 [0xA1, 0x00, 0x20] = some (.movAxMoffs16 e (.o16 0x2000)) := by decide

theorem test_decode_T19 : dec c32 [0x67, 0xA1, 0x00, 0x20] = some (.movEaxMoffs32 p67 (.o16 0x2000)) := by decide

theorem test_decode_T20 : dec c64 [0x64, 0x48, 0xA1, 0x10, 0x00, 0x00, 0x00, 0x00, 0x00, 0x00, 0x00] = some (.movRaxMoffs64 { rex with seg := some .fs } (.o64 0x10)) := by decide

theorem test_decode_T21 : dec c32 [0xA2, 0x00, 0x20, 0x00, 0x00] = some (.movMoffs8Al e (.o32 0x2000)) := by decide

theorem test_decode_T22 : dec c64 [0x48, 0xA2, 0x00, 0x20, 0x40, 0x00, 0x00, 0x00, 0x00, 0x00] = some (.movMoffs8AlRexW rex (.o64 0x402000)) := by decide

theorem test_decode_T23 : dec c16 [0xA3, 0x00, 0x20] = some (.movMoffs16Ax e (.o16 0x2000)) := by decide

theorem test_decode_T24 : dec c32 [0xA3, 0x00, 0x20, 0x40, 0x00] = some (.movMoffs32Eax e (.o32 0x402000)) := by decide

theorem test_decode_T25 : dec c64 [0x48, 0xA3, 0x00, 0x20, 0x40, 0x00, 0x00, 0x00, 0x00, 0x00] = some (.movMoffs64Rax rex (.o64 0x402000)) := by decide

theorem test_decode_T26 : dec c64 [0xB4, 0x7F] = some (.movR8Imm8 e 4 0x7F) := by decide

theorem test_decode_T27 : dec c64 [0x41, 0xB7, 0x01] = some (.movR8Imm8Rex rex 15 1) := by decide

theorem test_decode_T28 : dec c16 [0xBB, 0x34, 0x12] = some (.movR16Imm16 e 3 0x1234) := by decide

theorem test_decode_T29 : dec c64 [0x41, 0xB9, 0xFF, 0xFF, 0xFF, 0xFF] = some (.movR32Imm32 rex 9 0xFFFFFFFF) := by decide

theorem test_decode_T30 : dec c64 [0x49, 0xBF, 0x01, 0x00, 0x00, 0x00, 0x00, 0x00, 0x00, 0x80] = some (.movR64Imm64 rex 15 0x8000000000000001) := by decide

theorem test_decode_T31 : dec c16 [0xC6, 0x06, 0x00, 0x20, 0x7F] = some (.movRm8Imm8 e (.mem (.abs16 0x2000)) 0x7F) := by decide

theorem test_decode_T32 : dec c64 [0x40, 0xC6, 0xC4, 0x01] = some (.movRm8Imm8Rex rex (.reg 4) 1) := by decide

theorem test_decode_T33 : dec c16 [0xC7, 0x07, 0xEF, 0xBE] = some (.movRm16Imm16 e (.mem (.sum16 .bx .none)) 0xBEEF) := by decide

theorem test_decode_T34 : dec c64 [0xC7, 0x05, 0x10, 0x00, 0x00, 0x00, 0x78, 0x56, 0x34, 0x12] = some (.movRm32Imm32 e (.mem (.rip 0x10)) 0x12345678) := by decide

theorem test_decode_T35 : dec c64 [0x48, 0xC7, 0x00, 0x00, 0x00, 0x00, 0x80] = some (.movRm64Imm32 rex (.mem (.base 0 .none)) 0x80000000) := by decide

/-- V10 to V14, V46: sequences that decode to nothing. -/
theorem test_decode_refusals :
    decode c64 [0x48, 0x66, 0x89, 0xD8] = .error .rexNotLast ∧ decode c64 [0x66, 0x66, 0x89, 0xD8] = .error .sameClassTwice
      ∧ decode c64 [0x2E, 0x3E, 0x8B, 0x03] = .error .sameClassTwice ∧ decode c64 [0xF3, 0x88, 0xE0] = .error .repeatPrefix
      ∧ decode c32 [0x48, 0x89, 0xD8] = .error (.notMov 0x48) ∧ decode c64 [0x0F, 0x20, 0xC0] = .error (.notMov 0x0F)
      ∧ decode c64 [0xC6, 0xC8, 0x7F] = .error .groupDigit ∧ decode c64 [0x44, 0x8E, 0xD8] = .error .rexRWithSreg := by decide

/-- V8, V9, V17, V32: REX.W over 66, 66 on a byte form, CS_D = 16, and an address-size prefix. -/
theorem test_decode_attributes :
    dec c64 [0x66, 0x48, 0x89, 0xD8] = some (.movRm64R64 { rex with p66 := true } (.reg 0) 3)
      ∧ dec c64 [0x66, 0x88, 0xE0] = some (.movRm8R8 p66 (.reg 0) 4)
      ∧ dec c16 [0x89, 0xD8] = some (.movRm16R16 e (.reg 0) 3)
      ∧ dec c16 [0x66, 0x89, 0xD8] = some (.movRm32R32 p66 (.reg 0) 3)
      ∧ dec c64 [0x67, 0x8B, 0x03] = some (.movR32Rm32 p67 0 (.mem (.base 3 .none))) := by decide

/-! WellFormed: an ill-formed term for each check. -/

theorem test_illformed_rex_outside_64_bit_mode :
    wellFormed c32 (.movRm8R8Rex rex (.reg 0) 4) = false := by decide

theorem test_illformed_register_above_7_without_rex :
    wellFormed c64 (.movRm32R32 e (.reg 0) 9) = false := by decide

theorem test_illformed_byte_row_without_rex :
    wellFormed c64 (.movRm8R8Rex e (.reg 0) 4) = false := by decide

theorem test_illformed_byte_row_with_rex :
    wellFormed c64 (.movRm8R8 rex (.reg 0) 4) = false := by decide

theorem test_illformed_operand_size :
    wellFormed c64 (.movRm16R16 e (.reg 0) 3) = false := by decide

theorem test_illformed_operand_size_of_an_immediate :
    wellFormed c16 (.movR32Imm32 e 0 1) = false := by decide

theorem test_illformed_rex_w_row_without_rex :
    wellFormed c64 (.movRm64R64 e (.reg 0) 3) = false := by decide

theorem test_illformed_index_4 :
    wellFormed c64 (.movR32Rm32 e 0 (.mem (.sib 0 (some 4) 3 .none))) = false := by decide

theorem test_illformed_base_4_without_sib :
    wellFormed c64 (.movR32Rm32 e 0 (.mem (.base 4 .none))) = false := by decide

theorem test_illformed_base_13_without_displacement :
    wellFormed c64 (.movR32Rm32 rex 0 (.mem (.base 13 .none))) = false := by decide

theorem test_illformed_sib_base_5_without_displacement :
    wellFormed c64 (.movR32Rm32 e 0 (.mem (.sib 0 none 5 .none))) = false := by decide

theorem test_illformed_sib_at_16_bit_addresses :
    wellFormed c16 (.movR16Rm16 e 0 (.mem (.sibAbs 0 none 0))) = false := by decide

theorem test_illformed_base_form_at_16_bit_addresses :
    wellFormed c16 (.movR16Rm16 e 0 (.mem (.base 3 .none))) = false := by decide

theorem test_illformed_bp_without_displacement :
    wellFormed c16 (.movR16Rm16 e 0 (.mem (.sum16 .bp .none))) = false := by decide

theorem test_illformed_sum16_at_32_bit_addresses :
    wellFormed c32 (.movR32Rm32 e 0 (.mem (.sum16 .bx .none))) = false := by decide

theorem test_illformed_abs16_at_32_bit_addresses :
    wellFormed c32 (.movR32Rm32 e 0 (.mem (.abs16 0))) = false := by decide

theorem test_illformed_abs32_in_64_bit_mode :
    wellFormed c64 (.movR32Rm32 e 0 (.mem (.abs32 0))) = false := by decide

theorem test_illformed_rip_outside_64_bit_mode :
    wellFormed c32 (.movR32Rm32 e 0 (.mem (.rip 0))) = false := by decide

theorem test_illformed_offset_of_another_size :
    wellFormed c32 (.movEaxMoffs32 e (.o16 0x2000)) = false := by decide

theorem test_illformed_offset_of_64_bits_in_real_mode :
    wellFormed c16 (.movAlMoffs8 e (.o64 0x2000)) = false := by decide

/-! Single steps. -/

/-- V1, the source is a high byte. -/
theorem test_T1_ah :
    next? (·.reg 0) (run (s64.setReg 0 0x1122334455667788) [0x88, 0xE0])
      = some 0x1122334455667777 := by decide

/-- V15, LOCK on a register form. -/
theorem test_T1_lock :
    exc? (run (s64) [0xF0, 0x88, 0xE0])
      = some (.ud, none, none) := by decide

/-- V2, byte register 4 with REX is SPL. -/
theorem test_T2_spl :
    next? (·.reg 0) (run ((s64.setReg 4 0x20AB).setReg 0 0x1122334455667788) [0x40, 0x88, 0xE0])
      = some 0x11223344556677AB := by decide

/-- V3, a word write keeps bits 63:16. -/
theorem test_T3_merge :
    next? (·.reg 0) (run ((s64.setReg 3 0xAAAAAAAAAAAA1234).setReg 0 0xFFFFFFFFFFFFFFFF) [0x66, 0x89, 0xD8])
      = some 0xFFFFFFFFFFFF1234 := by decide

/-- V40g, a 16-bit address through SS. -/
theorem test_T3_bp_di :
    next? (bytes4 0x30120) (run (((s16.setReg 5 0x100).setReg 7 0x20).setReg 2 0xBEEF) [0x89, 0x13])
      = some [0xEF, 0xBE, 0x00, 0x00] := by decide

/-- V6. -/
theorem test_T4_zero_extends :
    next? (·.reg 0) (run ((s64.setReg 3 0xAAAAAAAA89ABCDEF).setReg 0 0xFFFFFFFFFFFFFFFF) [0x89, 0xD8])
      = some 0x89ABCDEF := by decide

/-- V40c, a store to data that is not writable. -/
theorem test_T4_read_only :
    exc? (run (s32.setSeg .ds { segment false 0x10 0 0xFFFFFFFF 0 with attr := resetCode.attr }) [0x89, 0x03])
      = some (.gp, some 0, none) := by decide

/-- V29, base and index above 7. -/
theorem test_T5_store :
    next? (bytes4 0x4110) (run (((s64.setReg 12 0x4000).setReg 13 8).setReg 14 0x0102030405060708) [0x4F, 0x89, 0xB4, 0x6C, 0x00, 0x01, 0x00, 0x00])
      = some [0x08, 0x07, 0x06, 0x05] := by decide

/-- V40d, BX + SI through DS. -/
theorem test_T6_load :
    next? (·.reg 0) (run (poke ((s16.setReg 3 0x1000).setReg 6 0x234) 0x21239 [0x5A]) [0x8A, 0x40, 0x05])
      = some 0x5A := by decide

/-- V21, the destination is DH. -/
theorem test_T6_high_byte :
    next? (·.reg 2) (run (poke (s64.setReg 7 0x2000) 0x2000 [0x5A]) [0x8A, 0x37])
      = some 0x5A00 := by decide

/-- V21 with REX, the destination is SIL. -/
theorem test_T7_sil :
    next? (·.reg 6) (run (poke (s64.setReg 7 0x2000) 0x2000 [0x5A]) [0x40, 0x8A, 0x37])
      = some 0x5A := by decide

/-- V40e, the effective address wraps at 16 bits. -/
theorem test_T8_wraps :
    next? (·.reg 0) (run (poke (s16.setReg 5 0xFFFF) 0x30001 [0x34, 0x12]) [0x8B, 0x46, 0x02])
      = some 0x1234 := by decide

/-- V40f, the last byte is outside the limit; real mode gives no code. -/
theorem test_T8_limit :
    exc? (run (s16.setReg 3 0xFFFF) [0x8B, 0x07])
      = some (.gp, none, none) := by decide

/-- V23. -/
theorem test_T9_negative_displacement :
    next? (·.reg 1) (run (poke ((s64.setReg 3 0x2000).setReg 6 2) 0x200C [0x44, 0x33, 0x22, 0x11]) [0x8B, 0x4C, 0xF3, 0xFC])
      = some 0x11223344 := by decide

/-- V37. -/
theorem test_T9_alignment :
    exc? (run ({ s64.setReg 3 0x2001 with cpl := 3, acEnabled := true }) [0x8B, 0x03])
      = some (.ac, some 0, none) := by decide

/-- V24. -/
theorem test_T10_stack :
    next? (·.reg 0) (run (poke (s64.setReg 4 0x7FF0) 0x7FF8 [0x88, 0x77, 0x66, 0x55, 0x44, 0x33, 0x22, 0x11]) [0x48, 0x8B, 0x44, 0x24, 0x08])
      = some 0x1122334455667788 := by decide

/-- V36, the last byte is not canonical. -/
theorem test_T10_canonical :
    exc? (run (s64.setReg 3 0x7FFFFFFFFFF9) [0x48, 0x8B, 0x03])
      = some (.gp, some 0, none) := by decide

/-- V42, only bits 15:0 of the register. -/
theorem test_T11_low_word :
    next? (·.reg 0) (run (s64.setReg 0 0xFFFFFFFFFFFFFFFF) [0x66, 0x8C, 0xD8])
      = some 0xFFFFFFFFFFFF002B := by decide

/-- V46 at operand size 16. -/
theorem test_T11_number_6 :
    exc? (run (s64) [0x66, 0x8C, 0xF0])
      = some (.ud, none, none) := by decide

/-- V41. -/
theorem test_T12_zero_extends :
    next? (·.reg 0) (run (s64.setReg 0 0xFFFFFFFFFFFFFFFF) [0x8C, 0xD8])
      = some 0x2B := by decide

/-- V43, always two bytes. -/
theorem test_T12_memory :
    next? (bytes4 0x2000) (run (poke (s64.setReg 0 0x2000) 0x2000 [0xFF, 0xFF, 0xFF, 0xFF]) [0x8C, 0x18])
      = some [0x2B, 0x00, 0xFF, 0xFF] := by decide

/-- V42. -/
theorem test_T13_zero_extends :
    next? (·.reg 0) (run (s64.setReg 0 0xFFFFFFFFFFFFFFFF) [0x48, 0x8C, 0xD8])
      = some 0x2B := by decide

/-- V43, always two bytes. -/
theorem test_T13_memory :
    next? (bytes4 0x2000) (run (poke (s64.setReg 0 0x2000) 0x2000 [0xFF, 0xFF, 0xFF, 0xFF]) [0x48, 0x8C, 0x18])
      = some [0x2B, 0x00, 0xFF, 0xFF] := by decide

/-- V51, the descriptor's parts and the accessed bit. -/
theorem test_T14_accessed :
    next? (fun t => ((t.seg .es).sel, (t.seg .es).base, (t.seg .es).limit, t.mem.read 0x501D)) (run ((gdt s32).setReg 0 0x18) [0x8E, 0xC0])
      = some (0x18, 0x120000, 0xFFFF, 0x93) := by decide

/-- V52, RPL greater than DPL. -/
theorem test_T14_rpl :
    exc? (run ((gdt s32).setReg 0 0x13) [0x8E, 0xD8])
      = some (.gp, some 0x10, none) := by decide

/-- V63. -/
theorem test_T15_register :
    next? (fun t => ((t.seg .ds).sel, (t.seg .ds).limit)) (run ((gdt s64).setReg 0 0xFFFFFFFFFFFF0010) [0x48, 0x8E, 0xD8])
      = some (0x10, 0xFFFFFFFF) := by decide

/-- V45, with a memory operand at no canonical address. -/
theorem test_T15_cs :
    exc? (run (s64.setReg 0 0x800000000000) [0x48, 0x8E, 0x08])
      = some (.ud, none, none) := by decide

/-- V70. -/
theorem test_T16_al :
    next? (·.reg 0) (run (poke (s64.setReg 0 0x1111111111111111) 0x402000 [0x5A]) [0xA0, 0x00, 0x20, 0x40, 0x00, 0x00, 0x00, 0x00, 0x00])
      = some 0x111111111111115A := by decide

/-- V76. -/
theorem test_T17_al :
    next? (·.reg 0) (run (poke (s64.setReg 0 0x1111111111111111) 0x402000 [0x5A]) [0x48, 0xA0, 0x00, 0x20, 0x40, 0x00, 0x00, 0x00, 0x00, 0x00])
      = some 0x111111111111115A := by decide

/-- V80, through the base of DS. -/
theorem test_T18_ax :
    next? (·.reg 0) (run (poke s16 0x22000 [0xEF, 0xBE]) [0xA1, 0x00, 0x20])
      = some 0xBEEF := by decide

/-- V81. -/
theorem test_T18_limit :
    exc? (run (s16) [0xA1, 0xFF, 0xFF])
      = some (.gp, none, none) := by decide

/-- V72. -/
theorem test_T19_eax :
    next? (·.reg 0) (run (poke (s64.setReg 0 0xFFFFFFFFFFFFFFFF) 0x402000 [0x88, 0x77, 0x66, 0x55]) [0x67, 0xA1, 0x00, 0x20, 0x40, 0x00])
      = some 0x55667788 := by decide

/-- V74, the base of FS counts on a REX.W row. -/
theorem test_T20_fs_base :
    next? (·.reg 0) (run (poke (s64.setSeg .fs (segment false 0 0x7000 0xFFFFFFFF 0)) 0x7010 [0x88, 0x77, 0x66, 0x55, 0x44, 0x33, 0x22, 0x11]) [0x64, 0x48, 0xA1, 0x10, 0x00, 0x00, 0x00, 0x00, 0x00, 0x00, 0x00])
      = some 0x1122334455667788 := by decide

/-- V75. -/
theorem test_T20_canonical :
    exc? (run (s64) [0x48, 0xA1, 0x00, 0x00, 0x00, 0x00, 0x00, 0x80, 0x00, 0x00])
      = some (.gp, some 0, none) := by decide

/-- V73. -/
theorem test_T21_al :
    next? (bytes4 0x402000) (run (s64.setReg 0 0x1122334455667788) [0xA2, 0x00, 0x20, 0x40, 0x00, 0x00, 0x00, 0x00, 0x00])
      = some [0x88, 0x00, 0x00, 0x00] := by decide

/-- V83. -/
theorem test_T21_null_fs :
    exc? (run (s32.setSeg .fs { resetData with usable := false }) [0x64, 0xA2, 0x00, 0x00, 0x00, 0x00])
      = some (.gp, some 0, none) := by decide

/-- R196, as V73. -/
theorem test_T22_al :
    next? (bytes4 0x402000) (run (s64.setReg 0 0x1122334455667788) [0x48, 0xA2, 0x00, 0x20, 0x40, 0x00, 0x00, 0x00, 0x00, 0x00])
      = some [0x88, 0x00, 0x00, 0x00] := by decide

/-- V80. -/
theorem test_T23_ax :
    next? (bytes4 0x22000) (run (s16.setReg 0 0x1234) [0xA3, 0x00, 0x20])
      = some [0x34, 0x12, 0x00, 0x00] := by decide

/-- V77. -/
theorem test_T24_eax :
    next? (bytes4 0x402000) (run (s32.setReg 0 0x55667788) [0xA3, 0x00, 0x20, 0x40, 0x00])
      = some [0x88, 0x77, 0x66, 0x55] := by decide

/-- V73, the upper four bytes. -/
theorem test_T25_rax :
    next? (bytes4 0x402004) (run (s64.setReg 0 0x1122334455667788) [0x48, 0xA3, 0x00, 0x20, 0x40, 0x00, 0x00, 0x00, 0x00, 0x00])
      = some [0x44, 0x33, 0x22, 0x11] := by decide

/-- V91. -/
theorem test_T26_ah :
    next? (·.reg 0) (run (s64) [0xB4, 0x7F])
      = some 0x7F00 := by decide

/-- V91. -/
theorem test_T27_spl :
    next? (·.reg 4) (run (s64.setReg 4 0x2000) [0x40, 0xB4, 0x7F])
      = some 0x207F := by decide

/-- V93. -/
theorem test_T28_ax :
    next? (·.reg 0) (run (s64.setReg 0 0xFFFFFFFFFFFFFFFF) [0x66, 0xB8, 0x34, 0x12])
      = some 0xFFFFFFFFFFFF1234 := by decide

/-- V94. -/
theorem test_T29_zero_extends :
    next? (·.reg 9) (run (s64) [0x41, 0xB9, 0xFF, 0xFF, 0xFF, 0xFF])
      = some 0xFFFFFFFF := by decide

/-- V94, the length. -/
theorem test_T29_pc :
    next? (·.pc) (run (s64) [0x41, 0xB9, 0xFF, 0xFF, 0xFF, 0xFF])
      = some 0x1006 := by decide

/-- V96. -/
theorem test_T30_imm64 :
    next? (·.reg 15) (run (s64) [0x49, 0xBF, 0x01, 0x00, 0x00, 0x00, 0x00, 0x00, 0x00, 0x80])
      = some 0x8000000000000001 := by decide

/-- V105. -/
theorem test_T31_disp16 :
    next? (bytes4 0x22000) (run (s16) [0xC6, 0x06, 0x00, 0x20, 0x7F])
      = some [0x7F, 0x00, 0x00, 0x00] := by decide

/-- V101, the byte after the instruction belongs to the program text. -/
theorem test_T31_into_text :
    refusal? (run s64 [0xC6, 0x05, 0x00, 0x00, 0x00, 0x00, 0x11, 0x90])
      = some (.storesIntoText 0x1007) := by decide

/-- V102. -/
theorem test_T32_spl :
    next? (·.reg 4) (run (s64) [0x40, 0xC6, 0xC4, 0x01])
      = some 1 := by decide

/-- V105. -/
theorem test_T33_bx :
    next? (bytes4 0x20010) (run (s16.setReg 3 0x10) [0xC7, 0x07, 0xEF, 0xBE])
      = some [0xEF, 0xBE, 0x00, 0x00] := by decide

/-- V100, the immediate counts in the length. -/
theorem test_T34_rip :
    next? (bytes4 0x101A) (run (s64) [0xC7, 0x05, 0x10, 0x00, 0x00, 0x00, 0x78, 0x56, 0x34, 0x12])
      = some [0x78, 0x56, 0x34, 0x12] := by decide

/-- V106. -/
theorem test_T34_alignment :
    exc? (run ({ (s32At 3).setReg 3 0x2002 with acEnabled := true }) [0xC7, 0x03, 0x78, 0x56, 0x34, 0x12])
      = some (.ac, some 0, none) := by decide

/-- V98, the upper four bytes. -/
theorem test_T35_sign_extends :
    next? (bytes4 0x2004) (run (s64.setReg 0 0x2000) [0x48, 0xC7, 0x00, 0x00, 0x00, 0x00, 0x80])
      = some [0xFF, 0xFF, 0xFF, 0xFF] := by decide

/-- V99. -/
theorem test_T35_register :
    next? (·.reg 0) (run (s64) [0x48, 0xC7, 0xC0, 0xFF, 0xFF, 0xFF, 0x7F])
      = some 0x7FFFFFFF := by decide

/-! The machine around an instruction. -/

/-- P4: after MOV SS a pending event waits for the next instruction, and is delivered after it. -/
theorem test_inhibit :
    next? (fun t => (t.inhibitEvents, t.pc)) (run ((gdt s32).setReg 0 0x10) [0x8E, 0xD0]) = some (true, 0x1002)
      ∧ next? (·.inhibitEvents) (run { s64 with inhibitEvents := true, events := [true] } [0xB0, 0x7F]) = some false
      ∧ next? (·.pc) (run { s64 with events := [true] } [0xB0, 0x7F]) = none := by decide

/-- R132: the opcode byte is the high byte of a sixteen-bit row; the words of 88 E0, B0 7F and A1 run from reset. -/
theorem test_table_words :
    decodeTableWord 16 0x88E0 = some (.movRm8R8 e (.reg 0) 4) ∧ decodeTableWord 8 0xB0 = some (.movR8Imm8 e 0 0)
      ∧ next? (·.pc) (step (State.reset.withFetchWord 16 0x88E0)) = some 0xFFF2
      ∧ next? (·.pc) (step (State.reset.withFetchWord 8 0xA1)) = some 0xFFF3 := by decide

/-- R120, D20: one prefix of each class, LOCK among them, REX.W, SIB, displacement and immediate: sixteen bytes, and #UD. -/
theorem test_lock_in_sixteen_bytes :
    exc? (run s64 [0xF0, 0x65, 0x66, 0x67, 0x48, 0xC7, 0x84, 0x24, 0, 0, 0, 0, 1, 0, 0, 0]) = some (.ud, none, none) := by
  decide

/-! Witnesses: for every obligation with hypotheses, a state and operands that meet all of them together, one for each clause
and at the boundary of its range. -/

/-- The fetched instruction. -/
def fetched (s : State) : Option Instr :=
  match fetchInstr s with
  | .ok i => some i
  | .error _ => none

theorem fetch_of {s : State} {i : Instr} (h : fetched s = some i) : fetchInstr s = .ok i := by
  unfold fetched at h
  split at h
  · rename_i j hj; injection h with h; rw [hj, h]
  · cases h

/-- The longest encodings: 15 bytes, and 16 with LOCK. -/
theorem witness_EncodedInstructionDecodesToItself :
    ∀ lock : Bool, wellFormed c64 (.movRm64Imm32 { lock := lock, seg := some .gs, p66 := true, p67 := true, rex := true }
      (.mem (.sib 3 (some 15) 12 (.d32 0x80000000))) 0xFFFFFFFF) = true := by decide

/-- One without LOCK; the one of sixteen bytes; sixteen bytes that are refused. -/
theorem witness_DecodedInstructionFitsContextAndLength :
    decode c64 [0x41, 0x8B, 0x45, 0x00, 0x90] = .ok (.movR32Rm32 rex 0 (.mem (.base 13 (.d8 0))), [0x90])
      ∧ (dec c64 [0xF0, 0x65, 0x66, 0x67, 0x48, 0xC7, 0x84, 0x24, 0, 0, 0, 0, 1, 0, 0, 0]).map (·.length) = some 16
      ∧ 16 ≤ (List.replicate 16 (0x90 : Byte)).length := by decide

/-- Every class once, in an order of its own. -/
theorem witness_AcceptedFront : AcceptedFront [0x67, 0x2E, 0xF0, 0x66] := by
  unfold AcceptedFront; decide

theorem witness_OptionalRex : OptionalRex .long64 [0x4F] := .inr ⟨rfl, 0x4F, by unfold IsRexByte; decide, rfl⟩

theorem witness_RexRowsExistOnlyIn64BitMode :
    c32.mode ≠ .long64 ∧ decode c32 [0x89, 0xD8] = .ok (.movRm32R32 e (.reg 0) 3, [])
      ∧ AcceptedFront [0x67, 0x2E, 0xF0, 0x66] ∧ IsRexByte 0x40 ∧ IsRexByte 0x4F :=
  ⟨by decide, by decide, witness_AcceptedFront, by unfold IsRexByte; decide, by unfold IsRexByte; decide⟩

/-- The front of all four classes, and for each clause the bytes after it. -/
theorem witness_UncoveredEncodingsAreRefused :
    AcceptedFront [0x67, 0x2E, 0xF0, 0x66] ∧ legacyClass 0x65 ∈ [0x67, 0x2E, 0xF0, 0x66].map legacyClass
      ∧ c64.mode = .long64 ∧ IsRexByte 0x44 ∧ legacyClass 0xF3 ≠ none ∧ OptionalRex .long64 [0x4F] ∧ OptionalRex .real []
      ∧ 5 ≤ ([0, 0, 0, 0, 0] : List Byte).length ∧ (0x08 : Byte).toNat / 8 % 8 ≠ 0 ∧ (0xF8 : Byte).toNat / 8 % 8 ≠ 0
      ∧ (0x44 : Byte).toNat / 4 % 2 = 1 :=
  ⟨witness_AcceptedFront, by decide, rfl, by unfold IsRexByte; decide, by decide, witness_OptionalRex, .inl rfl, by decide,
    by decide, by decide, by decide⟩

/-- 8D lies between two MOV opcodes; 40 is one outside 64-bit mode. -/
theorem witness_OtherOpcodesAreRefused :
    AcceptedFront [0x67, 0x2E, 0xF0, 0x66] ∧ OptionalRex c64.mode [0x4F] ∧ OptionalRex c32.mode []
      ∧ ∀ p ∈ ([(c64, 0x8D), (c32, 0x40), (c32, 0x4F), (c64, 0xC5)] : List (Ctx × Byte)),
        legacyClass p.2 = none ∧ ¬(p.1.mode = .long64 ∧ IsRexByte p.2)
          ∧ p.2.toNat ∉ [0x88, 0x89, 0x8A, 0x8B, 0x8C, 0x8E, 0xA0, 0xA1, 0xA2, 0xA3, 0xC6, 0xC7]
          ∧ ¬(0xB0 ≤ p.2.toNat ∧ p.2.toNat ≤ 0xBF) :=
  ⟨witness_AcceptedFront, witness_OptionalRex, .inl rfl, by unfold IsRexByte; decide⟩

theorem witness_StepRunsTheDecodedInstruction_next :
    (placeBytes s64 0 [0x88, 0xE0]).delivers = false
      ∧ fetchInstr (placeBytes s64 0 [0x88, 0xE0]).passBoundary = .ok (.movRm8R8 e (.reg 0) 4)
      ∧ ∃ t, exec (.movRm8R8 e (.reg 0) 4) (placeBytes s64 0 [0x88, 0xE0]).passBoundary = .next t :=
  ⟨by decide, fetch_of (by decide), next_of (by decide)⟩

theorem witness_StepRunsTheDecodedInstruction_fault :
    (placeBytes s64 0 [0x8E, 0xC8]).delivers = false
      ∧ fetchInstr (placeBytes s64 0 [0x8E, 0xC8]).passBoundary = .ok (.movSregRm16 e (.seg .cs) (.reg 0))
      ∧ ∃ x left, exec (.movSregRm16 e (.seg .cs) (.reg 0)) (placeBytes s64 0 [0x8E, 0xC8]).passBoundary
          = .fault (.exception x left) :=
  ⟨by decide, fetch_of (by decide), exception_of (by decide)⟩

theorem refused_of {o : Host.Outcome State Fault Refusal} {r : Refusal} (h : refusal? o = some r) : o = .refused r := by
  cases o with
  | next t => cases h
  | fault f => cases h
  | refused q => cases h; rfl

theorem witness_StepRunsTheDecodedInstruction_refused :
    (placeBytes s64 0 [0xC6, 0x05, 0, 0, 0, 0, 0x11, 0x90]).delivers = false
      ∧ fetchInstr (placeBytes s64 0 [0xC6, 0x05, 0, 0, 0, 0, 0x11, 0x90]).passBoundary
          = .ok (.movRm8Imm8 e (.mem (.rip 0)) 0x11)
      ∧ exec (.movRm8Imm8 e (.mem (.rip 0)) 0x11) (placeBytes s64 0 [0xC6, 0x05, 0, 0, 0, 0, 0x11, 0x90]).passBoundary
          = .refused (.storesIntoText 0x1007) :=
  ⟨by decide, fetch_of (by decide), refused_of (by decide)⟩

theorem witness_EncodedBytesAreFetched :
    wellFormed (placeBytes s64 0 [0x88, 0xE0]).ctx (.movRm8R8 e (.reg 0) 4) = true
      ∧ CodeAt (placeBytes s64 0 [0x88, 0xE0]) (.movRm8R8 e (.reg 0) 4) := by
  unfold CodeAt; decide

/-- MOV SS without inhibition, another instruction under inhibition, and an exception under inhibition. -/
theorem witness_MovToStackSegmentInhibitsEvents :
    (∃ t, run ((gdt s32).setReg 0 0x10) [0x8E, 0xD0] = .next t) ∧ (gdt s32).inhibitEvents = false
      ∧ fetched (placeBytes (gdt s32) 0 [0x8E, 0xD0]) = some (.movSregRm16 e (.seg .ss) (.reg 0))
      ∧ (∃ t, run { s64 with inhibitEvents := true } [0xB0, 0x7F] = .next t) ∧ destSeg (.movR8Imm8 e 0 0x7F) ≠ some (.seg .ss)
      ∧ (∃ x left, run { s64 with inhibitEvents := true } [0x8E, 0xC8] = .fault (.exception x left)) :=
  ⟨next_of (by decide), rfl, by decide, next_of (by decide), by decide, exception_of (by decide)⟩

/-- In 64-bit mode, with CS_D = 32, and with CS_D = 16 at the end of the offset space, where the pc wraps to 0. -/
theorem witness_CompletedStepAdvancesPc :
    (∃ t, run s64 [0xB0, 0x7F] = .next t) ∧ (∃ t, run s32 [0xB0, 0x7F] = .next t)
      ∧ (∃ t, run { s16 with pc := 0xFFFE } [0xB0, 0x7F] = .next t)
      ∧ next? (·.pc) (run { s16 with pc := 0xFFFE } [0xB0, 0x7F]) = some 0 :=
  ⟨next_of (by decide), next_of (by decide), next_of (by decide), by decide⟩

/-- The paging configuration of V40i: page 3000 faults with code 6. -/
def pageAt3 (s : State) : State :=
  { s with translation := [{ first := 0x3000, last := 0x3FFF, kind := none, user := none, result := .faults 6 }] }

/-- At the first byte: past the offset space; past the CS limit; not canonical; a page fault; outside the text; in the text but
not populated. -/
theorem witness_FetchAndDecodeFailures :
    s64.delivers = false ∧ decode c64 [] = .error .needMore
      ∧ ({ s16 with pc := 0x10000 } : State).delivers = false ∧ s16.mode ≠ .long64 ∧ 2 ^ 16 ≤ (0x10000 : Quad).toNat
      ∧ (s16.seg .cs).limit.toNat < (0x10000 : Quad).toNat
      ∧ canonical .w48 (linear s64 .cs 0x800000000000) = false ∧ canonical .w48 (linear s64 .cs 0x7FFFFFFFFFFF) = true
      ∧ translate (pageAt3 s64) (linear s64 .cs 0x3FFF) .fetch false = .error 6
      ∧ (0xFFFF : Quad).toNat ≤ (s16.seg .cs).limit.toNat ∧ ¬2 ^ 16 ≤ (0xFFFF : Quad).toNat
      ∧ translate s16 (linear s16 .cs 0xFFFF) .fetch false = .ok 0xFFFF ∧ inRegions s16.text 0xFFFF = false
      ∧ inRegions ({ placeBytes s16 0 [0x88] with populated := [] } : State).text 0x100 = true
      ∧ inRegions ({ placeBytes s16 0 [0x88] with populated := [] } : State).populated 0x100 = false := by decide

/-- At a later byte: the first one fetched is not enough to decode, and the second is outside the text; two are enough to
refuse. -/
theorem witness_FetchAndDecodeFailures_later :
    fetchByte (placeBytes s16 0 [0x88]).passBoundary 0 = .ok 0x88 ∧ decode c16 [0x88] = .error .needMore
      ∧ inRegions (placeBytes s16 0 [0x88]).text 0x101 = false
      ∧ decode c16 [0x66, 0x66] = .error .sameClassTwice
      ∧ decode c16 [0x8D] = .error (.notMov 0x8D) ∧ decode c16 [0xF3] = .error .repeatPrefix
      ∧ decode c16 [0xC6, 0xC8] = .error .groupDigit ∧ decode c64 [0x40, 0x66] = .error .rexNotLast
      ∧ decode c64 [0x44, 0x8C, 0xC0] = .error .rexRWithSreg := by decide

theorem witness_ExceptionsArePrecise :
    ∃ x left, exec (.movSregRm16 e (.seg .cs) (.reg 0)) s64 = .fault (.exception x left) := exception_of (by decide)

theorem witness_LockRaisesInvalidOpcode : (Instr.movMoffs8Al locked (.o32 0)).head.lock = true := rfl

theorem witness_LoadingCsRaisesInvalidOpcode : e.lock = false := rfl

theorem witness_SegmentNumbersSixAndSevenRaiseInvalidOpcode :
    (SregField.none7 = .none6 ∨ SregField.none7 = .none7)
      ∧ (Instr.movSregRm64 rex .none7 (.reg 0)) = .movSregRm64 rex .none7 (.reg 0) := by decide

/-- Both kinds of exception of real-address mode; V40f at the boundary FFFE, FFFF. -/
theorem witness_RealModeExceptionList :
    s16.mode = .real ∧ raisesUD (.movSregRm16 e (.seg .cs) (.reg 0)) = true
      ∧ raisesUD (.movR16Rm16 e 0 (.mem (.sum16 .bx .none))) = false
      ∧ dataAccess (s16.setReg 3 0xFFFF) (.movR16Rm16 e 0 (.mem (.sum16 .bx .none))) = some ⟨.ds, 0xFFFF, 2, .read⟩
      ∧ OutsideLimit (s16.seg .ds) 0xFFFF 2 ∧ ¬OutsideLimit (s16.seg .ds) 0xFFFE 2 := by
  simp only [← inLimit_eq_false]
  decide

/-- S16 as virtual-8086 mode with paging and alignment checking. -/
def v86 : State := pageAt3 { s16 with mode := .v8086, cpl := 3, acEnabled := true }

theorem pageFaultAt_of {s : State} {la : Quad} {n : Nat} {kind : Access} {user : Bool} {c : BitVec 32} {a : Quad}
    (h : translateAll s la n kind user = .error (.pf c a)) : PageFaultAt s la n kind user c a := by
  obtain ⟨c', a', h', hp⟩ := (translateAll_eq_error ..).mp h
  cases h'; exact hp

/-- A store of a word through ES, which has base 0 here. -/
def v86Store (si : Quad) : State := (v86.setSeg .es (segment false 0 0 0xFFFF 3)).setReg 6 si

def storeEs : Instr := .movRm16R16 { e with seg := some .es } (.mem (.sum16 .si .none)) 2

theorem witness_Virtual8086ExceptionList :
    v86.mode = .v8086 ∧ raisesUD (.movRm8R8 locked (.reg 0) 0) = true ∧ raisesUD storeEs = false
      ∧ dataAccess (v86Store 0xFFFF) storeEs = some ⟨.es, 0xFFFF, 2, .write⟩
      ∧ OutsideLimit ((v86Store 0xFFFF).seg .es) 0xFFFF 2
      ∧ dataAccess (v86Store 0x2FFF) storeEs = some ⟨.es, 0x2FFF, 2, .write⟩
      ∧ ¬OutsideLimit ((v86Store 0x2FFF).seg .es) 0x2FFF 2
      ∧ Misaligned (v86Store 0x2FFF) (linear (v86Store 0x2FFF) .es 0x2FFF) 2
      ∧ (v86Store 0x2FFF).params.alignBeforePage = true
      ∧ ¬Misaligned (v86Store 0x3000) (linear (v86Store 0x3000) .es 0x3000) 2
      ∧ dataAccess (v86Store 0x3000) storeEs = some ⟨.es, 0x3000, 2, .write⟩
      ∧ ¬OutsideLimit ((v86Store 0x3000).seg .es) 0x3000 2
      ∧ PageFaultAt (v86Store 0x3000) (linear (v86Store 0x3000) .es 0x3000) 2 .write true 6 0x3000 := by
  simp only [← inLimit_eq_false, ← alignFault_iff]
  refine ⟨by decide, by decide, by decide, by decide, by decide, by decide, by decide, by decide, by decide, by decide,
    by decide, by decide, pageFaultAt_of (by decide)⟩

def loadBx : Instr := .movR32Rm32 e 0 (.mem (.base 3 .none))

theorem segAllowed_of {s : State} {r : SegReg} {ea : Quad} {n : Nat} {kind : Access}
    (h : segChecks s r ea n kind = .ok ()) : SegAllowed s r ea n kind := (segChecks_eq_ok ..).mp h

/-- V40a, V40b, V35, V37, V40i: one of each. -/
theorem witness_MemoryOperandExceptionsAreRaised :
    raisesUD loadBx = false
      ∧ dataAccess (s32.setSeg .ds { resetData with usable := false }) loadBx = some ⟨.ds, 0, 4, .read⟩
      ∧ AccessRaises (s32.setSeg .ds { resetData with usable := false }) ⟨.ds, 0, 4, .read⟩ .gp (some 0) none
      ∧ AccessRaises (s32.setSeg .ds (segment false 0x10 0 0xFFF 0)) ⟨.ds, 0xFFD, 4, .read⟩ .gp (some 0) none
      ∧ AccessRaises s64 ⟨.ss, 0x7FFFFFFFFFFD, 4, .read⟩ .ss (some 0) none
      ∧ AccessRaises { s64 with cpl := 3, acEnabled := true } ⟨.ds, 0x2001, 4, .read⟩ .ac (some 0) none
      ∧ AccessRaises { pageAt3 s64 with cpl := 3 } ⟨.ds, 0x2FFE, 4, .write⟩ .pf (some 6) (some 0x3000) := by
  have key : ∀ (s : State) (a : DataAccess) (k : ExcKind) (c : Option (BitVec 32)) (p : Option (BitVec 64)),
      accessPath s a = .error (raiseStop k c p) → AccessRaises s a k c p := by
    intro s a k c p h
    obtain ⟨k', c', p', h', hr⟩ := (accessPath_eq_error ..).mp h
    cases h'; exact hr
  exact ⟨by decide, by decide, key _ _ _ _ _ (by decide), key _ _ _ _ _ (by decide), key _ _ _ _ _ (by decide),
    key _ _ _ _ _ (by decide), key _ _ _ _ _ (by decide)⟩

theorem witness_NoOtherExceptionsOutsideSegmentLoads :
    destSeg loadBx = none ∧ ∃ x left, exec loadBx (s64.setReg 3 0x800000000000) = .fault (.exception x left) :=
  ⟨by decide, exception_of (by decide)⟩

/-- S64 with the bytes up to 2FFF populated and the byte 2000 in the program text. -/
def walled : State := { s64 with populated := [{ first := 0, last := 0x2FFF }], text := [{ first := 0x2000, last := 0x2000 }] }

/-- A store of four bytes at RBX. -/
def storeBx : Instr := .movRm32R32 e (.mem (.base 3 .none)) 0

theorem mapsTo_of {s : State} {la : Quad} {n : Nat} {kind : Access} {user : Bool} {pas : List Nat}
    (h : translateAll s la n kind user = .ok pas) : MapsTo s la n kind user pas := (translateAll_eq_ok ..).mp h

theorem witness_UnpopulatedIsStuckAndTextIsRefused :
    raisesUD storeBx = false
      ∧ dataAccess (walled.setReg 3 0x2FFD) storeBx = some ⟨.ds, 0x2FFD, 4, .write⟩
      ∧ SegAllowed (walled.setReg 3 0x2FFD) .ds 0x2FFD 4 .write
      ∧ ¬Misaligned (walled.setReg 3 0x2FFD) (linear (walled.setReg 3 0x2FFD) .ds 0x2FFD) 4
      ∧ MapsTo (walled.setReg 3 0x2FFD) (linear (walled.setReg 3 0x2FFD) .ds 0x2FFD) 4 .write false [0x2FFD, 0x2FFE, 0x2FFF, 0x3000]
      ∧ inRegions walled.populated 0x3000 = false
      ∧ dataAccess (walled.setReg 3 0x1FFD) storeBx = some ⟨.ds, 0x1FFD, 4, .write⟩
      ∧ SegAllowed (walled.setReg 3 0x1FFD) .ds 0x1FFD 4 .write
      ∧ MapsTo (walled.setReg 3 0x1FFD) (linear (walled.setReg 3 0x1FFD) .ds 0x1FFD) 4 .write false [0x1FFD, 0x1FFE, 0x1FFF, 0x2000]
      ∧ (∀ b ∈ [0x1FFD, 0x1FFE, 0x1FFF, 0x2000], inRegions walled.populated b = true) ∧ inRegions walled.text 0x2000 = true := by
  rw [← alignFault_iff]
  exact ⟨by decide, by decide, segAllowed_of (by decide), by decide, mapsTo_of (by decide), by decide, by decide,
    segAllowed_of (by decide), mapsTo_of (by decide), by decide, by decide⟩

theorem writes_of {s : State} {la v : Quad} {n : Nat} {user : Bool} {pas : List Nat}
    (h : translateAll s la n .write user = .ok pas) (h1 : firstUnpopulated s pas = none) (h2 : firstInText s pas = none) :
    ∃ t, memWrite s la n v user = .ok t := ⟨_, (memWrite_eq_ok ..).mpr ⟨pas, h, h1, h2, rfl⟩⟩

theorem witness_NarrowReadAfterWideWrite :
    8 ≤ 8 ∧ 4 + 4 ≤ 8 ∧ (s64.mode = .real ∨ s64.translation = [])
      ∧ ∃ t, memWrite s64 0x2000 8 0x1122334455667788 false = .ok t := by
  have h : translateAll s64 0x2000 8 .write false
      = .ok [0x2000, 0x2001, 0x2002, 0x2003, 0x2004, 0x2005, 0x2006, 0x2007] := by decide
  exact ⟨by decide, by decide, by decide, writes_of h (by decide) (by decide)⟩

theorem reachable_of {s : State} {pas : List Nat} (h : firstUnpopulated s pas = none) (h' : firstInText s pas = none) :
    Reachable s .write pas := fun a ha =>
  ⟨(firstUnpopulated_eq_none s pas).mp h a ha, fun _ => (firstInText_eq_none s pas).mp h' a ha⟩

theorem witness_WritesAreAllOrNothing :
    PageFaultAt (pageAt3 s64) 0x2FFE 4 .write false 6 0x3000
      ∧ MapsTo s64 0x2FFE 4 .write false [0x2FFE, 0x2FFF, 0x3000, 0x3001]
      ∧ Reachable s64 .write [0x2FFE, 0x2FFF, 0x3000, 0x3001] :=
  ⟨pageFaultAt_of (by decide), mapsTo_of (by decide), reachable_of (by decide) (by decide)⟩

/-- No LOCK prefix: the one hypothesis of ByteMovesBetweenRegisters, WideMovesBetweenRegisters, MovesToTheSameRegister,
ImmediatesIntoOpcodeRegisters and ImmediatesIntoRegisterOperands. -/
theorem witness_ByteMovesBetweenRegisters : e.lock = false ∧ rex.lock = false := by decide
theorem witness_WideMovesBetweenRegisters : p66.lock = false := rfl
theorem witness_MovesToTheSameRegister : rex.lock = false := rfl
theorem witness_ImmediatesIntoOpcodeRegisters : rex.lock = false := rfl
theorem witness_ImmediatesIntoRegisterOperands : e.lock = false := rfl

theorem allowed_of {s : State} {r : SegReg} {ea : Quad} {n : Nat} {kind : Access} {pas : List Nat}
    (h : segChecks s r ea n kind = .ok () ∧ alignCheck s (linear s r ea) n kind = .ok ()
      ∧ translateAll s (linear s r ea) n kind (isUser s) = .ok pas ∧ firstUnpopulated s pas = none
      ∧ (kind = .write → firstInText s pas = none)) : AccessAllowed s r ea n kind pas := (accessAllowed_iff ..).mpr h

/-- V25, and the last addresses below the canonical boundary. -/
theorem witness_RegisterStoresToMemory :
    e.lock = false
      ∧ memPlace ((s64.setReg 3 0x3000).setReg 1 2) e (modrmLength e (.mem (.sib 2 (some 1) 3 (.d8 0x10))) 0)
          (.sib 2 (some 1) 3 (.d8 0x10)) = (.ds, 0x3018)
      ∧ AccessAllowed s64 .ds 0x3018 4 .write [0x3018, 0x3019, 0x301A, 0x301B]
      ∧ AccessAllowed s64 .ds 0x7FFFFFFFFFFF 1 .write [0x7FFFFFFFFFFF]
      ∧ AccessAllowed s64 .ds 0x7FFFFFFFFFFE 2 .write [0x7FFFFFFFFFFE, 0x7FFFFFFFFFFF]
      ∧ AccessAllowed s64 .ds 0xFFFFFFFFFFFFFFFC 4 .write
          [0xFFFFFFFFFFFFFFFC, 0xFFFFFFFFFFFFFFFD, 0xFFFFFFFFFFFFFFFE, 0xFFFFFFFFFFFFFFFF] :=
  ⟨by decide, by decide, allowed_of (by decide), allowed_of (by decide), allowed_of (by decide), allowed_of (by decide)⟩

/-- V36 and the narrower reads at the same boundary. -/
theorem witness_RegisterLoadsFromMemory :
    e.lock = false ∧ memPlace (s64.setReg 3 0x7FFFFFFFFFFF) e 2 (.base 3 .none) = (.ds, 0x7FFFFFFFFFFF)
      ∧ AccessAllowed s64 .ds 0x7FFFFFFFFFFF 1 .read [0x7FFFFFFFFFFF]
      ∧ AccessAllowed s64 .ds 0x7FFFFFFFFFFE 2 .read [0x7FFFFFFFFFFE, 0x7FFFFFFFFFFF]
      ∧ AccessAllowed s64 .ds 0x7FFFFFFFFFFC 4 .read [0x7FFFFFFFFFFC, 0x7FFFFFFFFFFD, 0x7FFFFFFFFFFE, 0x7FFFFFFFFFFF]
      ∧ AccessAllowed s64 .ds 0x7FFFFFFFFFF8 8 .read
          [0x7FFFFFFFFFF8, 0x7FFFFFFFFFF9, 0x7FFFFFFFFFFA, 0x7FFFFFFFFFFB, 0x7FFFFFFFFFFC, 0x7FFFFFFFFFFD, 0x7FFFFFFFFFFE,
            0x7FFFFFFFFFFF] :=
  ⟨by decide, by decide, allowed_of (by decide), allowed_of (by decide), allowed_of (by decide), allowed_of (by decide)⟩

/-- Offsets at the end of a real-mode segment. -/
theorem witness_AccumulatorLoadsFromOffset :
    e.lock = false ∧ offPlace s16 e (.o16 0xFFFE) = (.ds, 0xFFFE) ∧ AccessAllowed s16 .ds 0xFFFE 2 .read [0x2FFFE, 0x2FFFF]
      ∧ AccessAllowed s16 .ds 0xFFFF 1 .read [0x2FFFF]
      ∧ AccessAllowed s16 .ds 0xFFFC 4 .read [0x2FFFC, 0x2FFFD, 0x2FFFE, 0x2FFFF]
      ∧ offPlace s64 e (.o64 0x402000) = (.ds, 0x402000)
      ∧ AccessAllowed s64 .ds 0x402000 8 .read
          [0x402000, 0x402001, 0x402002, 0x402003, 0x402004, 0x402005, 0x402006, 0x402007] :=
  ⟨by decide, by decide, allowed_of (by decide), allowed_of (by decide), allowed_of (by decide), by decide,
    allowed_of (by decide)⟩

theorem witness_AccumulatorStoresToOffset :
    e.lock = false ∧ offPlace s16 e (.o16 0xFFFF) = (.ds, 0xFFFF) ∧ AccessAllowed s16 .ds 0xFFFF 1 .write [0x2FFFF]
      ∧ AccessAllowed s16 .ds 0xFFFE 2 .write [0x2FFFE, 0x2FFFF]
      ∧ AccessAllowed s16 .ds 0xFFFC 4 .write [0x2FFFC, 0x2FFFD, 0x2FFFE, 0x2FFFF]
      ∧ AccessAllowed s64 .ds 0x402000 8 .write
          [0x402000, 0x402001, 0x402002, 0x402003, 0x402004, 0x402005, 0x402006, 0x402007] :=
  ⟨by decide, by decide, allowed_of (by decide), allowed_of (by decide), allowed_of (by decide), allowed_of (by decide)⟩

/-- V100, and V105 at the end of the segment. -/
theorem witness_ImmediatesIntoMemory :
    e.lock = false ∧ memPlace s64 e (modrmLength e (.mem (.rip 0x10)) 4) (.rip 0x10) = (.ds, 0x101A)
      ∧ AccessAllowed s64 .ds 0x101A 4 .write [0x101A, 0x101B, 0x101C, 0x101D]
      ∧ memPlace (s16.setReg 3 0xFFFE) e 4 (.sum16 .bx .none) = (.ds, 0xFFFE)
      ∧ AccessAllowed s16 .ds 0xFFFE 2 .write [0x2FFFE, 0x2FFFF] ∧ AccessAllowed s16 .ds 0xFFFF 1 .write [0x2FFFF]
      ∧ AccessAllowed s64 .ds 0x2000 8 .write [0x2000, 0x2001, 0x2002, 0x2003, 0x2004, 0x2005, 0x2006, 0x2007] :=
  ⟨by decide, by decide, allowed_of (by decide), by decide, allowed_of (by decide), allowed_of (by decide),
    allowed_of (by decide)⟩

/-- The register forms: operand size 32 with either value of SREG_STORE_UPPER, and operand size 16. -/
theorem witness_SelectorIntoRegister :
    e.lock = false ∧ operandSize s64.ctx false e.p66 = .dword ∧ s64.params.sregStoreUpper = .zero
      ∧ ({ s64 with params := { Config.specParams with sregStoreUpper := .undefined } } : State).params.sregStoreUpper
          = .undefined
      ∧ operandSize s64.ctx false p66.p66 = .word := by decide

theorem witness_SelectorIntoMemory :
    e.lock = false ∧ memPlace (s64.setReg 0 0x2000) e (modrmLength e (.mem (.base 0 .none)) 0) (.base 0 .none) = (.ds, 0x2000)
      ∧ AccessAllowed s64 .ds 0x2000 2 .write [0x2000, 0x2001] := ⟨by decide, by decide, allowed_of (by decide)⟩

/-- 8E from AX. -/
def loadAx (q : SegReg) : Instr := .movSregRm16 e (.seg q) (.reg 0)

theorem loads_of {s : State} {q : SegReg} {sel : BitVec 16} (h : sel = (s.reg 0).setWidth 16) :
    LoadsSelector s (loadAx q) q sel := ⟨e, .reg 0, s.reg 0, rfl, h, .inl ⟨rfl, rfl⟩⟩

/-- V65, and from memory: MOV ES, [BX]. -/
theorem witness_RealModeSegmentLoad :
    s16.mode = .real ∧ SegReg.ds ≠ .cs ∧ LoadsSelector (s16.setReg 0 0xFFFF) (loadAx .ds) .ds 0xFFFF
      ∧ LoadsSelector (poke (s16.setReg 3 0x10) 0x20010 [0x00, 0xB8]) (.movSregRm16 e (.seg .es) (.mem (.sum16 .bx .none))) .es
          0xB800 :=
  ⟨rfl, by decide, loads_of (by decide), ⟨e, .mem (.sum16 .bx .none), 0xB800, rfl, by decide,
    .inl ⟨rfl, [0x20010, 0x20011], allowed_of (by decide), by decide⟩⟩⟩

theorem witness_Virtual8086SegmentLoad :
    v86.mode = .v8086 ∧ SegReg.ss ≠ .cs ∧ LoadsSelector (v86.setReg 0 0xFFFF) (loadAx .ss) .ss 0xFFFF :=
  ⟨rfl, by decide, loads_of (by decide)⟩

/-- V47 at both ends of the NULL range, and FS in 64-bit mode. -/
theorem witness_NullSelectorIntoDataSegment :
    isChecked (s32At 3).mode = true ∧ isDataSeg .ds = true ∧ LoadsSelector (s32At 3) (loadAx .ds) .ds 0
      ∧ LoadsSelector ((s32At 3).setReg 0 3) (loadAx .ds) .ds 3 ∧ (3 : BitVec 16).toNat ≤ 3
      ∧ s64.mode = .long64 ∧ isChecked s64.mode = true ∧ isDataSeg .fs = true ∧ LoadsSelector s64 (loadAx .fs) .fs 0 :=
  ⟨rfl, by decide, loads_of (by decide), loads_of (by decide), by decide, rfl, rfl, by decide, loads_of (by decide)⟩

/-- V48 and V49: loaded at CPL 0 and 2; #GP(0) outside 64-bit mode, at CPL 3, and for another RPL. -/
theorem witness_NullSelectorIntoStackSegment :
    isChecked s64.mode = true ∧ LoadsSelector ({ s64 with cpl := 2 }.setReg 0 2) (loadAx .ss) .ss 2
      ∧ (s64.mode = .long64 ∧ (2 : BitVec 2) ≠ 3 ∧ (2 : BitVec 16).toNat = (2 : BitVec 2).toNat)
      ∧ LoadsSelector ({ s64 with cpl := 3 }.setReg 0 3) (loadAx .ss) .ss 3
      ∧ ¬(s64.mode = .long64 ∧ (3 : BitVec 2) ≠ 3 ∧ (3 : BitVec 16).toNat = (3 : BitVec 2).toNat)
      ∧ isChecked s32.mode = true ∧ LoadsSelector s32 (loadAx .ss) .ss 0 ∧ s32.mode ≠ .long64 :=
  ⟨rfl, loads_of (by decide), by decide, loads_of (by decide), by decide, rfl, loads_of (by decide), by decide⟩

theorem descriptor_of {s : State} {sel : BitVec 16} {raw : Quad} {pas : List Nat} (h : outsideTable s sel = false)
    (hc : s.mode ≠ .long64) (hm : translateAll s (entryAddr s sel) 8 .read false = .ok pas)
    (hp : firstUnpopulated s pas = none) (hv : raw = valueAt s pas) : DescriptorIs s sel raw :=
  ⟨fun ho => Bool.noConfusion (h.symm.trans ((outsideTable_iff ..).mpr ho)), fun hl => absurd hl hc, pas, mapsTo_of hm,
    fun a ha => ⟨(firstUnpopulated_eq_none s pas).mp hp a ha, fun hk => Access.noConfusion hk⟩, hv⟩

/-- The physical addresses of entry `n` of GDT. -/
def entry (n : Nat) : List Nat := (List.range 8).map fun k => 0x5000 + 8 * n + k

/-- V55 (RPL, kind), V54 (not present), P4 (accessed), and index 3 (its accessed bit is 0). -/
theorem witness_StackSegmentLoad :
    isChecked (gdt s32).mode = true
      ∧ (LoadsSelector ((gdt s32).setReg 0 0x48) (loadAx .ss) .ss 0x48 ∧ 3 < (0x48 : BitVec 16).toNat
          ∧ DescriptorIs (gdt s32) 0x48 0x00CF91000000FFFF ∧ (descOf 0x00CF91000000FFFF).writable = false)
      ∧ (DescriptorIs (gdt (s32At 3)) 0x2B 0x00CF73000000FFFF ∧ (descOf 0x00CF73000000FFFF).present = false
          ∧ (0x2B : BitVec 16).toNat % 4 = (3 : BitVec 2).toNat ∧ (descOf 0x00CF73000000FFFF).dpl = 3
          ∧ (descOf 0x00CF73000000FFFF).kind = .data ∧ (descOf 0x00CF73000000FFFF).writable = true)
      ∧ (DescriptorIs (gdt s32) 0x10 0x00CF93000000FFFF ∧ (descOf 0x00CF93000000FFFF).present = true
          ∧ (descOf 0x00CF93000000FFFF).dpl = 0 ∧ (0x00CF93000000FFFF : Quad).getLsbD 40 = true)
      ∧ (DescriptorIs (gdt s32) 0x18 0x000092120000FFFF ∧ (0x000092120000FFFF : Quad).getLsbD 40 = false
          ∧ accessByte (gdt s32) 0x18 = some 0x501D ∧ inRegions (gdt s32).populated 0x501D = true
          ∧ inRegions (gdt s32).text 0x501D = false) :=
  ⟨rfl, ⟨loads_of (by decide), by decide, descriptor_of (pas := entry 9) (by decide) (by decide) (by decide) (by decide) (by decide), by decide⟩,
    ⟨descriptor_of (pas := entry 5) (by decide) (by decide) (by decide) (by decide) (by decide), by decide, by decide, by decide, by decide, by decide⟩,
    ⟨descriptor_of (pas := entry 2) (by decide) (by decide) (by decide) (by decide) (by decide), by decide, by decide, by decide⟩,
    ⟨descriptor_of (pas := entry 3) (by decide) (by decide) (by decide) (by decide) (by decide), by decide, by decide, by decide, by decide⟩⟩

/-- The write of the accessed bit faults: the page of the table can be read but not written. -/
def readOnlyTable (s : State) : State :=
  { s with translation := [{ first := 0x5000, last := 0x5FFF, kind := some .write, user := none, result := .faults 3 }] }

/-- V56 (kind), V52 (privilege), V53 (not present), V50 and V57 (loaded), and a table that cannot be written. -/
theorem witness_DataSegmentLoad :
    isChecked (gdt s32).mode = true ∧ isDataSeg .ds = true
      ∧ (LoadsSelector ((gdt s32).setReg 0 0x30) (loadAx .ds) .ds 0x30 ∧ 3 < (0x30 : BitVec 16).toNat
          ∧ DescriptorIs (gdt s32) 0x30 0x00CF98000000FFFF ∧ (descOf 0x00CF98000000FFFF).readable = false
          ∧ (descOf 0x00CF98000000FFFF).kind = .code)
      ∧ (DescriptorIs (gdt s32) 0x13 0x00CF93000000FFFF ∧ (descOf 0x00CF93000000FFFF).kind = .data
          ∧ (descOf 0x00CF93000000FFFF).dpl.toNat < (0x13 : BitVec 16).toNat % 4)
      ∧ (DescriptorIs (gdt s32) 0x28 0x00CF73000000FFFF ∧ (descOf 0x00CF73000000FFFF).present = false)
      ∧ (DescriptorIs (gdt (s32At 3)) 0x3B 0x00CF9E000000FFFF ∧ (descOf 0x00CF9E000000FFFF).conforming = true
          ∧ (descOf 0x00CF9E000000FFFF).readable = true ∧ (descOf 0x00CF9E000000FFFF).present = true
          ∧ accessByte (gdt (s32At 3)) 0x3B = some 0x503D)
      ∧ (DescriptorIs (readOnlyTable (gdt s32)) 0x18 0x000092120000FFFF
          ∧ translate (readOnlyTable (gdt s32)) (accessedAddr (readOnlyTable (gdt s32)) 0x18) .write false = .error 3) :=
  ⟨rfl, by decide,
    ⟨loads_of (by decide), by decide, descriptor_of (pas := entry 6) (by decide) (by decide) (by decide) (by decide) (by decide), by decide, by decide⟩,
    ⟨descriptor_of (pas := entry 2) (by decide) (by decide) (by decide) (by decide) (by decide), by decide, by decide⟩,
    ⟨descriptor_of (pas := entry 5) (by decide) (by decide) (by decide) (by decide) (by decide), by decide⟩,
    ⟨descriptor_of (pas := entry 7) (by decide) (by decide) (by decide) (by decide) (by decide), by decide, by decide, by decide, by decide⟩,
    ⟨descriptor_of (pas := entry 3) (by decide) (by decide) (by decide) (by decide) (by decide), by decide⟩⟩

/-- S64 with its GDT at a non-canonical address (V61). -/
def farTable : State := { s64 with gdtr := { base := 0x800000000000, limit := 0x4F } }

/-- V59 at the limit (0048 lies inside, 0050 outside), V60 (no LDT), V61 (not canonical), and a page fault of the read. -/
theorem witness_DescriptorTableFailures :
    isChecked (gdt s32).mode = true ∧ SegReg.ds ≠ .cs ∧ 3 < (0x50 : BitVec 16).toNat
      ∧ LoadsSelector ((gdt s32).setReg 0 0x50) (loadAx .ds) .ds 0x50 ∧ OutsideTable (gdt s32) 0x50
      ∧ OutsideTable (gdt s32) 0x0F ∧ ¬OutsideTable (gdt s32) 0x48
      ∧ LoadsSelector (farTable.setReg 0 0x10) (loadAx .ds) .ds 0x10 ∧ farTable.mode = .long64
      ∧ ¬CanonicalAccess farTable.params.linAddrWidth (entryAddr farTable 0x10) 8
      ∧ ¬OutsideTable { pageAt3 s32 with gdtr := { base := 0x2FF0, limit := 0x4F } } 0x10
      ∧ PageFaultAt { pageAt3 s32 with gdtr := { base := 0x2FF0, limit := 0x4F } }
          (entryAddr { pageAt3 s32 with gdtr := { base := 0x2FF0, limit := 0x4F } } 0x10) 8 .read false 6 0x3000 := by
  simp only [← outsideTable_iff, ← canonicalRange_iff]
  exact ⟨rfl, by decide, by decide, loads_of (by decide), by decide, by decide, by decide, loads_of (by decide), rfl,
    by decide, by decide, pageFaultAt_of (by decide)⟩

/-- V53: every part of the right side together, and the other side. -/
theorem witness_NotPresentException :
    isChecked ((gdt s32).setReg 0 0x28).mode = true ∧ isDataSeg .ds = true
      ∧ LoadsSelector ((gdt s32).setReg 0 0x28) (loadAx .ds) .ds 0x28 ∧ 3 < (0x28 : BitVec 16).toNat
      ∧ DescriptorIs ((gdt s32).setReg 0 0x28) 0x28 0x00CF73000000FFFF
      ∧ (descOf 0x00CF73000000FFFF).kind = .data ∧ (0x28 : BitVec 16).toNat % 4 ≤ (descOf 0x00CF73000000FFFF).dpl.toNat
      ∧ s32.cpl.toNat ≤ (descOf 0x00CF73000000FFFF).dpl.toNat ∧ (descOf 0x00CF73000000FFFF).present = false
      ∧ exc? (exec (loadAx .ds) ((gdt s32).setReg 0 0x28)) = some (.np, some 0x28, none) :=
  ⟨rfl, by decide, loads_of (by decide), by decide,
    descriptor_of (pas := entry 5) (by decide) (by decide) (by decide) (by decide) (by decide), by decide, by decide,
    by decide, by decide, by decide⟩

theorem witness_GeneralRegistersChangeOnlyAtDestination :
    (∃ t, exec (.movRm8R8 e (.reg 4) 0) s64 = .next t) ∧ destReg (.movRm8R8 e (.reg 4) 0) ≠ some 4
      ∧ destReg (.movRm8R8 e (.reg 4) 0) = some 0 := ⟨next_of (by decide), by decide, by decide⟩

theorem witness_SegmentRegistersChangeOnlyAtDestination :
    (∃ t, exec (loadAx .ds) (s16.setReg 0 0x1234) = .next t) ∧ destSeg (loadAx .ds) ≠ some (.seg .es) :=
  ⟨next_of (by decide), by decide⟩

/-- A store at the last canonical address of the lower half, and a form that stores nothing. -/
theorem witness_MemoryChangesOnlyAtDestination :
    (∃ t, exec storeBx (s64.setReg 3 0x7FFFFFFFFFFC) = .next t) ∧ destSeg storeBx = none
      ∧ dataAccess (s64.setReg 3 0x7FFFFFFFFFFC) storeBx = some ⟨.ds, 0x7FFFFFFFFFFC, 4, .write⟩
      ∧ MapsTo (s64.setReg 3 0x7FFFFFFFFFFC) (linear (s64.setReg 3 0x7FFFFFFFFFFC) .ds 0x7FFFFFFFFFFC) 4 .write false
          [0x7FFFFFFFFFFC, 0x7FFFFFFFFFFD, 0x7FFFFFFFFFFE, 0x7FFFFFFFFFFF]
      ∧ 0x7FFFFFFFFFFB ∉ [0x7FFFFFFFFFFC, 0x7FFFFFFFFFFD, 0x7FFFFFFFFFFE, 0x7FFFFFFFFFFF]
      ∧ (∃ t, exec loadBx s64 = .next t) ∧ dataAccess s64 loadBx = some ⟨.ds, 0, 4, .read⟩ :=
  ⟨next_of (by decide), by decide, by decide, mapsTo_of (by decide), by decide, next_of (by decide), by decide⟩

theorem witness_SegmentLoadChangesOnlyTheAccessedByte :
    LoadsSelector ((gdt s32).setReg 0 0x18) (loadAx .es) .es 0x18
      ∧ (∃ t, exec (loadAx .es) ((gdt s32).setReg 0 0x18) = .next t)
      ∧ accessByte ((gdt s32).setReg 0 0x18) 0x18 ≠ some 0x501C := ⟨loads_of (by decide), next_of (by decide +kernel), by decide⟩

theorem witness_ExecLeavesControlStateAlone : ∃ t, exec storeBx s64 = .next t := next_of (by decide)

theorem witness_StepKeepsModeAndPrivilege : ∃ t, run s64 [0x89, 0x03] = .next t := next_of (by decide)

/-- MOV SS from states where the invariant says something. -/
theorem witness_StepKeepsStackSegmentPrivilege :
    StackInv (placeBytes ((gdt s32).setReg 0 0x10) 0 [0x8E, 0xD0]) ∧ ∃ t, run ((gdt s32).setReg 0 0x10) [0x8E, 0xD0] = .next t := by
  refine ⟨?_, next_of (by decide)⟩
  unfold StackInv
  decide

theorem witness_StepKeepsDataSegmentsAccessible :
    DataSegInv (placeBytes ((gdt s32).setReg 0 0x10) 0 [0x8E, 0xD8]) ∧ ∃ t, run ((gdt s32).setReg 0 0x10) [0x8E, 0xD8] = .next t := by
  refine ⟨?_, next_of (by decide)⟩
  intro _ _ r
  cases r <;> decide

theorem witness_StepKeepsMemoryCanonical :
    (placeBytes (gdt s32) 0 [0x89, 0x03]).mem.wf = true ∧ ∃ t, run (gdt s32) [0x89, 0x03] = .next t :=
  ⟨by decide, next_of (by decide)⟩

/-- Without an override, and with one that 64-bit mode honours and one that it ignores; a base with and one without SIB. -/
theorem witness_SegmentsAndLinearAddresses :
    e.seg = none ∧ (12 : RegNum).val % 8 = 4 ∧ (13 : RegNum).val % 8 = 5 ∧ (5 : RegNum).val % 8 ≠ 4
      ∧ (Disp32.d8 0 ≠ .none) ∧ ({ e with seg := some .fs } : Head).seg = some .fs
      ∧ ({ e with seg := some .ss } : Head).seg = some .ss ∧ s64.mode = .long64 ∧ s16.mode ≠ .long64 := by decide

theorem witness_MoveQuadwordImmediate :
    IsRexByte 0x49 ∧ (0x49 : Byte).toNat / 8 % 2 = 1 ∧ 0xB8 ≤ (0xBF : Byte).toNat ∧ (0xBF : Byte).toNat ≤ 0xBF
      ∧ (List.replicate 8 (0x80 : Byte)).length = 8
      ∧ decode c64 [0x48, 0xB8, 0xEF, 0xCD, 0xAB, 0x89, 0x67, 0x45, 0x23, 0x01] = .ok (.movR64Imm64 rex 0 0x0123456789ABCDEF, [])
      ∧ rex.lock = false ∧ locked.lock = true := by
  unfold IsRexByte; decide

end Sys2Proof.Tests
end

section
/-! PROOF. LOCK raises #UD (spec/30_encoding.md R120). Each operand form makes its check for LOCK before it touches an operand
(R242), so with LOCK it stops with #UD whatever its operands are; every row is one of these forms. -/

namespace Sys2Proof.Machine

/-! The checks that begin the operand forms. -/

theorem noLock_of_lock {h : Head} (hl : h.lock = true) : noLock h = .error .ud := if_pos hl

theorem storeField_of_lock {h : Head} (hl : h.lock = true) (f : SregField) : storeField h f = .error .ud := if_pos hl

theorem loadField_of_lock {h : Head} (hl : h.lock = true) (f : SregField) : loadField h f = .error .ud := by
  rw [loadField, storeField_of_lock hl]; rfl

/-! The operand forms. -/

section
variable (s : State) {h : Head} (len : Nat) (sz : Size) (rex : Bool) (rm : RM) (n : RegNum) (o : Moffs) (v : Quad)
  (f : SregField)

theorem storeRM_of_lock (hl : h.lock = true) : storeRM s h len sz rex rm v = .error .ud := by
  rw [storeRM, noLock_of_lock hl]; rfl

theorem loadRM_of_lock (hl : h.lock = true) : loadRM s h len sz rex n rm = .error .ud := by
  rw [loadRM, noLock_of_lock hl]; rfl

theorem loadMoffs_of_lock (hl : h.lock = true) : loadMoffs s h sz o = .error .ud := by
  rw [loadMoffs, noLock_of_lock hl]; rfl

theorem storeMoffs_of_lock (hl : h.lock = true) : storeMoffs s h sz o = .error .ud := by
  rw [storeMoffs, noLock_of_lock hl]; rfl

theorem immReg_of_lock (hl : h.lock = true) : immReg s h sz rex n v = .error .ud := by
  rw [immReg, noLock_of_lock hl]; rfl

theorem storeSeg16_of_lock (hl : h.lock = true) : storeSeg16 s h len rm f = .error .ud := by
  rw [storeSeg16, storeField_of_lock hl]; rfl

theorem storeSeg32_of_lock (hl : h.lock = true) : storeSeg32 s h len rm f = .error .ud := by
  rw [storeSeg32, storeField_of_lock hl]; rfl

theorem storeSeg64_of_lock (hl : h.lock = true) : storeSeg64 s h len rm f = .error .ud := by
  rw [storeSeg64, storeField_of_lock hl]; rfl

theorem loadSeg16_of_lock (hl : h.lock = true) : loadSeg16 s h len f rm = .error .ud := by
  rw [loadSeg16, loadField_of_lock hl]; rfl

theorem loadSeg64_of_lock (hl : h.lock = true) : loadSeg64 s h len f rm = .error .ud := by
  rw [loadSeg64, loadField_of_lock hl]; rfl

end

/-- An operation that stops with #UD raises it without an error code or an address (R231). -/
theorem settle_of_ud {s : State} {x : Except Stop State} (hx : x = .error .ud) : settle s x = raised s .ud none none := by
  rw [hx]; rfl

/-- Settles O15: the rows by their operand forms, each of which checks LOCK first. -/
theorem lockRaisesInvalidOpcode : Obligations.LockRaisesInvalidOpcode := by
  intro i s hl
  cases i with
  | movRm8R8 | movRm8R8Rex | movRm16R16 | movRm32R32 | movRm64R64
  | movRm8Imm8 | movRm8Imm8Rex | movRm16Imm16 | movRm32Imm32 | movRm64Imm32 =>
    exact settle_of_ud (storeRM_of_lock _ _ _ _ _ _ hl)
  | movR8Rm8 | movR8Rm8Rex | movR16Rm16 | movR32Rm32 | movR64Rm64 =>
    exact settle_of_ud (loadRM_of_lock _ _ _ _ _ _ hl)
  | movAlMoffs8 | movAlMoffs8RexW | movAxMoffs16 | movEaxMoffs32 | movRaxMoffs64 =>
    exact settle_of_ud (loadMoffs_of_lock _ _ _ hl)
  | movMoffs8Al | movMoffs8AlRexW | movMoffs16Ax | movMoffs32Eax | movMoffs64Rax =>
    exact settle_of_ud (storeMoffs_of_lock _ _ _ hl)
  | movR8Imm8 | movR8Imm8Rex | movR16Imm16 | movR32Imm32 | movR64Imm64 =>
    exact settle_of_ud (immReg_of_lock _ _ _ _ _ hl)
  | movRm16Sreg => exact settle_of_ud (storeSeg16_of_lock _ _ _ _ hl)
  | movR32M16Sreg =>
    refine settle_of_ud ?_
    split
    · exact storeSeg16_of_lock _ _ _ _ hl
    · exact storeSeg32_of_lock _ _ _ _ hl
  | movR64M16Sreg => exact settle_of_ud (storeSeg64_of_lock _ _ _ _ hl)
  | movSregRm16 => exact settle_of_ud (loadSeg16_of_lock _ _ _ _ hl)
  | movSregRm64 => exact settle_of_ud (loadSeg64_of_lock _ _ _ _ hl)

end Sys2Proof.Machine
end

section
/-! PROOF. MOV r64, imm64 (spec/43_mov_imm.md R214). Its ten bytes are decoded part by part: no legacy prefix, a REX byte, an
opcode byte, the immediate. No other operand size selects the row, and 64 bits is an operand size of 64-bit mode only (R94). -/

namespace Sys2Proof.Machine

/-! The bytes: what a REX byte, a prefix byte and an opcode byte are as numbers. -/

theorem isRex_iff (b : Byte) : isRex b = true ↔ IsRexByte b := by
  have hb := b.isLt
  have hfour : (b.extractLsb' 4 4).toNat = b.toNat / 16 := by
    rw [BitVec.extractLsb'_toNat, Nat.shiftRight_eq_div_pow]; omega
  simp only [isRex, decide_eq_true_eq, IsRexByte, ← BitVec.toNat_inj, hfour, BitVec.toNat_ofNat]
  omega

/-- REX.W is bit 3 (R95). -/
theorem rexOf_w {b : Byte} (hw : b.toNat / 8 % 2 = 1) : (rexOf b).w = true := by
  simp [rexOf, BitVec.getLsbD, Nat.testBit_eq_decide_div_mod_eq, hw]

/-- REX.B is bit 0 (R95). -/
theorem rexOf_b_toNat (b : Byte) : (rexOf b).b.toNat = b.toNat % 2 := by
  simp only [rexOf, BitVec.getLsbD, Nat.testBit_eq_decide_div_mod_eq, pow_zero, Nat.div_one]
  rcases Nat.mod_two_eq_zero_or_one b.toNat with h | h <;> simp [h]

/-- A register number is its extension bit and its field (R97). -/
theorem regNum_val (ext : Bool) (field : BitVec 3) : (regNum ext field).val = ext.toNat * 8 + field.toNat := by
  revert ext field; decide

/-- The register number in an opcode byte is its low three bits (R98). -/
theorem opcodeField_toNat (op : Byte) : (op.extractLsb' 0 3).toNat = op.toNat % 8 := by
  simp [BitVec.extractLsb'_toNat]

/-- The eleven legacy prefix bytes (R93). -/
theorem legacyOf_eq_none {b : Byte}
    (h : b.toNat ∉ [0x66, 0x67, 0x2E, 0x36, 0x3E, 0x26, 0x64, 0x65, 0xF0, 0xF2, 0xF3]) : legacyOf b = none := by
  simp only [List.mem_cons, List.not_mem_nil, or_false, not_or] at h
  simp [legacyOf, ← BitVec.toNat_inj, h]

theorem legacyOf_of_isRexByte {b : Byte} (h : IsRexByte b) : legacyOf b = none := by
  obtain ⟨hlo, hhi⟩ := h
  apply legacyOf_eq_none
  simp only [List.mem_cons, List.not_mem_nil, or_false]
  omega

/-- B8 to BF are the opcodes of the register in their low three bits (R98). -/
theorem opcodeOf_rImm {op : Byte} (hlo : 0xB8 ≤ op.toNat) (hhi : op.toNat ≤ 0xBF) :
    opcodeOf op = some (.rImm (op.extractLsb' 0 3)) := by
  have hfive : (op.extractLsb' 3 5).toNat = 23 := by
    rw [BitVec.extractLsb'_toNat, Nat.shiftRight_eq_div_pow]; omega
  have hne : ∀ v : Byte, v.toNat < 0xB8 → op ≠ v := fun v hv h => by subst h; omega
  simp [opcodeOf, ← BitVec.toNat_inj, hfive, hne]

/-! The parts of the decoder. -/

/-- Where the first byte is no legacy prefix there is none. -/
theorem decodeLegacy_of_none {b : Byte} (hb : legacyOf b = none) (h : Head) (bs : List Byte) :
    decodeLegacy h (b :: bs) = .ok (h, b :: bs) := by
  simp [decodeLegacy, hb]

/-- A REX byte directly before a byte that is neither a REX byte nor a prefix (R96). -/
theorem decodeRex_of_isRexByte {b op : Byte} (hb : IsRexByte b) (hr : ¬IsRexByte op) (hl : legacyOf op = none)
    (bs : List Byte) : decodeRex .long64 (b :: op :: bs) = .ok (true, rexOf b, op :: bs) := by
  simp [decodeRex, (isRex_iff b).mpr hb, mt (isRex_iff op).mp hr, hl]

/-- Decoding where the first byte is a REX byte and the second an opcode byte. -/
theorem decode_rex_opcode {c : Ctx} {b op : Byte} {o : Opcode} (hm : c.mode = .long64) (hb : IsRexByte b)
    (hr : ¬IsRexByte op) (hl : legacyOf op = none) (ho : opcodeOf op = some o) (bs : List Byte) :
    decode c (b :: op :: bs) = decodeRow c { Head.empty with rex := true } (rexOf b) o bs := by
  simp [decode, decodeLegacy_of_none (legacyOf_of_isRexByte hb), hm, decodeRex_of_isRexByte hb hr hl, ho, Bind.bind,
    Except.bind]

theorem takeLE_append {n : Nat} {bs : List Byte} (hn : bs.length = n) (rest : List Byte) :
    takeLE n (bs ++ rest) = .ok (BitVec.ofNat 64 (littleEndian bs), rest) := by
  subst hn
  simp [takeLE, ofBytesLE_eq]

/-- B8+rd at operand size 64 takes eight immediate bytes (R112, R214). -/
theorem decodeRow_rImm_qword {c : Ctx} {h : Head} {x : Rex} (hs : operandSize c x.w h.p66 = .qword) (n : BitVec 3)
    {imm : List Byte} (hi : imm.length = 8) (rest : List Byte) :
    decodeRow c h x (.rImm n) (imm ++ rest)
      = .ok (.movR64Imm64 h (regNum x.b n) (BitVec.ofNat 64 (littleEndian imm)), rest) := by
  simp [decodeRow, hs, takeLE_append hi, Bind.bind, Except.bind]

/-- REX.W selects 64 bits in 64-bit mode (R94). -/
theorem operandSize_of_w {c : Ctx} (hm : c.mode = .long64) (p66 : Bool) : operandSize c true p66 = .qword := by
  simp [operandSize, hm]

/-- No other mode has the operand size 64 (R94). -/
theorem mode_of_operandSize_qword {c : Ctx} {w p66 : Bool} (h : operandSize c w p66 = .qword) : c.mode = .long64 := by
  unfold operandSize at h
  split at h
  · assumption
  · split at h <;> cases h

/-- A decoding in two parts answers only where the first part does (`bind_eq_ok`, for the errors of the decoder). -/
theorem decode_bind_eq_ok {α β : Type} {x : Except DecodeError α} {f : α → Except DecodeError β} {b : β}
    (h : (x >>= f) = .ok b) : ∃ a, x = .ok a ∧ f a = .ok b := by
  cases x with
  | error e => cases h
  | ok a => exact ⟨a, rfl, h⟩

/-- MOV r64, imm64 is decoded at operand size 64 only: of the other opcodes no row is it, and B8+rd has another row at each
other size. -/
theorem operandSize_of_decodeRow {c : Ctx} {h h' : Head} {x : Rex} {op : Opcode} {bs rest : List Byte} {n : RegNum} {v : Quad}
    (hd : decodeRow c h x op bs = .ok (.movR64Imm64 h' n v, rest)) : operandSize c x.w h.p66 = .qword := by
  cases op with
  | rImm k =>
    simp only [decodeRow] at hd
    split at hd
    · assumption
    all_goals obtain ⟨_, -, hi⟩ := decode_bind_eq_ok hd; cases hi
  | r8Imm | alMoffs | accMoffs | moffsAl | moffsAcc | rm8R8 | r8Rm8 | rmR | rRm =>
    obtain ⟨_, -, hi⟩ := decode_bind_eq_ok hd
    simp only at hi
    split at hi <;> cases hi
  | rmSreg | sregRm =>
    obtain ⟨_, -, hi⟩ := decode_bind_eq_ok hd
    simp only at hi
    split at hi
    · cases hi
    · split at hi <;> cases hi
  | rm8Imm =>
    obtain ⟨_, -, hf⟩ := decode_bind_eq_ok hd
    simp only at hf
    split at hf
    · obtain ⟨_, -, hi⟩ := decode_bind_eq_ok hf
      split at hi <;> cases hi
    · cases hf
  | rmImm =>
    obtain ⟨_, -, hf⟩ := decode_bind_eq_ok hd
    simp only at hf
    split at hf
    · split at hf <;> obtain ⟨_, -, hi⟩ := decode_bind_eq_ok hf <;> cases hi
    · cases hf

/-- What is decoded comes from some opcode's row. -/
theorem decodeRow_of_decode {c : Ctx} {bs rest : List Byte} {i : Instr} (hd : decode c bs = .ok (i, rest)) :
    ∃ h x op bs', decodeRow c h x op bs' = .ok (i, rest) := by
  obtain ⟨⟨h, bs₁⟩, -, hd⟩ := decode_bind_eq_ok hd
  obtain ⟨⟨present, x, bs₂⟩, -, hd⟩ := decode_bind_eq_ok hd
  cases bs₂ with
  | nil => cases hd
  | cons o bs₃ =>
    simp only at hd
    split at hd
    · cases hd
    · exact ⟨_, _, _, _, hd⟩

/-! The parts of R214. -/

/-- Ten bytes of R214: REX with W = 1, B8 to BF, eight immediate bytes. -/
theorem decode_movR64Imm64 {c : Ctx} (hm : c.mode = .long64) {b op : Byte} (hb : IsRexByte b) (hw : b.toNat / 8 % 2 = 1)
    (hlo : 0xB8 ≤ op.toNat) (hhi : op.toNat ≤ 0xBF) {imm : List Byte} (hi : imm.length = 8) (rest : List Byte) :
    decode c (b :: op :: (imm ++ rest))
      = .ok (.movR64Imm64 { Head.empty with rex := true } (regNum (rexOf b).b (op.extractLsb' 0 3))
          (BitVec.ofNat 64 (littleEndian imm)), rest) := by
  have hr : ¬IsRexByte op := fun h => by obtain ⟨-, hle⟩ := h; omega
  have hl : legacyOf op = none := by
    apply legacyOf_eq_none
    simp only [List.mem_cons, List.not_mem_nil, or_false]
    omega
  rw [decode_rex_opcode hm hb hr hl (opcodeOf_rImm hlo hhi),
    decodeRow_rImm_qword (by rw [rexOf_w hw]; exact operandSize_of_w hm _) _ hi]

/-- "64-bit mode only": the operand size 64 is the row's only one. -/
theorem mode_of_decode_movR64Imm64 {c : Ctx} {bs rest : List Byte} {h : Head} {n : RegNum} {v : Quad}
    (hd : decode c bs = .ok (.movR64Imm64 h n v, rest)) : c.mode = .long64 := by
  obtain ⟨_, _, _, _, hrow⟩ := decodeRow_of_decode hd
  exact mode_of_operandSize_qword (operandSize_of_decodeRow hrow)

theorem immediateBytes_eq_eight (i : Instr) : immediateBytes i = 8 ↔ ∃ h n v, i = .movR64Imm64 h n v := by
  constructor
  · intro hi
    cases i with
    | movR64Imm64 h n v => exact ⟨h, n, v, rfl⟩
    | _ => nomatch hi
  · rintro ⟨h, n, v, rfl⟩
    rfl

/-- Without LOCK nothing stops the write of the immediate. -/
theorem exec_movR64Imm64 {h : Head} (hl : h.lock = false) (n : RegNum) (v : Quad) (s : State) :
    exec (.movR64Imm64 h n v) s = .next (s.setReg n v) :=
  (settle_eq_next ..).mpr ((immReg_eq_ok ..).mpr ⟨hl, rfl⟩)

/-- Settles O60: the encoding part by part, the mode by the operand size, the result by the rule for immediates into
registers, and the exception by the rule for LOCK. -/
theorem moveQuadwordImmediate : Obligations.MoveQuadwordImmediate := by
  refine ⟨?_, fun c bs h n v rest => mode_of_decode_movR64Imm64, immediateBytes_eq_eight, fun s h n v => ⟨?_, ?_⟩⟩
  · intro d b op imm rest hb hw hlo hhi hi
    refine ⟨regNum (rexOf b).b (op.extractLsb' 0 3), ?_, decode_movR64Imm64 rfl hb hw hlo hhi hi rest, rfl⟩
    rw [regNum_val, rexOf_b_toNat, opcodeField_toNat]
  · exact fun hl => exec_movR64Imm64 hl n v s
  · exact lockRaisesInvalidOpcode (.movR64Imm64 h n v) s

end Sys2Proof.Machine
end

section
/-! PROOF. Frames over all 35 rows (spec/10_state.md R24, R32, R34 to R40; spec/20_memory.md R51, R54, R72). A completed
instruction writes a register, stores, or loads a segment register (`exec_cases`); each frame is a case analysis over these
three, with one lemma for what a store and one for what a segment load leaves. -/

namespace Sys2Proof.Machine

/-- A store changes memory only (R72). -/
theorem segWrite_setMem {s t : State} {r : SegReg} {ea : Quad} {n : Nat} {v : Quad} (h : segWrite s r ea n v = .ok t) :
    t = s.setMem t.mem := by
  obtain ⟨-, -, hw⟩ := (segWrite_eq_ok ..).mp h
  obtain ⟨_, -, -, -, rfl⟩ := (memWrite_eq_ok ..).mp hw
  rfl

/-- A segment load changes its segment register, memory and the count of free values only. -/
theorem loadSeg_eq {s t : State} {q : SegReg} {v : BitVec 16} (h : loadSeg s q v = .ok t) :
    ∃ m g d, t = ((s.setMem m).setSeg q g).setDraws d := by
  cases loadSeg_cases h with
  | real _ ht => exact ⟨s.mem, _, s.draws, ht⟩
  | v8086 _ ht => exact ⟨s.mem, _, _, ht⟩
  | null _ _ _ ht => exact ⟨s.mem, _, _, ht⟩
  | table _ _ raw u _ _ _ _ hu ht =>
    rw [markAccessed_setMem hu] at ht
    exact ⟨u.mem, _, s.draws, ht⟩

/-- Settles O46: the three shapes of a completed instruction; only the first writes a general register. -/
theorem generalRegistersChangeOnlyAtDestination : Obligations.GeneralRegistersChangeOnlyAtDestination := by
  intro i s t r hx hr
  cases exec_cases hx with
  | register q w d hq _ _ ht =>
    have hne : r ≠ q := fun e => hr (by rw [hq, e])
    rw [ht, State.setDraws_reg, State.reg_setReg_ne _ _ _ _ hne]
  | store a v _ _ _ _ ht => rw [segWrite_setMem ht, State.setMem_reg]
  | segment q v _ _ _ _ ht =>
    obtain ⟨m, g, d, rfl⟩ := loadSeg_eq ht
    rfl

/-- Settles O47: the three shapes of a completed instruction; only the last writes a segment register. -/
theorem segmentRegistersChangeOnlyAtDestination : Obligations.SegmentRegistersChangeOnlyAtDestination := by
  intro i s t r hx hr
  cases exec_cases hx with
  | register q w d _ _ _ ht => rw [ht]; rfl
  | store a v _ _ _ _ ht => rw [segWrite_setMem ht, State.setMem_seg]
  | segment q v _ hs _ _ ht =>
    obtain ⟨m, g, d, rfl⟩ := loadSeg_eq ht
    have hne : r ≠ q := fun e => hr (by rw [hs, e])
    rw [State.setDraws_seg, State.seg_setSeg_ne _ _ _ _ hne, State.setMem_seg]

/-- A store changes no byte outside the addresses its bytes map to (R72). -/
theorem segWrite_read_of_notMem {s t : State} {r : SegReg} {ea : Quad} {n : Nat} {v : Quad} {pas : List Nat}
    (h : segWrite s r ea n v = .ok t) (hp : MapsTo s (linear s r ea) n .write (decide (s.cpl = 3)) pas) {b : Nat}
    (hb : b ∉ pas) : t.mem.read b = s.mem.read b := by
  obtain ⟨-, -, hw⟩ := (segWrite_eq_ok ..).mp h
  obtain ⟨pas', ht, -, -, rfl⟩ := (memWrite_eq_ok ..).mp hw
  obtain rfl : pas = pas' := Except.ok.inj (((translateAll_eq_ok ..).mpr hp).symm.trans ht)
  have hlen : pas.length = n := hp.1
  exact (storesBytes_writeAll s pas n v hlen).2.1 b hb

/-- Settles O48: a register write leaves memory alone, a store is at the operand's addresses. -/
theorem memoryChangesOnlyAtDestination : Obligations.MemoryChangesOnlyAtDestination := by
  intro i s t hx hd
  cases exec_cases hx with
  | register q w d _ _ ha ht =>
    subst ht
    exact ⟨fun a pas he hk => absurd hk (ha a he), fun _ => rfl⟩
  | store a v _ _ ha hk ht =>
    refine ⟨fun a' pas he _ hp b hb => ?_, fun hn => absurd hk (hn a ha)⟩
    obtain rfl : a = a' := Option.some.inj (ha.symm.trans he)
    exact segWrite_read_of_notMem ht hp hb
  | segment q v _ hs _ _ _ => rw [hs] at hd; cases hd

/-- A row that loads a selector names its segment register. -/
theorem destSeg_of_loads {s : State} {i : Instr} {q : SegReg} {sel : BitVec 16} (h : LoadsSelector s i q sel) :
    destSeg i = some (.seg q) := by
  obtain ⟨_, _, _, _, _, ⟨rfl, _⟩ | ⟨rfl, _⟩⟩ := h <;> rfl

/-- A completed load of a selector is LoadSeg, of a register other than CS. -/
theorem loadSeg_of_exec {s t : State} {i : Instr} {q : SegReg} {sel : BitVec 16} (h : LoadsSelector s i q sel)
    (hx : exec i s = .next t) : q ≠ .cs ∧ loadSeg s q sel = .ok t := by
  have hq : q ≠ .cs := by
    cases exec_cases hx with
    | register _ _ _ _ hs | store _ _ _ hs => rw [destSeg_of_loads h] at hs; cases hs
    | segment q' _ _ hs hq' =>
      rw [destSeg_of_loads h] at hs
      cases hs
      exact hq'
  refine ⟨hq, ?_⟩
  rw [exec_load hq h] at hx
  exact (settle_eq_next ..).mp hx

/-- The accessed bit changes no byte but its own (R175). -/
theorem markAccessed_read {s t : State} {sel : BitVec 16} {raw : Quad} (h : markAccessed s sel raw = .ok t) {b : Nat}
    (hb : accessByte s sel ≠ some b) : t.mem.read b = s.mem.read b := by
  rw [markAccessed_eq] at h
  split at h
  · cases h; rfl
  · obtain ⟨pas, hp, -, -, rfl⟩ := (memWrite_eq_ok ..).mp h
    obtain ⟨hlen, hmap⟩ := (translateAll_eq_ok ..).mp hp
    refine (storesBytes_writeAll s pas 1 _ hlen).2.1 b fun hmem => hb ?_
    obtain ⟨p, rfl⟩ := List.length_eq_one_iff.mp hlen
    obtain ⟨pa, ht, hpa⟩ := hmap 0 (by simp)
    rw [accessedAddr, byteAddr_zero, ← accessedAddr] at ht
    obtain rfl := List.mem_singleton.mp hmem
    simp only [accessByte, ht, ← hpa, List.getElem_cons_zero]

/-- Settles O49: of the shapes of a completed load only one writes memory, for the accessed bit. -/
theorem segmentLoadChangesOnlyTheAccessedByte : Obligations.SegmentLoadChangesOnlyTheAccessedByte := by
  intro i s t q sel hl hx b hb
  obtain ⟨-, ht⟩ := loadSeg_of_exec hl hx
  cases loadSeg_cases ht with
  | real _ ht | v8086 _ ht | null _ _ _ ht => rw [ht]; rfl
  | table _ _ raw u _ _ _ _ hu ht =>
    rw [ht, State.setSeg_mem]
    exact markAccessed_read hu hb

/-- A completed instruction changes general registers, segment registers other than CS, memory and draws only. -/
theorem exec_onlyData {i : Instr} {s t : State} (hx : exec i s = .next t) : OnlyData s t := by
  cases exec_cases hx with
  | register r w d _ _ _ ht => rw [ht]; exact (OnlyData.setReg s r w).trans (OnlyData.setDraws _ d)
  | store a v _ _ _ _ ht => exact OnlyData.segWrite ht
  | segment q v _ _ hq _ ht => exact OnlyData.loadSeg hq ht

/-- What changes data only keeps the pc, the events and the control state. -/
theorem OnlyData.control {s t : State} (h : OnlyData s t) :
    t.pc = s.pc ∧ t.inhibitEvents = s.inhibitEvents ∧ t.events = s.events ∧ SameControl s t := by
  obtain ⟨ht, hcs⟩ := h
  refine ⟨?_, ?_, ?_, ?_, ?_, ?_, ?_, ?_, ?_, ?_, hcs, ?_, ?_, ?_, ?_, ?_⟩ <;> rw [ht]

/-- Settles O50: a completed instruction changes data only. -/
theorem execLeavesControlStateAlone : Obligations.ExecLeavesControlStateAlone :=
  fun _ _ _ hx => (exec_onlyData hx).control

/-- Settles O52: the boundary before the instruction and the advance after it touch no control state either. -/
theorem stepKeepsModeAndPrivilege : Obligations.StepKeepsModeAndPrivilege := by
  intro s t hx
  obtain ⟨-, i, u, -, hu, rfl⟩ := (step_eq_next s t).mp hx
  obtain ⟨-, -, -, h⟩ := (exec_onlyData hu).control
  exact h

end Sys2Proof.Machine
end

section
/-! PROOF. The invariants of the whole machine (spec/10_state.md R36, spec/41_mov_sreg.md R168, spec/60_exceptions.md R255). A
step changes what an invariant speaks of only by executing an instruction (`step_eq_next`), and of the completed instructions
only a segment load writes a segment register; its shapes (`loadSeg_cases`) say which tests it has passed. -/

namespace Sys2Proof.Machine

/-- What holds of a state whatever its pc, `inhibit_events`, events and draws, and is kept by every completed instruction, is
kept by every step. -/
theorem step_keeps {P : State → Prop} (hb : ∀ s, P s → P s.passBoundary) (ha : ∀ i u, P u → P (advance i u))
    (hx : ∀ i s u, P s → exec i s = .next u → P u) {s t : State} (hs : P s) (h : step s = .next t) : P t := by
  obtain ⟨-, i, u, -, hu, rfl⟩ := (step_eq_next s t).mp h
  exact ha i u (hx i _ u (hb s hs) hu)

/-- `StackInv` speaks of SS, CPL and the mode only. -/
theorem StackInv.congr {s t : State} (h : StackInv s) (hss : t.seg .ss = s.seg .ss) (hc : t.cpl = s.cpl)
    (hm : t.mode = s.mode) : StackInv t := by
  unfold StackInv at h ⊢
  rwa [hss, hc, hm]

/-- A completed load of SS leaves it with the privilege of the processor, in the form the mode asks for (R168, R173). -/
theorem stackInv_loadSeg {s t : State} {v : BitVec 16} (h : StackInv s) (hl : loadSeg s .ss v = .ok t) : StackInv t := by
  obtain ⟨hdpl, hv, -⟩ := h
  cases loadSeg_cases hl with
  | real hm ht => subst ht; exact ⟨hdpl, hv, fun hp => by simp [loadSegReal, hm, isProt] at hp⟩
  | v8086 hm ht => subst ht; exact ⟨(hv hm).symm, hv, fun hp => by simp [loadSegV8086, hm, isProt] at hp⟩
  | null _ _ hss ht =>
    obtain ⟨hm, -, hr⟩ := hss rfl
    subst ht
    exact ⟨hr, hv, fun hp => by simp [loadNull, hm, isProt] at hp⟩
  | table _ _ raw u _ hss _ hp hu ht =>
    obtain ⟨-, hw, hd⟩ := hss rfl
    simp only [Desc.isWritableData, Bool.and_eq_true, decide_eq_true_eq] at hw
    rw [markAccessed_setMem hu] at ht
    subst ht
    refine ⟨hd, hv, fun _ => ⟨rfl, hp, ?_, hw.2⟩⟩
    show decide ((descOf raw).kind = .code) = false
    rw [hw.1]; rfl

/-- Settles O53: only a load of SS touches what the invariant speaks of. -/
theorem stepKeepsStackSegmentPrivilege : Obligations.StepKeepsStackSegmentPrivilege := by
  intro s t
  refine step_keeps (fun _ h => h) (fun _ _ h => h) fun i s u h hx => ?_
  obtain ⟨-, -, -, -, hm, -, hc, -⟩ := (exec_onlyData hx).control
  by_cases hd : destSeg i = some (.seg .ss)
  · cases exec_cases hx with
    | register _ _ _ _ hs | store _ _ _ hs => rw [hs] at hd; cases hd
    | segment q v _ hs _ _ hl =>
      rw [hs] at hd
      cases hd
      exact stackInv_loadSeg h hl
  · exact h.congr (segmentRegistersChangeOnlyAtDestination i s u .ss hx hd) hc hm

/-- A descriptor that passes the tests of a load of DS, ES, FS or GS makes an accessible segment (R168). -/
theorem accessible_of_tests {d : Desc} {cpl rpl : BitVec 2} (hk : (d.isData || d.isReadableCode) = true)
    (hp : (d.isData || d.isNonconformingCode) = true → rpl ≤ d.dpl ∧ cpl ≤ d.dpl) :
    (decide (d.kind = .code) = true → d.readable = true)
      ∧ (decide (d.kind = .code) = true ∧ d.conforming = true ∨ cpl ≤ d.dpl) := by
  simp only [Desc.isData, Desc.isReadableCode, Desc.isNonconformingCode, Bool.or_eq_true, Bool.and_eq_true,
    decide_eq_true_eq, Bool.not_eq_true'] at hk hp ⊢
  rcases hk with hk | ⟨hk, hr⟩
  · exact ⟨fun hc => absurd (hk.symm.trans hc) (by decide), .inr (hp (.inl hk)).2⟩
  · refine ⟨fun _ => hr, ?_⟩
    cases hc : d.conforming with
    | true => exact .inl ⟨hk, rfl⟩
    | false => exact .inr (hp (.inr ⟨hk, hc⟩)).2

/-- A completed load of a data segment register, in a mode that checks it, leaves it unusable or accessible (R168, R174). -/
theorem accessible_loadSeg {s t : State} {q : SegReg} {v : BitVec 16} (hm : s.mode ≠ .real) (hm' : s.mode ≠ .v8086)
    (hq : q ≠ .ss) (hl : loadSeg s q v = .ok t) (hu : (t.seg q).usable = true) :
    (t.seg q).attr.present = true
      ∧ ((t.seg q).attr.code = true → (t.seg q).attr.readable = true)
      ∧ ((t.seg q).attr.code = true ∧ (t.seg q).attr.conforming = true ∨ s.cpl ≤ (t.seg q).attr.dpl) := by
  cases loadSeg_cases hl with
  | real h _ => exact absurd h hm
  | v8086 h _ => exact absurd h hm'
  | null _ _ _ ht =>
    rw [ht, loadNull, State.setDraws_seg, State.seg_setSeg_self] at hu
    cases hu
  | table _ _ raw u _ _ hds hp _ ht =>
    obtain ⟨hk, hpriv⟩ := hds hq
    rw [ht, State.seg_setSeg_self]
    exact ⟨hp, accessible_of_tests hk hpriv⟩

/-- Settles O54: a data segment register is as it was, or has just been loaded. -/
theorem stepKeepsDataSegmentsAccessible : Obligations.StepKeepsDataSegmentsAccessible := by
  intro s t
  refine step_keeps (fun _ h => h) (fun _ _ h => h) fun i s u h hx => ?_
  obtain ⟨-, -, -, -, hm, -, hc, -⟩ := (exec_onlyData hx).control
  intro hr hv r hd hu
  rw [hm] at hr hv
  rw [hc]
  by_cases hs : destSeg i = some (.seg r)
  · cases exec_cases hx with
    | register _ _ _ _ hn | store _ _ _ hn => rw [hn] at hs; cases hs
    | segment q v _ hn _ _ hl =>
      rw [hn] at hs
      cases hs
      exact accessible_loadSeg hr hv (fun e => by subst e; cases hd) hl hu
  · rw [segmentRegistersChangeOnlyAtDestination i s u r hx hs] at hu ⊢
    exact h hr hv r hd hu

theorem wf_memWrite {s t : State} {la : Quad} {n : Nat} {v : Quad} {user : Bool} (h : s.mem.wf = true)
    (hw : memWrite s la n v user = .ok t) : t.mem.wf = true := by
  obtain ⟨_, -, -, -, rfl⟩ := (memWrite_eq_ok ..).mp hw
  exact Memory.wf_writeAll _ _ h

theorem wf_markAccessed {s t : State} {sel : BitVec 16} {raw : Quad} (h : s.mem.wf = true)
    (hu : markAccessed s sel raw = .ok t) : t.mem.wf = true := by
  rcases (markAccessed_eq_ok ..).mp hu with ⟨-, rfl⟩ | ⟨-, hw⟩
  · exact h
  · exact wf_memWrite h hw

/-- Settles O55: memory changes by writes of bytes only, each of which keeps the form. -/
theorem stepKeepsMemoryCanonical : Obligations.StepKeepsMemoryCanonical := by
  intro s t
  refine step_keeps (P := fun s => s.mem.wf = true) (fun _ h => h) (fun _ _ h => h) fun i s u h hx => ?_
  cases exec_cases hx with
  | register r w d _ _ _ ht => rw [ht]; exact h
  | store a v _ _ _ _ ht =>
    obtain ⟨-, -, hw⟩ := (segWrite_eq_ok ..).mp ht
    exact wf_memWrite h hw
  | segment q v _ _ _ _ hl =>
    cases loadSeg_cases hl with
    | real _ ht | v8086 _ ht | null _ _ _ ht => rw [ht]; exact h
    | table _ _ raw u' _ _ _ _ hu ht => rw [ht, State.setSeg_mem]; exact wf_markAccessed h hu

/-- Settles O56: at reset SS is a writable data segment of privilege 0, the mode has no checked loads, and no memory is
listed. -/
theorem resetMeetsTheInvariants : Obligations.ResetMeetsTheInvariants :=
  ⟨⟨rfl, fun h => (nomatch h), fun h => (nomatch h)⟩, fun h => absurd rfl h, reset_mem_wf⟩

/-- Settles O13: the fields of the state after reset, register by register where the claim is about all of a file. -/
theorem resetValues : Obligations.ResetValues := by
  have hreg : ∀ n, State.reset.reg n = 0 := fun n => Vector.getElem_replicate n.isLt
  have hseg : ∀ r, (State.reset.seg r).limit = 0xFFFF ∧ (State.reset.seg r).attr.present = true := by
    intro r; cases r <;> exact ⟨rfl, rfl⟩
  have hdata : ∀ r, r ≠ .cs → (State.reset.seg r).sel = 0 ∧ (State.reset.seg r).base = 0
      ∧ (State.reset.seg r).attr.writable = true := by
    intro r hr
    cases r with
    | cs => exact absurd rfl hr
    | _ => exact ⟨rfl, rfl, rfl⟩
  exact ⟨rfl, rfl, rfl, rfl, rfl, rfl, rfl, rfl, rfl, rfl, hreg, rfl, rfl, hseg, hdata, rfl, rfl, rfl, rfl, rfl, rfl, rfl, rfl⟩

end Sys2Proof.Machine
end

section
/-! PROOF. No step reads or writes the flags register (spec/10_state.md R29, R37, log 29). Every operation that answers a value
answers the same with other flags, and every operation that answers a state answers that state with those flags: bottom up, the
operations over memory and segment registers, the operand forms, the rows, the fetch and the step. -/

namespace Sys2Proof.Machine

/-- The answer of an operation with other flags in the state it leaves. -/
def mapFlags (f : BitVec 64) (x : Except Stop State) : Except Stop State := x.map (·.withFlags f)

theorem mapFlags_bind {α : Type} (f : BitVec 64) (x : Except Stop α) (g : α → Except Stop State) :
    mapFlags f (x >>= g) = x >>= fun a => mapFlags f (g a) := by
  cases x <;> rfl

theorem bind_mapFlags (f : BitVec 64) (x : Except Stop State) (g : State → Except Stop State) :
    (mapFlags f x >>= g) = x >>= fun t => g (t.withFlags f) := by
  cases x <;> rfl

/-- A meaning with other flags is the meaning, with those flags in what it leaves. -/
theorem settle_withFlags (s : State) (f : BitVec 64) (x : Except Stop State) :
    settle (s.withFlags f) (mapFlags f x) = outcomeWithFlags f (settle s x) := by
  cases x with
  | ok t => rfl
  | error e => cases e <;> rfl

section
variable (s : State) (f : BitVec 64)

/-! Memory. -/

theorem translate_withFlags (la : Quad) (kind : Access) (user : Bool) :
    translate (s.withFlags f) la kind user = translate s la kind user := rfl

theorem translateFrom_withFlags (la : Quad) (kind : Access) (user : Bool) (n k : Nat) :
    translateFrom (s.withFlags f) la kind user n k = translateFrom s la kind user n k := by
  induction n generalizing k with
  | zero => rfl
  | succ n ih => simp only [translateFrom, ih, translate_withFlags]; rfl

theorem translateAll_withFlags (la : Quad) (n : Nat) (kind : Access) (user : Bool) :
    translateAll (s.withFlags f) la n kind user = translateAll s la n kind user := translateFrom_withFlags ..

theorem memRead_withFlags (la : Quad) (n : Nat) (user : Bool) :
    memRead (s.withFlags f) la n user = memRead s la n user := by
  rw [memRead, translateAll_withFlags]; rfl

theorem memWrite_withFlags (la : Quad) (n : Nat) (v : Quad) (user : Bool) :
    memWrite (s.withFlags f) la n v user = mapFlags f (memWrite s la n v user) := by
  rw [memWrite, translateAll_withFlags, memWrite, mapFlags_bind]
  congr 1
  funext pas
  show (match firstUnpopulated s pas with | some a => _ | none => _) = _
  cases firstUnpopulated s pas with
  | some a => rfl
  | none =>
    show (match firstInText s pas with | some a => _ | none => _) = _
    cases firstInText s pas <;> rfl

theorem segChecks_withFlags (r : SegReg) (ea : Quad) (n : Nat) (kind : Access) :
    segChecks (s.withFlags f) r ea n kind = segChecks s r ea n kind := rfl

theorem alignCheck_withFlags (la : Quad) (n : Nat) (kind : Access) :
    alignCheck (s.withFlags f) la n kind = alignCheck s la n kind := by
  simp only [alignCheck, translateAll_withFlags]; rfl

theorem segRead_withFlags (r : SegReg) (ea : Quad) (n : Nat) :
    segRead (s.withFlags f) r ea n = segRead s r ea n := by
  simp only [segRead, segChecks_withFlags, alignCheck_withFlags, memRead_withFlags]; rfl

theorem segWrite_withFlags (r : SegReg) (ea : Quad) (n : Nat) (v : Quad) :
    segWrite (s.withFlags f) r ea n v = mapFlags f (segWrite s r ea n v) := by
  simp only [segWrite, segChecks_withFlags, alignCheck_withFlags, memWrite_withFlags, mapFlags_bind]; rfl

/-! Operands. -/

theorem regRead_withFlags (n : RegNum) (sz : Size) (rex : Bool) :
    regRead (s.withFlags f) n sz rex = regRead s n sz rex := rfl

theorem regWrite_withFlags (n : RegNum) (sz : Size) (rex : Bool) (v : Quad) :
    regWrite (s.withFlags f) n sz rex v = (regWrite s n sz rex v).withFlags f := by
  cases sz with
  | byte =>
    unfold regWrite
    by_cases h : isHighByte n rex = true
    · simp only [if_pos h]; rfl
    · simp only [if_neg h]; rfl
  | word => rfl
  | dword =>
    unfold regWrite
    show (if s.mode = .long64 then _ else _) = _
    split <;> rfl
  | qword => rfl

theorem place_withFlags (h : Head) (len : Nat) (rm : RM) : place (s.withFlags f) h len rm = place s h len rm := by
  cases rm with
  | reg n => rfl
  | mem m => cases m <;> rfl

theorem readPlace_withFlags (sz : Size) (rex : Bool) (p : Place) :
    readPlace (s.withFlags f) sz rex p = readPlace s sz rex p := by
  cases p with
  | reg n => rfl
  | mem seg ea => exact segRead_withFlags ..

theorem writePlace_withFlags (sz : Size) (rex : Bool) (v : Quad) (p : Place) :
    writePlace (s.withFlags f) sz rex v p = mapFlags f (writePlace s sz rex v p) := by
  cases p with
  | reg n => exact congrArg Except.ok (regWrite_withFlags ..)
  | mem seg ea => exact segWrite_withFlags ..

theorem storeRM_withFlags (h : Head) (len : Nat) (sz : Size) (rex : Bool) (dst : RM) (v : Quad) :
    storeRM (s.withFlags f) h len sz rex dst v = mapFlags f (storeRM s h len sz rex dst v) := by
  simp only [storeRM, place_withFlags, writePlace_withFlags, mapFlags_bind]

theorem loadRM_withFlags (h : Head) (len : Nat) (sz : Size) (rex : Bool) (dst : RegNum) (src : RM) :
    loadRM (s.withFlags f) h len sz rex dst src = mapFlags f (loadRM s h len sz rex dst src) := by
  simp only [loadRM, place_withFlags, readPlace_withFlags, regWrite_withFlags, mapFlags_bind]; rfl

theorem loadMoffs_withFlags (h : Head) (sz : Size) (src : Moffs) :
    loadMoffs (s.withFlags f) h sz src = mapFlags f (loadMoffs s h sz src) := by
  simp only [loadMoffs, readPlace_withFlags, regWrite_withFlags, mapFlags_bind]; rfl

theorem storeMoffs_withFlags (h : Head) (sz : Size) (dst : Moffs) :
    storeMoffs (s.withFlags f) h sz dst = mapFlags f (storeMoffs s h sz dst) := by
  simp only [storeMoffs, regRead_withFlags, writePlace_withFlags, mapFlags_bind]; rfl

theorem immReg_withFlags (h : Head) (sz : Size) (rex : Bool) (dst : RegNum) (v : Quad) :
    immReg (s.withFlags f) h sz rex dst v = mapFlags f (immReg s h sz rex dst v) := by
  simp only [immReg, regWrite_withFlags, mapFlags_bind]; rfl

/-! Segment registers. -/

theorem lookup_withFlags (sel : BitVec 16) : lookup (s.withFlags f) sel = lookup s sel := by
  simp only [lookup, memRead_withFlags]; rfl

theorem markAccessed_withFlags (sel : BitVec 16) (raw : Quad) :
    markAccessed (s.withFlags f) sel raw = mapFlags f (markAccessed s sel raw) := by
  simp only [markAccessed, memWrite_withFlags]
  split <;> rfl

theorem loadNullSS_withFlags (sel : BitVec 16) :
    loadNullSS (s.withFlags f) sel = mapFlags f (loadNullSS s sel) := by
  unfold loadNullSS
  show (if s.mode ≠ .long64 then _ else if s.cpl = 3 then _ else if selRpl sel ≠ s.cpl then _ else _) = _
  split_ifs <;> rfl

theorem loadSS_withFlags (sel : BitVec 16) : loadSS (s.withFlags f) sel = mapFlags f (loadSS s sel) := by
  simp only [loadSS, lookup_withFlags, markAccessed_withFlags, mapFlags_bind, bind_mapFlags, apply_ite (mapFlags f)]; rfl

theorem loadDataSeg_withFlags (r : SegReg) (sel : BitVec 16) :
    loadDataSeg (s.withFlags f) r sel = mapFlags f (loadDataSeg s r sel) := by
  simp only [loadDataSeg, lookup_withFlags, markAccessed_withFlags, mapFlags_bind, bind_mapFlags,
    apply_ite (mapFlags f)]; rfl

theorem loadSegProt_withFlags (r : SegReg) (sel : BitVec 16) :
    loadSegProt (s.withFlags f) r sel = mapFlags f (loadSegProt s r sel) := by
  unfold loadSegProt
  split_ifs
  · exact loadNullSS_withFlags ..
  · exact loadSS_withFlags ..
  · rfl
  · exact loadDataSeg_withFlags ..

theorem loadSeg_withFlags (r : SegReg) (sel : BitVec 16) :
    loadSeg (s.withFlags f) r sel = mapFlags f (loadSeg s r sel) := by
  unfold loadSeg
  show (match s.mode with | .real => _ | .v8086 => _ | .prot => _ | .compat => _ | .long64 => _) = _
  cases s.mode with
  | real | v8086 => rfl
  | prot | compat | long64 => exact loadSegProt_withFlags ..

theorem storeSeg16_withFlags (h : Head) (len : Nat) (dst : RM) (g : SregField) :
    storeSeg16 (s.withFlags f) h len dst g = mapFlags f (storeSeg16 s h len dst g) := by
  simp only [storeSeg16, place_withFlags, writePlace_withFlags, mapFlags_bind]; rfl

theorem storeSeg32_withFlags (h : Head) (len : Nat) (dst : RM) (g : SregField) :
    storeSeg32 (s.withFlags f) h len dst g = mapFlags f (storeSeg32 s h len dst g) := by
  simp only [storeSeg32, place_withFlags, mapFlags_bind]
  congr 1
  funext r
  cases place s h len dst with
  | reg n => exact congrArg (fun t : State => Except.ok (t.setDraws (upperSel s r).2)) (regWrite_withFlags ..)
  | mem seg ea => exact segWrite_withFlags ..

theorem storeSeg64_withFlags (h : Head) (len : Nat) (dst : RM) (g : SregField) :
    storeSeg64 (s.withFlags f) h len dst g = mapFlags f (storeSeg64 s h len dst g) := by
  simp only [storeSeg64, place_withFlags, mapFlags_bind]
  congr 1
  funext r
  cases place s h len dst with
  | reg n => rfl
  | mem seg ea => exact segWrite_withFlags ..

theorem loadSeg16_withFlags (h : Head) (len : Nat) (g : SregField) (src : RM) :
    loadSeg16 (s.withFlags f) h len g src = mapFlags f (loadSeg16 s h len g src) := by
  simp only [loadSeg16, place_withFlags, readPlace_withFlags, loadSeg_withFlags, mapFlags_bind]

theorem loadSeg64_withFlags (h : Head) (len : Nat) (g : SregField) (src : RM) :
    loadSeg64 (s.withFlags f) h len g src = mapFlags f (loadSeg64 s h len g src) := by
  simp only [loadSeg64, place_withFlags, loadSeg_withFlags, mapFlags_bind]
  cases place s h len src with
  | reg n => rfl
  | mem seg ea => simp only [segRead_withFlags, mapFlags_bind]; rfl

/-! The rows and the step. -/

theorem settle_withFlags_of_eq {x y : Except Stop State} (h : x = mapFlags f y) :
    settle (s.withFlags f) x = outcomeWithFlags f (settle s y) := by
  rw [h, settle_withFlags]

theorem exec_withFlags (i : Instr) : exec i (s.withFlags f) = outcomeWithFlags f (exec i s) := by
  cases i with
  | movRm8R8 | movRm8R8Rex | movRm16R16 | movRm32R32 | movRm64R64
  | movRm8Imm8 | movRm8Imm8Rex | movRm16Imm16 | movRm32Imm32 | movRm64Imm32 =>
    exact settle_withFlags_of_eq s f (storeRM_withFlags ..)
  | movR8Rm8 | movR8Rm8Rex | movR16Rm16 | movR32Rm32 | movR64Rm64 =>
    exact settle_withFlags_of_eq s f (loadRM_withFlags ..)
  | movAlMoffs8 | movAlMoffs8RexW | movAxMoffs16 | movEaxMoffs32 | movRaxMoffs64 =>
    exact settle_withFlags_of_eq s f (loadMoffs_withFlags ..)
  | movMoffs8Al | movMoffs8AlRexW | movMoffs16Ax | movMoffs32Eax | movMoffs64Rax =>
    exact settle_withFlags_of_eq s f (storeMoffs_withFlags ..)
  | movR8Imm8 | movR8Imm8Rex | movR16Imm16 | movR32Imm32 | movR64Imm64 =>
    exact settle_withFlags_of_eq s f (immReg_withFlags ..)
  | movRm16Sreg => exact settle_withFlags_of_eq s f (storeSeg16_withFlags ..)
  | movR32M16Sreg h d g =>
    refine settle_withFlags_of_eq s f ?_
    show (if operandSize s.ctx false h.p66 = .word then _ else _) = _
    split
    · exact storeSeg16_withFlags ..
    · exact storeSeg32_withFlags ..
  | movR64M16Sreg => exact settle_withFlags_of_eq s f (storeSeg64_withFlags ..)
  | movSregRm16 => exact settle_withFlags_of_eq s f (loadSeg16_withFlags ..)
  | movSregRm64 => exact settle_withFlags_of_eq s f (loadSeg64_withFlags ..)

theorem fetchByte_withFlags (k : Nat) : fetchByte (s.withFlags f) k = fetchByte s k := rfl

theorem fetchFrom_withFlags (n k : Nat) : fetchFrom (s.withFlags f) n k = fetchFrom s n k := by
  induction n generalizing k with
  | zero => rfl
  | succ n ih => simp only [fetchFrom, fetchByte_withFlags, ih]

theorem fetchInstr_withFlags : fetchInstr (s.withFlags f) = fetchInstr s := by
  simp only [fetchInstr, fetchBytes, fetchFrom_withFlags]; rfl

theorem frame_withFlags (i : Instr) (o : Host.Outcome State Fault Refusal) :
    frame i (outcomeWithFlags f o) = outcomeWithFlags f (frame i o) := by
  cases o with
  | next t => rfl
  | fault r => cases r <;> rfl
  | refused r => rfl

theorem runInstr_withFlags : runInstr (s.withFlags f) = outcomeWithFlags f (runInstr s) := by
  simp only [runInstr, fetchInstr_withFlags]
  cases fetchInstr s with
  | error e => exact settle_withFlags s f (.error e)
  | ok i => simp only [exec_withFlags, frame_withFlags]

end

/-- Settles O51: whether an event is delivered depends on no flag, and neither does what the instruction does. -/
theorem flagsAreNeitherReadNorWritten : Obligations.FlagsAreNeitherReadNorWritten := by
  intro s f
  show (if s.delivers then _ else runInstr (s.passBoundary.withFlags f)) = _
  rw [step, runInstr_withFlags]
  split <;> rfl

end Sys2Proof.Machine
end

section
/-! PROOF. The front of an instruction (spec/30_encoding.md R90 to R98): its legacy prefixes, its REX byte, its opcode byte. What
the decoder makes of each, said once: of prefixes that D13 accepts (`decodeLegacy_of_accepted`), of the prefixes the encoder
writes (`decodeLegacy_legacyBytes`), and of any bytes at all (`decode_inv`). -/

namespace Sys2Proof.Machine

/-! Legacy prefixes by class. -/

/-- The classes of the legacy prefixes (R124). -/
def prefixClass : Legacy → LegacyClass
  | .opSize => .opSize
  | .addrSize => .addrSize
  | .segment _ => .segment
  | .lock => .lockRep
  | .rep => .lockRep

/-- The decoder's table of prefixes names the classes of R93 and R124. -/
theorem legacyClass_eq (b : Byte) : legacyClass b = (legacyOf b).map prefixClass := by
  revert b; decide

theorem legacyClass_eq_none {b : Byte} : legacyClass b = none ↔ legacyOf b = none := by
  rw [legacyClass_eq, Option.map_eq_none_iff]

/-- F2 and F3 are the repeat prefixes (R93). -/
theorem legacyOf_eq_rep {b : Byte} : legacyOf b = some .rep ↔ b.toNat = 0xF2 ∨ b.toNat = 0xF3 := by
  revert b; decide

/-- Does one of the prefixes have this class? -/
def hasClass (h : Head) : LegacyClass → Bool
  | .segment => h.seg.isSome
  | .opSize => h.p66
  | .addrSize => h.p67
  | .lockRep => h.lock

theorem hasClass_empty (k : LegacyClass) : hasClass Head.empty k = false := by cases k <;> rfl

/-- Of two prefixes of a class the second is refused (R124). -/
theorem add_of_hasClass {h : Head} {l : Legacy} (hr : l ≠ .rep) (hc : hasClass h (prefixClass l) = true) :
    h.add l = .error .sameClassTwice := by
  cases l with
  | rep => exact absurd rfl hr
  | _ => exact if_pos hc

/-- Of the prefixes of a class the first is accepted, and its class is then there. -/
theorem add_of_not_hasClass {h : Head} {l : Legacy} (hr : l ≠ .rep) (hc : hasClass h (prefixClass l) = false) :
    ∃ h', h.add l = .ok h' ∧ h'.rex = h.rex ∧ h'.length = h.length + 1
      ∧ ∀ k, hasClass h' k = true ↔ k = prefixClass l ∨ hasClass h k = true := by
  have hn : ¬hasClass h (prefixClass l) = true := by simp [hc]
  cases l with
  | rep => exact absurd rfl hr
  | opSize =>
    refine ⟨_, if_neg hn, rfl, ?_, fun k => by cases k <;> simp [hasClass, prefixClass]⟩
    simp only [hasClass, prefixClass] at hc
    simp only [Head.length, hc, Bool.toNat_true, Bool.toNat_false]; omega
  | addrSize =>
    refine ⟨_, if_neg hn, rfl, ?_, fun k => by cases k <;> simp [hasClass, prefixClass]⟩
    simp only [hasClass, prefixClass] at hc
    simp only [Head.length, hc, Bool.toNat_true, Bool.toNat_false]; omega
  | segment q =>
    refine ⟨_, if_neg hn, rfl, ?_, fun k => by cases k <;> simp [hasClass, prefixClass]⟩
    simp only [hasClass, prefixClass] at hc
    simp only [Head.length, hc, Option.isSome_some, Bool.toNat_true, Bool.toNat_false]; omega
  | lock =>
    refine ⟨_, if_neg hn, rfl, ?_, fun k => by cases k <;> simp [hasClass, prefixClass]⟩
    simp only [hasClass, prefixClass] at hc
    simp only [Head.length, hc, Bool.toNat_true, Bool.toNat_false]; omega

/-- The decoder at one of the legacy prefixes. -/
theorem decodeLegacy_of_add {h h' : Head} {b : Byte} {l : Legacy} (hl : legacyOf b = some l) (ha : h.add l = .ok h')
    (bs : List Byte) : decodeLegacy h (b :: bs) = decodeLegacy h' bs := by
  simp only [decodeLegacy, hl, ha]

theorem decodeLegacy_of_add_error {h : Head} {b : Byte} {l : Legacy} {e : DecodeError} (hl : legacyOf b = some l)
    (ha : h.add l = .error e) (bs : List Byte) : decodeLegacy h (b :: bs) = .error e := by
  simp only [decodeLegacy, hl, ha]

/-- Prefixes of distinct classes, none of which is there yet, are passed. -/
theorem decodeLegacy_of_fresh (front : List Byte) (h : Head)
    (hf : ∀ b ∈ front, legacyClass b ≠ none ∧ b.toNat ≠ 0xF2 ∧ b.toNat ≠ 0xF3) (hn : (front.map legacyClass).Nodup)
    (hh : ∀ k, some k ∈ front.map legacyClass → hasClass h k = false) :
    ∃ h', (∀ bs, decodeLegacy h (front ++ bs) = decodeLegacy h' bs)
      ∧ ∀ k, some k ∈ front.map legacyClass → hasClass h' k = true := by
  suffices hs : ∃ h', (∀ bs, decodeLegacy h (front ++ bs) = decodeLegacy h' bs)
      ∧ ∀ k, some k ∈ front.map legacyClass ∨ hasClass h k = true → hasClass h' k = true by
    obtain ⟨h', hd, hc⟩ := hs
    exact ⟨h', hd, fun k hk => hc k (.inl hk)⟩
  induction front generalizing h with
  | nil => exact ⟨h, fun _ => rfl, fun k hk => hk.resolve_left List.not_mem_nil⟩
  | cons b front ih =>
    obtain ⟨hb, h2, h3⟩ := hf b List.mem_cons_self
    obtain ⟨hbn, hn⟩ := List.nodup_cons.mp hn
    obtain ⟨l, hl⟩ := Option.ne_none_iff_exists'.mp (mt legacyClass_eq_none.mpr hb)
    have hcl : legacyClass b = some (prefixClass l) := by rw [legacyClass_eq, hl]; rfl
    have hr : l ≠ .rep := by
      rintro rfl
      exact (legacyOf_eq_rep.mp hl).elim h2 h3
    obtain ⟨h₁, ha, -, -, hc₁⟩ := add_of_not_hasClass hr (hh _ (by rw [List.map_cons, hcl]; exact List.mem_cons_self))
    have hfresh : ∀ k, some k ∈ front.map legacyClass → hasClass h₁ k = false := by
      intro k hk
      rw [Bool.eq_false_iff]
      intro hc
      rcases (hc₁ k).mp hc with rfl | hc
      · exact hbn (hcl ▸ hk)
      · rw [hh k (List.mem_cons_of_mem _ hk)] at hc; cases hc
    obtain ⟨h', hd, hc'⟩ := ih h₁ (fun b' hb' => hf b' (List.mem_cons_of_mem _ hb')) hn hfresh
    refine ⟨h', fun bs => ?_, fun k hk => hc' k ?_⟩
    · rw [List.cons_append, decodeLegacy_of_add hl ha, hd]
    · rw [List.map_cons, List.mem_cons, hcl, Option.some.injEq] at hk
      rcases hk with (hk | hk) | hk
      · exact .inr ((hc₁ k).mpr (.inl hk))
      · exact .inl hk
      · exact .inr ((hc₁ k).mpr (.inr hk))

/-- The prefixes D13 accepts are passed, and their classes are there. -/
theorem decodeLegacy_of_accepted {front : List Byte} (h : AcceptedFront front) :
    ∃ h', (∀ bs, decodeLegacy Head.empty (front ++ bs) = decodeLegacy h' bs)
      ∧ ∀ k, some k ∈ front.map legacyClass → hasClass h' k = true :=
  decodeLegacy_of_fresh front Head.empty h.1 h.2 fun k _ => hasClass_empty k

/-- The decoder on any bytes: it passes some prefixes and stops at a byte that is none; or it refuses; or all bytes are
prefixes, each of another class. -/
theorem decodeLegacy_inv (bs : List Byte) (h : Head) :
    (∃ h' front rest, decodeLegacy h bs = .ok (h', rest) ∧ bs = front ++ rest ∧ h'.rex = h.rex
        ∧ h'.length = h.length + front.length)
      ∨ ∃ e, decodeLegacy h bs = .error e
        ∧ (e = .needMore → ∃ h' : Head, h'.rex = h.rex ∧ h'.length = h.length + bs.length) := by
  induction bs generalizing h with
  | nil => exact .inr ⟨.needMore, rfl, fun _ => ⟨h, rfl, rfl⟩⟩
  | cons b bs ih =>
    cases hl : legacyOf b with
    | none => exact .inl ⟨h, [], b :: bs, decodeLegacy_of_none hl h bs, rfl, rfl, rfl⟩
    | some l =>
      by_cases hr : l = .rep
      · subst hr
        exact .inr ⟨_, decodeLegacy_of_add_error hl rfl bs, fun h => nomatch h⟩
      cases hc : hasClass h (prefixClass l) with
      | true => exact .inr ⟨_, decodeLegacy_of_add_error hl (add_of_hasClass hr hc) bs, fun h => nomatch h⟩
      | false =>
        obtain ⟨h₁, ha, hrex, hlen, -⟩ := add_of_not_hasClass hr hc
        rw [decodeLegacy_of_add hl ha]
        rcases ih h₁ with ⟨h', front, rest, hd, rfl, hrex', hlen'⟩ | ⟨e, hd, hm⟩
        · refine .inl ⟨h', b :: front, rest, hd, rfl, hrex'.trans hrex, ?_⟩
          rw [hlen', hlen, List.length_cons]; omega
        · refine .inr ⟨e, hd, fun he => ?_⟩
          obtain ⟨h', hrex', hlen'⟩ := hm he
          refine ⟨h', hrex'.trans hrex, ?_⟩
          rw [hlen', hlen, List.length_cons]; omega

/-! The prefixes the encoder writes. -/

theorem decodeLegacy_lock (h : Head) (hl : h.lock = false) (l : Bool) (bs : List Byte) :
    decodeLegacy h ((if l then [0xF0#8] else []) ++ bs) = decodeLegacy { h with lock := l } bs := by
  cases l with
  | false => obtain ⟨_, _, _, _, _⟩ := h; cases hl; rfl
  | true => exact decodeLegacy_of_add (l := .lock) rfl (if_neg (by simp [hl])) bs

theorem decodeLegacy_p66 (h : Head) (hp : h.p66 = false) (p : Bool) (bs : List Byte) :
    decodeLegacy h ((if p then [0x66#8] else []) ++ bs) = decodeLegacy { h with p66 := p } bs := by
  cases p with
  | false => obtain ⟨_, _, _, _, _⟩ := h; cases hp; rfl
  | true => exact decodeLegacy_of_add (l := .opSize) rfl (if_neg (by simp [hp])) bs

theorem decodeLegacy_p67 (h : Head) (hp : h.p67 = false) (p : Bool) (bs : List Byte) :
    decodeLegacy h ((if p then [0x67#8] else []) ++ bs) = decodeLegacy { h with p67 := p } bs := by
  cases p with
  | false => obtain ⟨_, _, _, _, _⟩ := h; cases hp; rfl
  | true => exact decodeLegacy_of_add (l := .addrSize) rfl (if_neg (by simp [hp])) bs

/-- Each segment override is read back (R93). -/
theorem legacyOf_segByte (q : SegReg) : legacyOf (segByte q) = some (.segment q) := by cases q <;> rfl

theorem decodeLegacy_seg (h : Head) (hs : h.seg = none) (o : Option SegReg) (bs : List Byte) :
    decodeLegacy h ((match o with | none => [] | some q => [segByte q]) ++ bs) = decodeLegacy { h with seg := o } bs := by
  cases o with
  | none => obtain ⟨_, _, _, _, _⟩ := h; cases hs; rfl
  | some q => exact decodeLegacy_of_add (legacyOf_segByte q) (if_neg (by simp [hs])) bs

/-- The prefixes the encoder writes are read back, up to a byte that is none of them. -/
theorem decodeLegacy_legacyBytes (h : Head) {b : Byte} (hb : legacyOf b = none) (bs : List Byte) :
    decodeLegacy Head.empty (h.legacyBytes ++ b :: bs) = .ok ({ h with rex := false }, b :: bs) := by
  have hseg := decodeLegacy_seg { Head.empty with lock := h.lock, p66 := h.p66, p67 := h.p67 } rfl h.seg (b :: bs)
  simp only [Head.legacyBytes, List.append_assoc]
  rw [decodeLegacy_lock _ rfl, decodeLegacy_p66 _ rfl, decodeLegacy_p67 _ rfl]
  exact hseg.trans (decodeLegacy_of_none hb _ bs)

/-! REX and the opcode byte. -/

/-- A byte that is no REX byte of the mode is where the opcode stands (R95). -/
theorem decodeRex_of_no_rex {m : Mode} {b : Byte} (h : ¬(m = .long64 ∧ IsRexByte b)) (bs : List Byte) :
    decodeRex m (b :: bs) = .ok (false, Rex.zero, b :: bs) := by
  rw [← isRex_iff] at h
  exact if_neg h

/-- A REX byte before another or before legacy prefixes is refused (R96). -/
theorem decodeRex_not_last {b b' : Byte} (hb : IsRexByte b) (hb' : IsRexByte b' ∨ legacyClass b' ≠ none)
    (bs : List Byte) : decodeRex .long64 (b :: b' :: bs) = .error .rexNotLast := by
  have hor : (isRex b' || (legacyOf b').isSome) = true := by
    rw [Bool.or_eq_true, isRex_iff, Option.isSome_iff_ne_none]
    exact hb'.imp_right (mt legacyClass_eq_none.mpr)
  simp [decodeRex, (isRex_iff b).mpr hb, hor]

/-- The decoder of REX on any bytes: at most one byte is passed, in 64-bit mode only. -/
theorem decodeRex_inv (m : Mode) (bs : List Byte) :
    (∃ p x front rest, decodeRex m bs = .ok (p, x, rest) ∧ bs = front ++ rest ∧ front.length = p.toNat
        ∧ (p = true → m = .long64) ∧ (p = false → x = Rex.zero))
      ∨ ∃ e, decodeRex m bs = .error e ∧ (e = .needMore → bs.length ≤ 1) := by
  match bs with
  | [] => exact .inr ⟨_, rfl, fun _ => Nat.zero_le 1⟩
  | b :: bs =>
    by_cases hb : m = .long64 ∧ IsRexByte b
    · obtain ⟨rfl, hb⟩ := hb
      match bs with
      | [] => exact .inr ⟨.needMore, by simp [decodeRex, (isRex_iff b).mpr hb], fun _ => le_refl 1⟩
      | b' :: bs =>
        by_cases hb' : IsRexByte b' ∨ legacyClass b' ≠ none
        · exact .inr ⟨_, decodeRex_not_last hb hb' bs, fun h => nomatch h⟩
        · rw [not_or, not_not] at hb'
          exact .inl ⟨true, rexOf b, [b], b' :: bs,
            decodeRex_of_isRexByte hb hb'.1 (legacyClass_eq_none.mp hb'.2) bs, rfl, rfl, fun _ => rfl, fun h => nomatch h⟩
    · exact .inl ⟨false, Rex.zero, [], b :: bs, decodeRex_of_no_rex hb bs, rfl, rfl, (fun h => nomatch h),
        fun _ => rfl⟩

/-- Decoding after the prefixes: REX, the opcode, the row. -/
def decodeTail (c : Ctx) (h : Head) (bs : List Byte) : Except DecodeError (Instr × List Byte) := do
  let (present, x, bs) ← decodeRex c.mode bs
  match bs with
  | [] => .error .needMore
  | o :: bs =>
    match opcodeOf o with
    | none => .error (.notMov o)
    | some op => decodeRow c { h with rex := present } x op bs

/-- Decoding is decoding of the prefixes, then of the rest. -/
theorem decode_eq (c : Ctx) (bs : List Byte) :
    decode c bs = (decodeLegacy Head.empty bs >>= fun p => decodeTail c p.1 p.2) := rfl

/-- Decoding after prefixes that have been passed, at a byte that is none. -/
theorem decode_of_legacy {c : Ctx} {bs rest : List Byte} {h : Head}
    (hl : decodeLegacy Head.empty bs = .ok (h, rest)) : decode c bs = decodeTail c h rest := by
  rw [decode_eq, hl]; rfl

/-- Decoding where the prefixes are refused. -/
theorem decode_of_legacy_error {c : Ctx} {bs : List Byte} {e : DecodeError}
    (hl : decodeLegacy Head.empty bs = .error e) : decode c bs = .error e := by
  rw [decode_eq, hl]; rfl

theorem decodeTail_of_opcode {c : Ctx} {h : Head} {bs rest : List Byte} {p : Bool} {x : Rex} {o : Byte} {op : Opcode}
    (hx : decodeRex c.mode bs = .ok (p, x, o :: rest)) (ho : opcodeOf o = some op) :
    decodeTail c h bs = decodeRow c { h with rex := p } x op rest := by
  simp only [decodeTail, hx, Bind.bind, Except.bind, ho]

theorem decodeTail_of_no_opcode {c : Ctx} {h : Head} {bs rest : List Byte} {p : Bool} {x : Rex} {o : Byte}
    (hx : decodeRex c.mode bs = .ok (p, x, o :: rest)) (ho : opcodeOf o = none) :
    decodeTail c h bs = .error (.notMov o) := by
  simp only [decodeTail, hx, Bind.bind, Except.bind, ho]

theorem decodeTail_of_rex_error {c : Ctx} {h : Head} {bs : List Byte} {e : DecodeError}
    (hx : decodeRex c.mode bs = .error e) : decodeTail c h bs = .error e := by
  simp only [decodeTail, hx, Bind.bind, Except.bind]

/-- REX bits come from a REX byte (R97), and one exists in 64-bit mode only (R95). -/
def RexFits (c : Ctx) (h : Head) (x : Rex) : Prop :=
  (h.rex = true → c.mode = .long64) ∧ (h.rex = false → x = Rex.zero)

/-- A head has at most five bytes, four without LOCK or without REX (R91). -/
theorem Head.length_le (h : Head) : h.length ≤ 3 + h.lock.toNat + h.rex.toNat := by
  have hs := Bool.toNat_le h.seg.isSome
  have h6 := Bool.toNat_le h.p66
  have h7 := Bool.toNat_le h.p67
  unfold Head.length
  omega

/-- The decoder on any bytes: a head whose bytes are passed, an opcode, and its row; or a refusal; or too few bytes,
fewer than sixteen. -/
theorem decode_inv (c : Ctx) (bs : List Byte) :
    (∃ h x op front o rest, decode c bs = decodeRow c h x op rest ∧ RexFits c h x ∧ bs = front ++ o :: rest
        ∧ front.length = h.length)
      ∨ ∃ e, decode c bs = .error e ∧ (e = .needMore → bs.length < 16) := by
  rcases decodeLegacy_inv bs Head.empty with ⟨h, front, rest, hd, rfl, hrex, hlen⟩ | ⟨e, hd, hm⟩
  · have h4 : h.length ≤ 4 := by
      have h1 := Head.length_le h
      have h2 := Bool.toNat_le h.lock
      rw [hrex] at h1
      simp only [Head.empty, Bool.toNat_false] at h1
      omega
    have hfront : front.length = h.length := by rw [hlen]; exact (Nat.zero_add _).symm
    rw [decode_of_legacy hd]
    rcases decodeRex_inv c.mode rest with ⟨p, x, front', rest', hx, rfl, hp, hm, hz⟩ | ⟨e, hx, hm⟩
    · match rest' with
      | [] =>
        refine .inr ⟨.needMore, by simp only [decodeTail, hx, Bind.bind, Except.bind], fun _ => ?_⟩
        have := Bool.toNat_le p
        simp only [List.length_append, List.length_nil]
        omega
      | o :: rest' =>
        cases ho : opcodeOf o with
        | none => exact .inr ⟨_, decodeTail_of_no_opcode hx ho, fun h => nomatch h⟩
        | some op =>
          refine .inl ⟨{ h with rex := p }, x, op, front ++ front', o, rest', decodeTail_of_opcode hx ho, ⟨hm, hz⟩,
            by rw [List.append_assoc], ?_⟩
          have hl : ({ h with rex := p } : Head).length = h.length + p.toNat := by
            have hf : h.rex = false := hrex
            simp only [Head.length, hf, Bool.toNat_false]; omega
          rw [List.length_append, hl, hp, hfront]
    · refine .inr ⟨e, decodeTail_of_rex_error hx, fun he => ?_⟩
      have := hm he
      rw [List.length_append]
      omega
  · refine .inr ⟨e, decode_of_legacy_error hd, fun he => ?_⟩
    obtain ⟨h', hrex, hlen⟩ := hm he
    have h1 := Head.length_le h'
    have h2 := Bool.toNat_le h'.lock
    rw [hrex] at h1
    simp only [Head.empty, Head.length, Bool.toNat_false, Option.isSome_none] at h1 hlen
    omega

/-- An opcode byte is none of the prefixes and no REX byte (R98). -/
theorem opcode_no_prefix {o : Byte} (h : opcodeOf o ≠ none) : legacyOf o = none ∧ ¬IsRexByte o := by
  rw [← isRex_iff]
  revert o; decide

/-- The MOV opcodes are the bytes R98 and R112 list. -/
theorem opcodeOf_eq_none {b : Byte}
    (h : b.toNat ∉ [0x88, 0x89, 0x8A, 0x8B, 0x8C, 0x8E, 0xA0, 0xA1, 0xA2, 0xA3, 0xC6, 0xC7])
    (h' : ¬(0xB0 ≤ b.toNat ∧ b.toNat ≤ 0xBF)) : opcodeOf b = none := by
  revert b; decide

end Sys2Proof.Machine
end

section
/-! PROOF. What follows the opcode byte (spec/30_encoding.md R99 to R108, R112): the ModRM operand, offsets, immediates, and the
row they make, on any bytes. Each part of the decoder answers a value that fits the context and consumes the bytes of its
length, or asks for more bytes where there are too few (`Reads`); parts in a row add up (`Reads.bind`). -/

namespace Sys2Proof.Machine

/-- A part of the decoder at the bytes `bs`: it answers a value and the number of bytes it has consumed, of which `P` holds,
and needs at most `max` bytes; or refuses, as `other` admits. -/
def Reads {α : Type} (other : DecodeError → Prop) (bs : List Byte) (max : Nat) (P : α → Nat → Prop) :
    Except DecodeError (α × List Byte) → Prop
  | .ok (a, rest) => ∃ mid, bs = mid ++ rest ∧ mid.length ≤ max ∧ P a mid.length
  | .error e => e = .needMore ∧ bs.length < max ∨ other e

/-- Of the errors only the want of bytes. -/
abbrev NoOther : DecodeError → Prop := fun _ => False

section
variable {α β : Type} {other : DecodeError → Prop} {bs : List Byte}

theorem Reads.pure {m : Nat} {P : α → Nat → Prop} {a : α} (h : P a 0) : Reads other bs m P (.ok (a, bs)) :=
  ⟨[], rfl, Nat.zero_le m, h⟩

theorem Reads.refuse {m : Nat} {P : α → Nat → Prop} {e : DecodeError} (h : other e) : Reads other bs m P (.error e) :=
  .inr h

theorem Reads.mono {m m' : Nat} {P : α → Nat → Prop} {x : Except DecodeError (α × List Byte)} (h : Reads other bs m P x)
    (hm : m ≤ m') : Reads other bs m' P x := by
  cases x with
  | error e => exact h.imp_left fun h => ⟨h.1, by omega⟩
  | ok r =>
    obtain ⟨mid, hb, hl, hp⟩ := h
    exact ⟨mid, hb, by omega, hp⟩

/-- One part after another: the bytes add up. -/
theorem Reads.bind {m m' M : Nat} {P : α → Nat → Prop} {Q : β → Nat → Prop} {x : Except DecodeError (α × List Byte)}
    {f : α × List Byte → Except DecodeError (β × List Byte)} (hM : m + m' ≤ M)
    (hx : Reads NoOther bs m P x)
    (hf : ∀ a n rest, P a n → Reads other rest m' (fun b k => Q b (n + k)) (f (a, rest))) :
    Reads other bs M Q (x >>= f) := by
  cases x with
  | error e =>
    obtain ⟨he, hl⟩ := hx.resolve_right id
    exact .inl ⟨he, by omega⟩
  | ok r =>
    obtain ⟨a, rest⟩ := r
    obtain ⟨mid, rfl, hl, hp⟩ := hx
    have hr := hf a _ rest hp
    show Reads other _ _ _ (f (a, rest))
    cases hfa : f (a, rest) with
    | error e =>
      rw [hfa] at hr
      exact hr.imp_left fun h => ⟨h.1, by rw [List.length_append]; omega⟩
    | ok r' =>
      rw [hfa] at hr
      obtain ⟨mid', rfl, hl', hq⟩ := hr
      exact ⟨mid ++ mid', by rw [List.append_assoc], by rw [List.length_append]; omega,
        by rw [List.length_append]; exact hq⟩

/-- One byte before a part. -/
theorem Reads.cons {m : Nat} {P : α → Nat → Prop} {b : Byte} {x : Except DecodeError (α × List Byte)}
    (hx : Reads other bs m (fun a n => P a (1 + n)) x) : Reads other (b :: bs) (1 + m) P x := by
  cases x with
  | error e => exact hx.imp_left fun h => ⟨h.1, by rw [List.length_cons]; omega⟩
  | ok r =>
    obtain ⟨mid, rfl, hl, hp⟩ := hx
    exact ⟨b :: mid, rfl, by rw [List.length_cons]; omega, by rw [List.length_cons, Nat.add_comm]; exact hp⟩

end

theorem takeLE_reads (n : Nat) (bs : List Byte) : Reads NoOther bs n (fun _ k => k = n) (takeLE n bs) := by
  unfold takeLE
  split
  · exact .inl ⟨rfl, by assumption⟩
  · have hl : (bs.take n).length = n := by rw [List.length_take]; omega
    exact ⟨bs.take n, (List.take_append_drop n bs).symm, by omega, hl⟩

/-! Operands. -/

/-- Without a REX byte no extension bit is set, so a register number that was decoded can be written (R97). -/
theorem regOk_regNum {h : Head} {ext : Bool} (he : h.rex = false → ext = false) (f : BitVec 3) :
    regOk h (regNum ext f) = true := by
  rw [regOk, Bool.or_eq_true, decide_eq_true_eq, regNum_val]
  cases hr : h.rex with
  | true => exact .inl rfl
  | false =>
    have := f.isLt
    rw [he hr, Bool.toNat_false]
    exact .inr (by omega)

/-- The three bits of a register field decide its number modulo 8. -/
theorem regNum_mod (ext : Bool) (f : BitVec 3) : (regNum ext f).val % 8 = f.toNat := by
  have := f.isLt
  rw [regNum_val]; omega

theorem decodeMem16_reads {c : Ctx} {h : Head} (ha : addressSize c h.p67 = .a16) (md : BitVec 2) (rm : BitVec 3)
    (bs : List Byte) :
    Reads NoOther bs 2 (fun m k => memOk c h m = true ∧ k = m.length) (decodeMem16 md rm bs) := by
  have habs : ∀ v, memOk c h (.abs16 v) = true := fun v => by simp [memOk, ha]
  have hsum : ∀ b d, (d = .none → b ≠ .bp) → memOk c h (.sum16 b d) = true := by
    intro b d hd
    simp only [memOk, ha, decide_true, Bool.true_and, Bool.not_eq_true', Bool.and_eq_false_iff, decide_eq_false_iff_not]
    by_cases hn : d = .none
    · exact .inl (hd hn)
    · exact .inr hn
  have hbp : rm ≠ 6 → base16Of rm ≠ .bp := by revert rm; decide
  unfold decodeMem16
  split
  · split
    · refine Reads.bind (m' := 0) (by omega) (takeLE_reads 2 bs) fun v n rest hn => ?_
      exact Reads.pure ⟨habs _, by rw [hn]; rfl⟩
    · exact Reads.pure ⟨hsum _ _ fun _ => hbp (by assumption), rfl⟩
  · split
    · refine Reads.bind (m' := 0) (by omega) (takeLE_reads 1 bs) fun v n rest hn => ?_
      exact Reads.pure ⟨hsum _ _ (fun h => nomatch h), by rw [hn]; rfl⟩
    · refine Reads.bind (m' := 0) (by omega) (takeLE_reads 2 bs) fun v n rest hn => ?_
      exact Reads.pure ⟨hsum _ _ (fun h => nomatch h), by rw [hn]; rfl⟩

theorem decodeDisp32_reads (md : BitVec 2) (bs : List Byte) :
    Reads NoOther bs 4 (fun d k => k = d.length ∧ (d = .none → md = 0)) (decodeDisp32 md bs) := by
  unfold decodeDisp32
  split
  · exact Reads.pure ⟨rfl, fun _ => by assumption⟩
  · split
    · refine Reads.bind (m' := 0) (by omega) (takeLE_reads 1 bs) fun v n rest hn => ?_
      exact Reads.pure ⟨by rw [hn]; rfl, fun h => nomatch h⟩
    · refine Reads.bind (m' := 0) (by omega) (takeLE_reads 4 bs) fun v n rest hn => ?_
      exact Reads.pure ⟨by rw [hn]; rfl, fun h => nomatch h⟩

/-- The index a SIB byte names (R103). -/
theorem indexOk_of_regNum {h : Head} {ext : Bool} (he : h.rex = false → ext = false) (f : BitVec 3) :
    indexOk h (if (regNum ext f).val = 4 then none else some (regNum ext f)) = true := by
  split
  · rfl
  · rename_i hn
    rw [indexOk, Bool.and_eq_true, decide_eq_true_eq]
    exact ⟨regOk_regNum he f, hn⟩

theorem baseDisp_ok {b : RegNum} {d : Disp32} (h : b.val % 8 = 5 → d ≠ .none) :
    (!(decide (b.val % 8 = 5) && decide (d = .none))) = true := by
  simp only [Bool.not_eq_true', Bool.and_eq_false_iff, decide_eq_false_iff_not]
  by_cases hb : b.val % 8 = 5
  · exact .inr (h hb)
  · exact .inl hb

section
variable {c : Ctx} {h : Head} {x : Rex}

theorem decodeSib_reads (hx : h.rex = false → x = Rex.zero) (ha : addressSize c h.p67 ≠ .a16) (md : BitVec 2)
    (bs : List Byte) : Reads NoOther bs 5 (fun m k => memOk c h m = true ∧ k = m.length) (decodeSib x md bs) := by
  match bs with
  | [] => exact .inl ⟨rfl, Nat.zero_lt_succ 4⟩
  | s :: bs =>
    have hi := indexOk_of_regNum (ext := x.x) (fun he => by rw [hx he]; rfl) (s.extractLsb' 3 3)
    unfold decodeSib
    refine Reads.cons (m := 4) ?_
    by_cases hb : md = 0 ∧ s.extractLsb' 0 3 = 5
    · simp only [if_pos hb]
      refine Reads.bind (m' := 0) (by omega) (takeLE_reads 4 bs) fun v n rest hn => ?_
      exact Reads.pure ⟨by simp only [memOk, hi, ha, ne_eq, not_false_iff, decide_true, Bool.and_self], by rw [hn]; rfl⟩
    · simp only [if_neg hb]
      refine Reads.bind (m' := 0) (by omega) (decodeDisp32_reads md bs) fun d n rest hd => ?_
      obtain ⟨hn, hd⟩ := hd
      have hr := regOk_regNum (h := h) (ext := x.b) (fun he => by rw [hx he]; rfl) (s.extractLsb' 0 3)
      have hbd := baseDisp_ok (b := regNum x.b (s.extractLsb' 0 3)) (d := d) fun h5 hz => by
        rw [regNum_mod] at h5
        exact hb ⟨hd hz, BitVec.eq_of_toNat_eq h5⟩
      exact Reads.pure ⟨by simp only [memOk, hi, ha, hr, hbd, ne_eq, not_false_iff, decide_true, Bool.and_self],
        by rw [hn]; rfl⟩

theorem decodeMem32_reads (hx : h.rex = false → x = Rex.zero) (ha : addressSize c h.p67 ≠ .a16) (md : BitVec 2)
    (rm : BitVec 3) (bs : List Byte) :
    Reads NoOther bs 5 (fun m k => memOk c h m = true ∧ k = m.length) (decodeMem32 c.mode x md rm bs) := by
  unfold decodeMem32
  by_cases h4 : rm = 4
  · rw [if_pos h4]
    exact decodeSib_reads hx ha md bs
  · rw [if_neg h4]
    refine Reads.mono (m := 4) ?_ (by omega)
    by_cases h5 : md = 0 ∧ rm = 5
    · rw [if_pos h5]
      refine Reads.bind (m' := 0) (by omega) (takeLE_reads 4 bs) fun v n rest hn => ?_
      simp only
      split
      · rename_i hm
        exact Reads.pure ⟨by rw [memOk, hm]; rfl, by rw [hn]; rfl⟩
      · rename_i hm
        exact Reads.pure ⟨by simp only [memOk, ha, hm, ne_eq, not_false_iff, decide_true, Bool.and_self], by rw [hn]; rfl⟩
    · rw [if_neg h5]
      refine Reads.bind (m' := 0) (by omega) (decodeDisp32_reads md bs) fun d n rest hd => ?_
      obtain ⟨hn, hd⟩ := hd
      have hr := regOk_regNum (h := h) (ext := x.b) (fun he => by rw [hx he]; rfl) rm
      have h4' : (regNum x.b rm).val % 8 ≠ 4 := fun he => h4 (BitVec.eq_of_toNat_eq (by rw [← regNum_mod x.b, he]; rfl))
      have hbd := baseDisp_ok (b := regNum x.b rm) (d := d) fun he hz => by
        rw [regNum_mod] at he
        exact h5 ⟨hd hz, BitVec.eq_of_toNat_eq he⟩
      exact Reads.pure ⟨by simp only [memOk, ha, hr, hbd, h4', ne_eq, not_false_iff, decide_true, Bool.and_self],
        by rw [hn]; rfl⟩

/-- The ModRM operand on any bytes (R99, R105): the `reg` field is bits 5:3 of the ModRM byte. -/
theorem decodeModRM_reads (hx : h.rex = false → x = Rex.zero) (bs : List Byte) :
    Reads NoOther bs 6 (fun r k => bs.head?.map (·.extractLsb' 3 3) = some r.1 ∧ rmOk c h r.2 = true ∧ k = r.2.length)
      ((decodeModRM c h x bs).map fun r => ((r.1, r.2.1), r.2.2)) := by
  match bs with
  | [] => exact .inl ⟨rfl, Nat.zero_lt_succ 5⟩
  | b :: bs =>
    unfold decodeModRM
    refine Reads.cons (m := 5) ?_
    by_cases h3 : b.extractLsb' 6 2 = 3
    · simp only [if_pos h3]
      have hr := regOk_regNum (h := h) (ext := x.b) (fun he => by rw [hx he]; rfl) (b.extractLsb' 0 3)
      exact Reads.pure ⟨rfl, hr, rfl⟩
    · simp only [if_neg h3]
      have hmem : ∀ y : Except DecodeError (MemOp × List Byte),
          Reads NoOther bs 5 (fun m k => memOk c h m = true ∧ k = m.length) y →
          Reads NoOther bs 5 (fun r k => (b :: bs).head?.map (·.extractLsb' 3 3) = some r.1 ∧ rmOk c h r.2 = true
            ∧ 1 + k = r.2.length)
            ((y >>= fun r => .ok (b.extractLsb' 3 3, RM.mem r.1, r.2)).map fun r => ((r.1, r.2.1), r.2.2)) := by
        intro y hy
        cases y with
        | error e => exact hy
        | ok r =>
          obtain ⟨mid, hb, hl, hok, hlen⟩ := hy
          exact ⟨mid, hb, hl, rfl, hok, by rw [hlen]; rfl⟩
      by_cases ha : addressSize c h.p67 = .a16
      · simp only [if_pos ha]
        exact hmem _ ((decodeMem16_reads ha _ _ bs).mono (by omega))
      · simp only [if_neg ha]
        exact hmem _ (decodeMem32_reads hx ha _ _ bs)

/-- The ModRM operand before another part. -/
theorem decodeModRM_bind {α : Type} {other : DecodeError → Prop} {m' M : Nat} {bs : List Byte} {Q : α → Nat → Prop}
    {f : BitVec 3 × RM × List Byte → Except DecodeError (α × List Byte)} (hM : 6 + m' ≤ M)
    (hx : h.rex = false → x = Rex.zero)
    (hf : ∀ reg rm rest, bs.head?.map (·.extractLsb' 3 3) = some reg → rmOk c h rm = true →
      Reads other rest m' (fun a k => Q a (rm.length + k)) (f (reg, rm, rest))) :
    Reads other bs M Q (decodeModRM c h x bs >>= f) := by
  have he : (decodeModRM c h x bs >>= f)
      = ((decodeModRM c h x bs).map (fun r => ((r.1, r.2.1), r.2.2)) >>= fun r => f (r.1.1, r.1.2, r.2)) := by
    cases decodeModRM c h x bs <;> rfl
  rw [he]
  refine Reads.bind hM (decodeModRM_reads hx bs) fun a n rest ha => ?_
  obtain ⟨hreg, hok, rfl⟩ := ha
  exact hf a.1 a.2 rest hreg hok

theorem decodeMoffs_reads (bs : List Byte) :
    Reads NoOther bs 8 (fun o k => moffsOk c h o = true ∧ k = o.length) (decodeMoffs c h bs) := by
  unfold decodeMoffs
  split
  · rename_i ha
    refine Reads.bind (m' := 0) (by omega) (takeLE_reads 2 bs) fun v n rest hn => ?_
    exact Reads.pure ⟨by simp [moffsOk, ha], by rw [hn]; rfl⟩
  · rename_i ha
    refine Reads.bind (m' := 0) (by omega) (takeLE_reads 4 bs) fun v n rest hn => ?_
    exact Reads.pure ⟨by simp [moffsOk, ha], by rw [hn]; rfl⟩
  · rename_i ha
    refine Reads.bind (m' := 0) (by omega) (takeLE_reads 8 bs) fun v n rest hn => ?_
    exact Reads.pure ⟨by simp [moffsOk, ha], by rw [hn]; rfl⟩

end

end Sys2Proof.Machine
end

section
/-! PROOF. What is decoded fits its context (spec/30_encoding.md R91, R94, R97, R112, R113, R123), and what is refused is refused
by name (R96, R122, R124, R125; decisions D2, D13, D14): the row of an opcode on any bytes, then the whole decoder. -/

namespace Sys2Proof.Machine

/-- A row at the head `h` that fits its context and is `k` bytes longer than its head and opcode. -/
def RowFits (c : Ctx) (h : Head) (i : Instr) (k : Nat) : Prop :=
  i.head = h ∧ rowOk c i = true ∧ i.length = h.length + 1 + k

/-- Without REX.W the operand size is 32 or 16 (R94). -/
theorem operandSize_of_not_w (c : Ctx) (p66 : Bool) :
    operandSize c false p66 = .dword ∨ operandSize c false p66 = .word := by
  unfold operandSize
  split
  · cases p66
    · exact .inl rfl
    · exact .inr rfl
  · split
    · exact .inl rfl
    · exact .inr rfl

section
variable {c : Ctx} {h : Head} {x : Rex}

/-- The operand size is that of the row's column: 64 with a REX byte, else the size without REX.W (R94, R112). -/
theorem operandSize_fits (hx : RexFits c h x) {sz : Size} (hs : operandSize c x.w h.p66 = sz) :
    sz ≠ .byte ∧ (sz = .qword → h.rex = true) ∧ (sz ≠ .qword → sizeOk c h sz = true) := by
  have hz : h.rex = false → x.w = false := fun he => by rw [hx.2 he]; rfl
  unfold sizeOk
  subst hs
  rw [decide_eq_true_eq]
  cases hw : x.w with
  | false =>
    rcases operandSize_of_not_w c h.p66 with hs | hs <;> rw [hs] <;>
      exact ⟨by decide, fun h => (nomatch h), fun _ => rfl⟩
  | true =>
    have hr : h.rex = true := by
      by_contra he
      rw [hz (by simpa using he)] at hw; cases hw
    rw [operandSize_of_w (hx.1 hr)]
    exact ⟨by decide, fun _ => hr, fun h => absurd rfl h⟩

theorem rex_of_w (hx : RexFits c h x) (hw : x.w = true) : h.rex = true := by
  by_contra he
  rw [hx.2 (by simpa using he)] at hw; cases hw

/-- A register the `reg` field names can be written (R97). -/
theorem regOk_reg (hx : RexFits c h x) (f : BitVec 3) : regOk h (regNum x.r f) = true :=
  regOk_regNum (fun he => by rw [hx.2 he]; rfl) f

/-- A register the opcode byte names can be written (R98). -/
theorem regOk_op (hx : RexFits c h x) (f : BitVec 3) : regOk h (regNum x.b f) = true :=
  regOk_regNum (fun he => by rw [hx.2 he]; rfl) f

/-- The refusals a row has of its own (R122, R123). -/
abbrev RowRefusal : DecodeError → Prop := fun e => e ≠ .needMore

theorem Reads.row {bs : List Byte} {i : Instr} {m k : Nat} (hi : RowFits c h i k) :
    Reads RowRefusal bs m (fun i n => RowFits c h i (k + n)) (.ok (i, bs)) := Reads.pure hi

/-- The row of an opcode on any bytes: it fits the context, and takes at most ten bytes. -/
theorem decodeRow_reads (hx : RexFits c h x) (op : Opcode) (bs : List Byte) :
    Reads RowRefusal bs 10 (RowFits c h) (decodeRow c h x op bs) := by
  have hreg := regOk_reg hx
  have hop := regOk_op hx
  unfold decodeRow
  cases op with
  | rm8R8 =>
    refine decodeModRM_bind (m' := 0) (by omega) hx.2 fun reg rm rest _ hrm => Reads.row ?_
    cases hr : h.rex <;> exact ⟨rfl, by simp [rowOk, hr, hrm, hreg], rfl⟩
  | r8Rm8 =>
    refine decodeModRM_bind (m' := 0) (by omega) hx.2 fun reg rm rest _ hrm => Reads.row ?_
    cases hr : h.rex <;> exact ⟨rfl, by simp [rowOk, hr, hrm, hreg], rfl⟩
  | rmR =>
    refine decodeModRM_bind (m' := 0) (by omega) hx.2 fun reg rm rest _ hrm => ?_
    obtain ⟨hb, hq, hs⟩ := operandSize_fits hx rfl
    cases hsz : operandSize c x.w h.p66 with
    | byte => exact absurd hsz hb
    | qword => refine Reads.row ?_; exact ⟨rfl, by simp [rowOk, hq hsz, hrm, hreg], rfl⟩
    | dword | word => rw [hsz] at hs; refine Reads.row ?_; exact ⟨rfl, by simp [rowOk, hs, hrm, hreg], rfl⟩
  | rRm =>
    refine decodeModRM_bind (m' := 0) (by omega) hx.2 fun reg rm rest _ hrm => ?_
    obtain ⟨hb, hq, hs⟩ := operandSize_fits hx rfl
    cases hsz : operandSize c x.w h.p66 with
    | byte => exact absurd hsz hb
    | qword => refine Reads.row ?_; exact ⟨rfl, by simp [rowOk, hq hsz, hrm, hreg], rfl⟩
    | dword | word => rw [hsz] at hs; refine Reads.row ?_; exact ⟨rfl, by simp [rowOk, hs, hrm, hreg], rfl⟩
  | rmSreg =>
    refine decodeModRM_bind (m' := 0) (by omega) hx.2 fun reg rm rest _ hrm => ?_
    cases x.r with
    | true => exact Reads.refuse fun h => nomatch h
    | false =>
      obtain ⟨hb, hq, hs⟩ := operandSize_fits hx rfl
      cases hsz : operandSize c x.w h.p66 with
      | byte => exact absurd hsz hb
      | qword => refine Reads.row ?_; exact ⟨rfl, by simp [rowOk, hq hsz, hrm], rfl⟩
      | dword | word => rw [hsz] at hs; refine Reads.row ?_; exact ⟨rfl, by simp [rowOk, hs, hrm], rfl⟩
  | sregRm =>
    refine decodeModRM_bind (m' := 0) (by omega) hx.2 fun reg rm rest _ hrm => ?_
    cases x.r with
    | true => exact Reads.refuse fun h => nomatch h
    | false =>
      cases hw : x.w with
      | true => refine Reads.row ?_; exact ⟨rfl, by simp [rowOk, rex_of_w hx hw, hrm], rfl⟩
      | false => refine Reads.row ?_; exact ⟨rfl, hrm, rfl⟩
  | alMoffs =>
    refine Reads.bind (m' := 0) (by omega) (decodeMoffs_reads bs) fun o n rest ho => ?_
    obtain ⟨ho, rfl⟩ := ho
    cases hw : x.w with
    | true => refine Reads.row ?_; exact ⟨rfl, by simp [rowOk, rex_of_w hx hw, ho], rfl⟩
    | false => refine Reads.row ?_; exact ⟨rfl, ho, rfl⟩
  | moffsAl =>
    refine Reads.bind (m' := 0) (by omega) (decodeMoffs_reads bs) fun o n rest ho => ?_
    obtain ⟨ho, rfl⟩ := ho
    cases hw : x.w with
    | true => refine Reads.row ?_; exact ⟨rfl, by simp [rowOk, rex_of_w hx hw, ho], rfl⟩
    | false => refine Reads.row ?_; exact ⟨rfl, ho, rfl⟩
  | accMoffs =>
    refine Reads.bind (m' := 0) (by omega) (decodeMoffs_reads bs) fun o n rest ho => ?_
    obtain ⟨ho, rfl⟩ := ho
    obtain ⟨hb, hq, hs⟩ := operandSize_fits hx rfl
    cases hsz : operandSize c x.w h.p66 with
    | byte => exact absurd hsz hb
    | qword => refine Reads.row ?_; exact ⟨rfl, by simp [rowOk, hq hsz, ho], rfl⟩
    | dword | word => rw [hsz] at hs; refine Reads.row ?_; exact ⟨rfl, by simp [rowOk, hs, ho], rfl⟩
  | moffsAcc =>
    refine Reads.bind (m' := 0) (by omega) (decodeMoffs_reads bs) fun o n rest ho => ?_
    obtain ⟨ho, rfl⟩ := ho
    obtain ⟨hb, hq, hs⟩ := operandSize_fits hx rfl
    cases hsz : operandSize c x.w h.p66 with
    | byte => exact absurd hsz hb
    | qword => refine Reads.row ?_; exact ⟨rfl, by simp [rowOk, hq hsz, ho], rfl⟩
    | dword | word => rw [hsz] at hs; refine Reads.row ?_; exact ⟨rfl, by simp [rowOk, hs, ho], rfl⟩
  | r8Imm n =>
    refine Reads.bind (m' := 0) (by omega) (takeLE_reads 1 bs) fun v k rest hk => ?_
    subst hk
    refine Reads.row ?_
    cases hr : h.rex <;> exact ⟨rfl, by simp [rowOk, hr, hop], rfl⟩
  | rImm n =>
    obtain ⟨hb, hq, hs⟩ := operandSize_fits hx rfl
    cases hsz : operandSize c x.w h.p66 with
    | byte => exact absurd hsz hb
    | qword =>
      refine Reads.bind (m' := 0) (by omega) (takeLE_reads 8 bs) fun v k rest hk => ?_
      subst hk
      refine Reads.row ?_; exact ⟨rfl, by simp [rowOk, hq hsz, hop], rfl⟩
    | dword =>
      rw [hsz] at hs
      refine Reads.bind (m' := 0) (by omega) (takeLE_reads 4 bs) fun v k rest hk => ?_
      subst hk
      refine Reads.row ?_; exact ⟨rfl, by simp [rowOk, hs, hop], rfl⟩
    | word =>
      rw [hsz] at hs
      refine Reads.bind (m' := 0) (by omega) (takeLE_reads 2 bs) fun v k rest hk => ?_
      subst hk
      refine Reads.row ?_; exact ⟨rfl, by simp [rowOk, hs, hop], rfl⟩
  | rm8Imm =>
    refine decodeModRM_bind (m' := 4) (by omega) hx.2 fun reg rm rest _ hrm => ?_
    by_cases hz : reg = 0
    · simp only [if_pos hz]
      refine Reads.bind (m' := 0) (by omega) (takeLE_reads 1 rest) fun v k rest hk => ?_
      subst hk
      refine Reads.pure ?_
      cases hr : h.rex <;> exact ⟨rfl, by simp [rowOk, hr, hrm], rfl⟩
    · simp only [if_neg hz]
      exact Reads.refuse fun h => nomatch h
  | rmImm =>
    refine decodeModRM_bind (m' := 4) (by omega) hx.2 fun reg rm rest _ hrm => ?_
    by_cases hz : reg = 0
    · simp only [if_pos hz]
      obtain ⟨hb, hq, hs⟩ := operandSize_fits hx rfl
      cases hsz : operandSize c x.w h.p66 with
      | byte => exact absurd hsz hb
      | qword =>
        refine Reads.bind (m' := 0) (by omega) (takeLE_reads 4 rest) fun v k rest hk => ?_
        subst hk
        refine Reads.pure ?_; exact ⟨rfl, by simp [rowOk, hq hsz, hrm], rfl⟩
      | dword =>
        rw [hsz] at hs
        refine Reads.bind (m' := 0) (by omega) (takeLE_reads 4 rest) fun v k rest hk => ?_
        subst hk
        refine Reads.pure ?_; exact ⟨rfl, by simp [rowOk, hs, hrm], rfl⟩
      | word =>
        rw [hsz] at hs
        refine Reads.bind (m' := 0) (by omega) (takeLE_reads 2 rest) fun v k rest hk => ?_
        subst hk
        refine Reads.pure ?_; exact ⟨rfl, by simp [rowOk, hs, hrm], rfl⟩
    · simp only [if_neg hz]
      exact Reads.refuse fun h => nomatch h

end

/-- Settles O2: a head of at most five bytes, the opcode, and a row of at most ten more. -/
theorem decodedInstructionFitsContextAndLength : Obligations.DecodedInstructionFitsContextAndLength := by
  intro c bs
  rcases decode_inv c bs with ⟨h, x, op, front, o, rest, hd, hx, rfl, hlen⟩ | ⟨e, hd, hm⟩
  · have hr := decodeRow_reads hx op rest
    rw [hd]
    have hle := Head.length_le h
    have hl := Bool.toNat_le h.lock
    have hr' := Bool.toNat_le h.rex
    constructor
    · intro i rest' hi
      rw [hi] at hr
      obtain ⟨mid, rfl, hmid, hhead, hrow, hil⟩ := hr
      refine ⟨?_, hrow, ⟨front ++ o :: mid, by simp, ?_⟩, by omega, fun hf => ?_⟩
      · rw [hhead, headOk]
        cases hrex : h.rex with
        | false => rfl
        | true => simpa using hx.1 hrex
      · rw [List.length_append, List.length_cons, hlen, hil]; omega
      · rw [hhead] at hf
        rw [hf, Bool.toNat_false] at hle
        rw [Config.maxInsnLen]
        omega
    · intro h16 hmore
      rw [hmore] at hr
      rcases hr with ⟨-, hshort⟩ | hne
      · rw [List.length_append, List.length_cons] at h16
        omega
      · exact hne rfl
  · rw [hd]
    exact ⟨fun _ _ h => (nomatch h), fun h16 he => absurd (hm (Except.error.inj he)) (by omega)⟩

/-- The rows that need a REX byte have one (R113). -/
theorem rex_of_needsRex {c : Ctx} {i : Instr} (hn : needsRex i = true) (hr : rowOk c i = true) : i.head.rex = true := by
  cases i with
  | movRm8R8Rex | movRm64R64 | movR8Rm8Rex | movR64Rm64 | movRm8Imm8Rex | movRm64Imm32 | movR64M16Sreg | movSregRm64
  | movAlMoffs8RexW | movRaxMoffs64 | movMoffs8AlRexW | movMoffs64Rax | movR8Imm8Rex | movR64Imm64 =>
    simp only [rowOk, Bool.and_eq_true] at hr
    tauto
  | _ => nomatch hn

/-- Settles O5: the prefixes are passed, no byte is left to be REX, and the opcode table has no entry. -/
theorem otherOpcodesAreRefused : Obligations.OtherOpcodesAreRefused := by
  intro c front x b bs hf hx hb hrex hop hop'
  obtain ⟨h, hd, -⟩ := decodeLegacy_of_accepted hf
  have hno := opcodeOf_eq_none hop hop'
  have hbn := legacyClass_eq_none.mp hb
  rcases hx with rfl | ⟨hm, b₀, hb₀, rfl⟩
  · have hl : decodeLegacy Head.empty (front ++ b :: bs) = .ok (h, b :: bs) := (hd _).trans (decodeLegacy_of_none hbn h bs)
    exact (decode_of_legacy hl).trans (decodeTail_of_no_opcode (decodeRex_of_no_rex hrex bs) hno)
  · have hl : decodeLegacy Head.empty (front ++ b₀ :: b :: bs) = .ok (h, b₀ :: b :: bs) :=
      (hd _).trans (decodeLegacy_of_none (legacyOf_of_isRexByte hb₀) h _)
    have hr : decodeRex c.mode (b₀ :: b :: bs) = .ok (true, rexOf b₀, b :: bs) := by
      rw [hm]; exact decodeRex_of_isRexByte hb₀ (fun h => hrex ⟨hm, h⟩) hbn bs
    exact (decode_of_legacy hl).trans (decodeTail_of_no_opcode hr hno)

/-- Settles O3: a row that needs REX has one, which its mode admits; and 40 to 4F are in no table. -/
theorem rexRowsExistOnlyIn64BitMode : Obligations.RexRowsExistOnlyIn64BitMode := by
  intro c hm
  constructor
  · intro bs i rest hd
    obtain ⟨hhead, hrow, -⟩ := (decodedInstructionFitsContextAndLength c bs).1 i rest hd
    rw [Bool.eq_false_iff]
    intro hn
    rw [headOk, rex_of_needsRex hn hrow] at hhead
    exact hm (by simpa using hhead)
  · intro front b bs hf hb
    obtain ⟨hlo, hhi⟩ := hb
    refine otherOpcodesAreRefused c front [] b bs hf (.inl rfl) ?_ (fun h => hm h.1) ?_ (by omega)
    · exact legacyClass_eq_none.mpr (legacyOf_of_isRexByte ⟨hlo, hhi⟩)
    · simp only [List.mem_cons, List.not_mem_nil, or_false]
      omega

/-! The refusals by name. -/

/-- After accepted prefixes and an optional REX byte, an opcode byte selects its row. -/
theorem decode_at_opcode {c : Ctx} {front x : List Byte} {o : Byte} {op : Opcode} (hf : AcceptedFront front)
    (hx : OptionalRex c.mode x) (ho : opcodeOf o = some op) (bs : List Byte) :
    ∃ h r, RexFits c h r ∧ (∀ b, x = [b] → r = rexOf b) ∧ decode c (front ++ (x ++ o :: bs)) = decodeRow c h r op bs := by
  obtain ⟨h, hd, -⟩ := decodeLegacy_of_accepted hf
  obtain ⟨hn, hnr⟩ := opcode_no_prefix (o := o) (by rw [ho]; exact fun h => nomatch h)
  rcases hx with rfl | ⟨hm, b, hb, rfl⟩
  · have hl : decodeLegacy Head.empty (front ++ o :: bs) = .ok (h, o :: bs) := (hd _).trans (decodeLegacy_of_none hn h bs)
    refine ⟨{ h with rex := false }, Rex.zero, ⟨fun h => (nomatch h), fun _ => rfl⟩, fun b h => (nomatch h), ?_⟩
    exact (decode_of_legacy hl).trans (decodeTail_of_opcode (decodeRex_of_no_rex (fun h => hnr h.2) bs) ho)
  · have hl : decodeLegacy Head.empty (front ++ b :: o :: bs) = .ok (h, b :: o :: bs) :=
      (hd _).trans (decodeLegacy_of_none (legacyOf_of_isRexByte hb) h _)
    have hr : decodeRex c.mode (b :: o :: bs) = .ok (true, rexOf b, o :: bs) := by
      rw [hm]; exact decodeRex_of_isRexByte hb hnr hn bs
    refine ⟨{ h with rex := true }, rexOf b, ⟨fun _ => hm, fun h => (nomatch h)⟩, fun b' h => ?_, ?_⟩
    · rw [(List.cons.inj h).1]
    · exact (decode_of_legacy hl).trans (decodeTail_of_opcode hr ho)

/-- A ModRM operand is read from six bytes, or more bytes are wanted; its `reg` field is of the ModRM byte. -/
theorem decodeModRM_cases {c : Ctx} {h : Head} {x : Rex} (hx : RexFits c h x) (m : Byte) (bs : List Byte) :
    (∃ rm rest, decodeModRM c h x (m :: bs) = .ok (m.extractLsb' 3 3, rm, rest))
      ∨ decodeModRM c h x (m :: bs) = .error .needMore ∧ bs.length < 5 := by
  have hr := decodeModRM_reads (c := c) hx.2 (m :: bs)
  cases hd : decodeModRM c h x (m :: bs) with
  | error e =>
    rw [hd] at hr
    obtain ⟨rfl, hl⟩ := Or.resolve_right hr id
    exact .inr ⟨rfl, by rw [List.length_cons] at hl; omega⟩
  | ok r =>
    obtain ⟨reg, rm, rest⟩ := r
    rw [hd] at hr
    obtain ⟨_, -, -, hreg, -⟩ := hr
    obtain rfl : m.extractLsb' 3 3 = reg := Option.some.inj hreg
    exact .inl ⟨rm, rest, rfl⟩

/-- A row that refuses what its ModRM byte says, whatever the operand. -/
theorem refused_after_modRM {c : Ctx} {h : Head} {x : Rex} (hx : RexFits c h x) {m : Byte} {bs : List Byte}
    {f : BitVec 3 × RM × List Byte → Except DecodeError (Instr × List Byte)} {e : DecodeError}
    (hf : ∀ rm rest, f (m.extractLsb' 3 3, rm, rest) = .error e) :
    (5 ≤ bs.length → (decodeModRM c h x (m :: bs) >>= f) = .error e)
      ∧ ((decodeModRM c h x (m :: bs) >>= f) = .error e ∨ (decodeModRM c h x (m :: bs) >>= f) = .error .needMore) := by
  rcases decodeModRM_cases hx m bs with ⟨rm, rest, hd⟩ | ⟨hd, hl⟩
  · have he : (decodeModRM c h x (m :: bs) >>= f) = .error e := by rw [hd]; exact hf rm rest
    exact ⟨fun _ => he, .inl he⟩
  · exact ⟨fun h5 => absurd h5 (by omega), .inr (by rw [hd]; rfl)⟩

/-- REX.R is bit 2 (R95). -/
theorem rexOf_r {b : Byte} (hr : b.toNat / 4 % 2 = 1) : (rexOf b).r = true := by
  simp [rexOf, BitVec.getLsbD, Nat.testBit_eq_decide_div_mod_eq, hr]

/-- Settles O4: repeat prefixes and classes by the table of prefixes, REX by its place, the others by their row. -/
theorem uncoveredEncodingsAreRefused : Obligations.UncoveredEncodingsAreRefused := by
  intro c front bs hf
  obtain ⟨h, hd, hcl⟩ := decodeLegacy_of_accepted hf
  refine ⟨fun b hb => ?_, fun b h2 h3 hc => ?_, fun hm b b' hb hb' => ?_, fun x op m hx hop hm => ?_,
    fun hm b op m hb hr hop => ?_⟩
  · exact decode_of_legacy_error ((hd _).trans (decodeLegacy_of_add_error (legacyOf_eq_rep.mpr hb) rfl bs))
  · obtain ⟨l, hl⟩ : ∃ l, legacyOf b = some l := by
      rw [← Option.ne_none_iff_exists', Ne, ← legacyClass_eq_none]
      intro hn
      obtain ⟨b', hb', he⟩ := List.mem_map.mp hc
      exact (hf.1 b' hb').1 (he.trans hn)
    have hrep : l ≠ .rep := by
      rintro rfl
      exact (legacyOf_eq_rep.mp hl).elim h2 h3
    rw [legacyClass_eq, hl] at hc
    exact decode_of_legacy_error ((hd _).trans (decodeLegacy_of_add_error hl (add_of_hasClass hrep (hcl _ hc)) bs))
  · have hl : decodeLegacy Head.empty (front ++ b :: b' :: bs) = .ok (h, b :: b' :: bs) :=
      (hd _).trans (decodeLegacy_of_none (legacyOf_of_isRexByte hb) h _)
    exact (decode_of_legacy hl).trans (decodeTail_of_rex_error (by rw [hm]; exact decodeRex_not_last hb hb' bs))
  · have hdigit : m.extractLsb' 3 3 ≠ 0 := by
      intro he
      have hz : m.toNat / 2 ^ 3 % 2 ^ 3 = 0 := by
        rw [← Nat.shiftRight_eq_div_pow, ← BitVec.extractLsb'_toNat, he]; rfl
      omega
    rcases hop with hop | hop
    · obtain rfl : op = 0xC6 := BitVec.eq_of_toNat_eq hop
      obtain ⟨h', r, hr, -, he⟩ := decode_at_opcode hf hx (o := 0xC6) rfl (m :: bs)
      rw [he]
      exact refused_after_modRM hr fun rm rest => if_neg hdigit
    · obtain rfl : op = 0xC7 := BitVec.eq_of_toNat_eq hop
      obtain ⟨h', r, hr, -, he⟩ := decode_at_opcode hf hx (o := 0xC7) rfl (m :: bs)
      rw [he]
      exact refused_after_modRM hr fun rm rest => if_neg hdigit
  · have hx : OptionalRex c.mode [b] := .inr ⟨hm, b, hb, rfl⟩
    rcases hop with hop | hop
    · obtain rfl : op = 0x8C := BitVec.eq_of_toNat_eq hop
      obtain ⟨h', r, hfit, hrb, he⟩ := decode_at_opcode hf hx (o := 0x8C) rfl (m :: bs)
      rw [List.cons_append, List.nil_append] at he
      rw [he]
      exact refused_after_modRM hfit fun rm rest => if_pos (by rw [hrb b rfl, rexOf_r hr])
    · obtain rfl : op = 0x8E := BitVec.eq_of_toNat_eq hop
      obtain ⟨h', r, hfit, hrb, he⟩ := decode_at_opcode hf hx (o := 0x8E) rfl (m :: bs)
      rw [List.cons_append, List.nil_append] at he
      rw [he]
      exact refused_after_modRM hfit fun rm rest => if_pos (by rw [hrb b rfl, rexOf_r hr])

end Sys2Proof.Machine
end

section
/-! PROOF. Decode and encode agree (spec/30_encoding.md sections 1 to 6): each part that the encoder writes, the decoder reads
back (fields, displacements, offsets, the ModRM operand), and the rows are made of these parts. Ignored REX bits are 0 in what
the encoder writes (log 32). -/

namespace Sys2Proof.Machine

/-! Fields. -/

theorem rexOf_rexByte (x : Rex) : rexOf (rexByte x) = x := by
  obtain ⟨w, r, x, b⟩ := x
  revert w r x b; decide

theorem isRexByte_rexByte (x : Rex) : IsRexByte (rexByte x) := by
  rw [← isRex_iff]
  obtain ⟨w, r, x, b⟩ := x
  revert w r x b; decide

/-- A register number is its bit 3 and its low three bits (R97). -/
theorem regNum_regHigh_regLow (n : RegNum) : regNum (regHigh n) (regLow n) = n := by revert n; decide

/-- A register number below 8 needs no extension bit. -/
theorem regHigh_of_lt {n : RegNum} (h : n.val < 8) : regHigh n = false := by revert n; decide

theorem regLow_toNat (n : RegNum) : (regLow n).toNat = n.val % 8 := by revert n; decide

theorem sregField_sregBits (f : SregField) : sregField (sregBits f) = f := by
  cases f with
  | seg r => cases r <;> rfl
  | none6 | none7 => rfl

theorem base16Of_base16Bits (b : Base16) : base16Of (base16Bits b) = b := by cases b <;> rfl

theorem base16Bits_eq_six {b : Base16} : base16Bits b = 6 ↔ b = .bp := by cases b <;> decide

/-- The three fields of a ModRM byte (R99). -/
theorem modrmByte_fields (md : BitVec 2) (reg rm : BitVec 3) :
    (modrmByte md reg rm).extractLsb' 6 2 = md ∧ (modrmByte md reg rm).extractLsb' 3 3 = reg
      ∧ (modrmByte md reg rm).extractLsb' 0 3 = rm := by
  revert md reg rm; decide

/-- The three fields of a SIB byte (R103). -/
theorem sibByte_fields (sc : BitVec 2) (i b : BitVec 3) :
    (sibByte sc i b).extractLsb' 6 2 = sc ∧ (sibByte sc i b).extractLsb' 3 3 = i
      ∧ (sibByte sc i b).extractLsb' 0 3 = b := modrmByte_fields sc i b

/-! Bytes. -/

/-- The number whose bytes `bytesLE` gives (R52). -/
theorem littleEndian_bytesLE (n : Nat) (v : Quad) : littleEndian (bytesLE n v) = v.toNat % 2 ^ (8 * n) := by
  induction n generalizing v with
  | zero => simp [bytesLE, littleEndian, Nat.mod_one]
  | succ n ih =>
    have hs : (v >>> 8).toNat = v.toNat / 2 ^ 8 := by rw [BitVec.toNat_ushiftRight, Nat.shiftRight_eq_div_pow]
    have hp : 2 ^ (8 * (n + 1)) = 256 * 2 ^ (8 * n) := by rw [Nat.mul_succ, pow_add]; ring
    simp only [bytesLE, littleEndian, ih, hs, BitVec.toNat_setWidth]
    rw [hp, Nat.mod_mul]
    rfl

theorem takeLE_bytesLE (n : Nat) (v : Quad) (rest : List Byte) :
    takeLE n (bytesLE n v ++ rest) = .ok (BitVec.ofNat 64 (v.toNat % 2 ^ (8 * n)), rest) := by
  rw [takeLE_append (bytesLE_length n v), littleEndian_bytesLE]

/-- The low bits of a value that came through `n` bytes. -/
theorem takeLE_setWidth {w n : Nat} (hw : w ≤ 64) (hn : w = 8 * n) (v : BitVec w) :
    (BitVec.ofNat 64 ((v.setWidth 64).toNat % 2 ^ (8 * n))).setWidth w = v := by
  subst hn
  apply BitVec.eq_of_toNat_eq
  have h1 := v.isLt
  have h2 : 2 ^ (8 * n) ≤ 2 ^ 64 := Nat.pow_le_pow_right (by decide) hw
  rw [BitVec.toNat_setWidth, BitVec.toNat_ofNat, BitVec.toNat_setWidth, Nat.mod_eq_of_lt (lt_of_lt_of_le h1 h2),
    Nat.mod_eq_of_lt h1, Nat.mod_eq_of_lt (lt_of_lt_of_le h1 h2), Nat.mod_eq_of_lt h1]

section
variable {α : Type} (rest : List Byte)

/-- A value of 8, 16 or 32 bits that the encoder writes is read back. -/
theorem takeLE_encoded {w n : Nat} (hw : w ≤ 64) (hn : w = 8 * n) (v : BitVec w)
    (f : BitVec w → α) :
    (takeLE n (bytesLE n (v.setWidth 64) ++ rest) >>= fun p => (.ok (f (p.1.setWidth w), p.2) : Except DecodeError _))
      = .ok (f v, rest) := by
  rw [takeLE_bytesLE]
  show Except.ok (f _, rest) = _
  rw [takeLE_setWidth hw hn]

theorem takeLE_encoded_quad (v : Quad) : takeLE 8 (bytesLE 8 v ++ rest) = .ok (v, rest) := by
  have h64 : v.toNat % 2 ^ (8 * 8) = v.toNat := Nat.mod_eq_of_lt v.isLt
  rw [takeLE_bytesLE, h64, BitVec.ofNat_toNat, BitVec.setWidth_eq]

/-! The ModRM operand. -/

theorem decodeMem16_sum {b : Base16} {d : Disp16} (h : ¬(b = .bp ∧ d = .none)) :
    decodeMem16 d.md (base16Bits b) (d.encode ++ rest) = .ok (.sum16 b d, rest) := by
  have hb := base16Of_base16Bits b
  unfold decodeMem16
  cases d with
  | none =>
    have h6 : base16Bits b ≠ 6 := fun e => h ⟨base16Bits_eq_six.mp e, rfl⟩
    simp only [Disp16.md, Disp16.encode, if_neg h6, hb]
    rfl
  | d8 v =>
    have := takeLE_encoded rest (w := 8) (n := 1) (by decide) rfl v fun v => MemOp.sum16 b (.d8 v)
    simp only [Disp16.md, Disp16.encode, hb]
    exact this
  | d16 v =>
    have := takeLE_encoded rest (w := 16) (n := 2) (by decide) rfl v fun v => MemOp.sum16 b (.d16 v)
    simp only [Disp16.md, Disp16.encode, hb]
    exact this

theorem decodeMem16_abs (d : BitVec 16) :
    decodeMem16 0 6 (bytesLE 2 (d.setWidth 64) ++ rest) = .ok (.abs16 d, rest) :=
  takeLE_encoded rest (w := 16) (n := 2) (by decide) rfl d MemOp.abs16

theorem decodeDisp32_encode (d : Disp32) : decodeDisp32 d.md (d.encode ++ rest) = .ok (d, rest) := by
  cases d with
  | none => rfl
  | d8 v => exact takeLE_encoded rest (w := 8) (n := 1) (by decide) rfl v Disp32.d8
  | d32 v => exact takeLE_encoded rest (w := 32) (n := 4) (by decide) rfl v Disp32.d32

theorem disp32_md_eq_zero {d : Disp32} : d.md = 0 ↔ d = .none := by
  cases d with
  | none => exact ⟨fun _ => rfl, fun _ => rfl⟩
  | d8 v | d32 v => exact ⟨fun h => absurd h (by simp [Disp32.md]), fun h => (nomatch h)⟩

/-- A SIB index is read back: 4 for none, which no index is (R103). -/
theorem index_encode {h : Head} {i : Option RegNum} (hi : indexOk h i = true) :
    (if (regNum (indexHigh i) (indexLow i)).val = 4 then none else some (regNum (indexHigh i) (indexLow i))) = i := by
  cases i with
  | none => rfl
  | some n =>
    simp only [indexOk, Bool.and_eq_true, decide_eq_true_eq] at hi
    simp only [indexHigh, indexLow, regNum_regHigh_regLow]
    exact if_neg hi.2

theorem decodeSib_sib {h : Head} {x : Rex} {sc : BitVec 2} {i : Option RegNum} {b : RegNum} {d : Disp32}
    (hx : x.x = indexHigh i) (hb : x.b = regHigh b) (hi : indexOk h i = true) (hd : ¬(b.val % 8 = 5 ∧ d = .none)) :
    decodeSib x d.md (sibByte sc (indexLow i) (regLow b) :: (d.encode ++ rest)) = .ok (.sib sc i b d, rest) := by
  obtain ⟨h1, h2, h3⟩ := sibByte_fields sc (indexLow i) (regLow b)
  have hc : ¬(d.md = 0 ∧ regLow b = 5) := by
    rintro ⟨hm, h5⟩
    exact hd ⟨by rw [← regLow_toNat, h5]; rfl, disp32_md_eq_zero.mp hm⟩
  simp only [decodeSib, h1, h2, h3, hx, hb, index_encode hi, if_neg hc, regNum_regHigh_regLow, decodeDisp32_encode]
  rfl

theorem decodeSib_sibAbs {h : Head} {x : Rex} {sc : BitVec 2} {i : Option RegNum} {d : BitVec 32}
    (hx : x.x = indexHigh i) (hi : indexOk h i = true) :
    decodeSib x 0 (sibByte sc (indexLow i) 5 :: (bytesLE 4 (d.setWidth 64) ++ rest)) = .ok (.sibAbs sc i d, rest) := by
  obtain ⟨h1, h2, h3⟩ := sibByte_fields sc (indexLow i) 5
  have := takeLE_encoded rest (w := 32) (n := 4) (by decide) rfl d (MemOp.sibAbs sc i)
  simp only [decodeSib, h1, h2, h3, hx, index_encode hi]
  exact this

theorem decodeMem32_base (m : Mode) {x : Rex} {b : RegNum} {d : Disp32} (hb : x.b = regHigh b) (h4 : b.val % 8 ≠ 4)
    (hd : ¬(b.val % 8 = 5 ∧ d = .none)) :
    decodeMem32 m x d.md (regLow b) (d.encode ++ rest) = .ok (.base b d, rest) := by
  have hn4 : regLow b ≠ 4 := fun e => h4 (by rw [← regLow_toNat, e]; rfl)
  have hc : ¬(d.md = 0 ∧ regLow b = 5) := by
    rintro ⟨hm, h5⟩
    exact hd ⟨by rw [← regLow_toNat, h5]; rfl, disp32_md_eq_zero.mp hm⟩
  simp only [decodeMem32, if_neg hn4, if_neg hc, hb, regNum_regHigh_regLow, decodeDisp32_encode]
  rfl

theorem decodeMem32_rip (x : Rex) (d : BitVec 32) :
    decodeMem32 .long64 x 0 5 (bytesLE 4 (d.setWidth 64) ++ rest) = .ok (.rip d, rest) :=
  takeLE_encoded rest (w := 32) (n := 4) (by decide) rfl d MemOp.rip

theorem decodeMem32_abs {m : Mode} (hm : m ≠ .long64) (x : Rex) (d : BitVec 32) :
    decodeMem32 m x 0 5 (bytesLE 4 (d.setWidth 64) ++ rest) = .ok (.abs32 d, rest) := by
  have := takeLE_encoded rest (w := 32) (n := 4) (by decide) rfl d MemOp.abs32
  unfold decodeMem32
  simp only [if_neg hm]
  exact this

/-- A memory operand after its ModRM byte, by the address size. -/
theorem decodeModRM_mem {c : Ctx} {h : Head} {x : Rex} {md : BitVec 2} (hmd : md ≠ 3) (reg rm : BitVec 3)
    {m : MemOp} {bs : List Byte}
    (hm : (if addressSize c h.p67 = .a16 then decodeMem16 md rm bs else decodeMem32 c.mode x md rm bs) = .ok (m, rest)) :
    decodeModRM c h x (modrmByte md reg rm :: bs) = .ok (reg, .mem m, rest) := by
  obtain ⟨h1, h2, h3⟩ := modrmByte_fields md reg rm
  by_cases ha : addressSize c h.p67 = .a16
  · rw [if_pos ha] at hm
    simp only [decodeModRM, h1, h2, h3, if_neg hmd, if_pos ha, hm]
    rfl
  · rw [if_neg ha] at hm
    simp only [decodeModRM, h1, h2, h3, if_neg hmd, if_neg ha, hm]
    rfl

/-- In 64-bit mode no address has 16 bits (R94). -/
theorem addressSize_of_long64 {c : Ctx} (hm : c.mode = .long64) (p67 : Bool) : addressSize c p67 ≠ .a16 := by
  simp only [addressSize, hm]
  cases p67 <;> decide

/-- An operand that exists is read back from what the encoder writes (R99 to R105). -/
theorem decodeModRM_encode {c : Ctx} {h : Head} {x : Rex} {rm : RM} (hx : x.x = rm.rexX) (hb : x.b = rm.rexB)
    (hrm : rmOk c h rm = true) (reg : BitVec 3) :
    decodeModRM c h x (rm.encode reg ++ rest) = .ok (reg, rm, rest) := by
  have hmd32 : ∀ d : Disp32, d.md ≠ 3 := fun d => by cases d <;> simp [Disp32.md]
  have hmd16 : ∀ d : Disp16, d.md ≠ 3 := fun d => by cases d <;> simp [Disp16.md]
  cases rm with
  | reg n =>
    obtain ⟨h1, h2, h3⟩ := modrmByte_fields 3 reg (regLow n)
    replace hb : x.b = regHigh n := hb
    show decodeModRM c h x (modrmByte 3 reg (regLow n) :: rest) = _
    simp only [decodeModRM, h1, h2, h3, if_true, hb, regNum_regHigh_regLow]
  | mem m =>
    cases m with
    | sum16 b d =>
      simp only [rmOk, memOk, Bool.and_eq_true, Bool.not_eq_true', decide_eq_true_eq, ← Bool.not_eq_true] at hrm
      exact decodeModRM_mem rest (hmd16 d) _ _ (by rw [if_pos hrm.1]; exact decodeMem16_sum rest hrm.2)
    | abs16 d =>
      simp only [rmOk, memOk, decide_eq_true_eq] at hrm
      exact decodeModRM_mem rest (by decide) _ _ (by rw [if_pos hrm]; exact decodeMem16_abs rest d)
    | base b d =>
      simp only [rmOk, memOk, Bool.and_eq_true, Bool.not_eq_true', decide_eq_true_eq, ← Bool.not_eq_true, ne_eq] at hrm
      obtain ⟨⟨⟨ha, -⟩, h4⟩, hd⟩ := hrm
      exact decodeModRM_mem rest (hmd32 d) _ _ (by rw [if_neg ha]; exact decodeMem32_base rest _ hb h4 hd)
    | abs32 d =>
      simp only [rmOk, memOk, Bool.and_eq_true, decide_eq_true_eq, ne_eq] at hrm
      exact decodeModRM_mem rest (by decide) _ _ (by rw [if_neg hrm.1]; exact decodeMem32_abs rest hrm.2 x d)
    | rip d =>
      simp only [rmOk, memOk, decide_eq_true_eq] at hrm
      exact decodeModRM_mem rest (by decide) _ _
        (by rw [if_neg (addressSize_of_long64 hrm _), hrm]; exact decodeMem32_rip rest x d)
    | sib sc i b d =>
      simp only [rmOk, memOk, Bool.and_eq_true, Bool.not_eq_true', decide_eq_true_eq, ← Bool.not_eq_true, ne_eq] at hrm
      obtain ⟨⟨⟨ha, hi⟩, -⟩, hd⟩ := hrm
      exact decodeModRM_mem rest (hmd32 d) _ _ (by rw [if_neg ha]; exact decodeSib_sib rest hx hb hi hd)
    | sibAbs sc i d =>
      simp only [rmOk, memOk, Bool.and_eq_true, decide_eq_true_eq, ne_eq] at hrm
      exact decodeModRM_mem rest (by decide) _ _ (by rw [if_neg hrm.1]; exact decodeSib_sibAbs rest hx hrm.2)

theorem decodeMoffs_encode {c : Ctx} {h : Head} {o : Moffs} (ho : moffsOk c h o = true) :
    decodeMoffs c h (o.encode ++ rest) = .ok (o, rest) := by
  unfold decodeMoffs
  cases o with
  | o16 v =>
    rw [of_decide_eq_true ho]
    exact takeLE_encoded rest (w := 16) (n := 2) (by decide) rfl v Moffs.o16
  | o32 v =>
    rw [of_decide_eq_true ho]
    exact takeLE_encoded rest (w := 32) (n := 4) (by decide) rfl v Moffs.o32
  | o64 v =>
    rw [of_decide_eq_true ho]
    show (takeLE 8 (bytesLE 8 v ++ rest) >>= _) = _
    rw [takeLE_encoded_quad]
    rfl

end

/-! The rows. -/

/-- The REX bits of a head that has no REX byte are 0 (R97). -/
theorem RexFits.of_bits {c : Ctx} {h : Head} {x : Rex} (hh : headOk c h = true)
    (hz : h.rex = false → x.w = false ∧ x.r = false ∧ x.x = false ∧ x.b = false) : RexFits c h x := by
  refine ⟨fun hr => by simpa [headOk, hr] using hh, fun hr => ?_⟩
  obtain ⟨w, r, x, b⟩ := x
  obtain ⟨rfl, rfl, rfl, rfl⟩ := hz hr
  rfl

/-- What the encoder writes up to the opcode is decoded as the head and the row of the opcode (R90). -/
theorem decode_head_encode {c : Ctx} {h : Head} {x : Rex} {o : Byte} {op : Opcode} (hx : RexFits c h x)
    (ho : opcodeOf o = some op) (rest : List Byte) : decode c (h.encode x o ++ rest) = decodeRow c h x op rest := by
  obtain ⟨hn, hnr⟩ := opcode_no_prefix (o := o) (by rw [ho]; exact fun h => nomatch h)
  cases hr : h.rex with
  | false =>
    have hb : h.encode x o ++ rest = h.legacyBytes ++ o :: rest := by simp [Head.encode, hr]
    rw [hb, decode_of_legacy (decodeLegacy_legacyBytes h hn rest),
      decodeTail_of_opcode (decodeRex_of_no_rex (fun h => hnr h.2) rest) ho, ← hx.2 hr]
    exact congrArg (decodeRow c · x op rest) (by rw [← hr])
  | true =>
    have hb : h.encode x o ++ rest = h.legacyBytes ++ rexByte x :: o :: rest := by simp [Head.encode, hr]
    have hd : decodeRex c.mode (rexByte x :: o :: rest) = .ok (true, rexOf (rexByte x), o :: rest) := by
      rw [hx.1 hr]
      exact decodeRex_of_isRexByte (isRexByte_rexByte x) hnr hn rest
    rw [hb, decode_of_legacy (decodeLegacy_legacyBytes h (legacyOf_of_isRexByte (isRexByte_rexByte x)) _),
      decodeTail_of_opcode hd ho, rexOf_rexByte]
    exact congrArg (decodeRow c · x op rest) (by rw [← hr])

theorem regHigh_of_regOk {h : Head} {n : RegNum} (hn : regOk h n = true) (hr : h.rex = false) : regHigh n = false := by
  rw [regOk, hr, Bool.false_or, decide_eq_true_eq] at hn
  exact regHigh_of_lt hn

theorem indexHigh_of_indexOk {h : Head} {i : Option RegNum} (hi : indexOk h i = true) (hr : h.rex = false) :
    indexHigh i = false := by
  cases i with
  | none => rfl
  | some n =>
    rw [indexOk, Bool.and_eq_true] at hi
    exact regHigh_of_regOk hi.1 hr

/-- An operand that exists without a REX byte needs no extension bit (R97). -/
theorem rexBits_of_rmOk {c : Ctx} {h : Head} {rm : RM} (hrm : rmOk c h rm = true) (hr : h.rex = false) :
    rm.rexX = false ∧ rm.rexB = false := by
  cases rm with
  | reg n => exact ⟨rfl, regHigh_of_regOk hrm hr⟩
  | mem m =>
    cases m with
    | sum16 | abs16 | abs32 | rip => exact ⟨rfl, rfl⟩
    | base b d =>
      simp only [rmOk, memOk, Bool.and_eq_true] at hrm
      exact ⟨rfl, regHigh_of_regOk hrm.1.1.2 hr⟩
    | sib sc i b d =>
      simp only [rmOk, memOk, Bool.and_eq_true] at hrm
      exact ⟨indexHigh_of_indexOk hrm.1.1.2 hr, regHigh_of_regOk hrm.1.2 hr⟩
    | sibAbs sc i d =>
      simp only [rmOk, memOk, Bool.and_eq_true] at hrm
      exact ⟨indexHigh_of_indexOk hrm.2 hr, rfl⟩

/-- REX.W needs a REX byte. -/
theorem w_of_no_rex {h : Head} {w : Bool} (hw : w = true → h.rex = true) (hr : h.rex = false) : w = false := by
  rw [Bool.eq_false_iff]
  intro e
  rw [hw e] at hr; cases hr

section
variable {c : Ctx} {h : Head} {w : Bool} {o : Byte} {op : Opcode} (hh : headOk c h = true)
  (hw : w = true → h.rex = true) (ho : opcodeOf o = some op) (rest : List Byte)
include hh hw ho

/-- A row with a ModRM byte and a register in its `reg` field. -/
theorem decode_encodeRmReg {rm : RM} {r : RegNum} (hrm : rmOk c h rm = true) (hr : regOk h r = true) :
    decode c (encodeRmReg h w o rm r ++ rest)
      = decodeRow c h { w := w, r := regHigh r, x := rm.rexX, b := rm.rexB } op (rm.encode (regLow r) ++ rest) := by
  rw [encodeRmReg, List.append_assoc]
  refine decode_head_encode (RexFits.of_bits hh fun hz => ?_) ho _
  obtain ⟨hx, hb⟩ := rexBits_of_rmOk hrm hz
  exact ⟨w_of_no_rex hw hz, regHigh_of_regOk hr hz, hx, hb⟩

/-- A row with a ModRM byte and other bits in its `reg` field. -/
theorem decode_encodeRmField {rm : RM} (hrm : rmOk c h rm = true) (f : BitVec 3) :
    decode c (encodeRmField h w o rm f ++ rest)
      = decodeRow c h { w := w, r := false, x := rm.rexX, b := rm.rexB } op (rm.encode f ++ rest) := by
  rw [encodeRmField, List.append_assoc]
  refine decode_head_encode (RexFits.of_bits hh fun hz => ?_) ho _
  obtain ⟨hx, hb⟩ := rexBits_of_rmOk hrm hz
  exact ⟨w_of_no_rex hw hz, rfl, hx, hb⟩

theorem decode_encodeMoffs (f : Moffs) :
    decode c (encodeMoffs h w o f ++ rest)
      = decodeRow c h { w := w, r := false, x := false, b := false } op (f.encode ++ rest) := by
  rw [encodeMoffs, List.append_assoc]
  exact decode_head_encode (RexFits.of_bits hh fun hz => ⟨w_of_no_rex hw hz, rfl, rfl, rfl⟩) ho _

end

/-- The opcode bytes B0 to BF (R98). -/
theorem opcodeOf_opReg (n : BitVec 3) :
    opcodeOf (0b10110#5 ++ n) = some (.r8Imm n) ∧ opcodeOf (0b10111#5 ++ n) = some (.rImm n) := by
  revert n; decide

theorem decode_encodeOpReg {c : Ctx} {h : Head} {w : Bool} {five : BitVec 5} {op : Opcode} {r : RegNum}
    (hh : headOk c h = true) (hw : w = true → h.rex = true) (ho : opcodeOf (five ++ regLow r) = some op)
    (hr : regOk h r = true) (imm rest : List Byte) :
    decode c (encodeOpReg h w five r imm ++ rest)
      = decodeRow c h { w := w, r := false, x := false, b := regHigh r } op (imm ++ rest) := by
  rw [encodeOpReg, List.append_assoc]
  exact decode_head_encode
    (RexFits.of_bits hh fun hz => ⟨w_of_no_rex hw hz, rfl, rfl, regHigh_of_regOk hr hz⟩) ho _

end Sys2Proof.Machine
end

section
/-! PROOF. The round trip of all 35 rows (spec/30_encoding.md R111 to R113), by the shape each is written in: a shape's head,
opcode and operands are read back, and what is left of the row is the choice of the instruction by REX and the operand size. -/

namespace Sys2Proof.Machine

/-! The shapes of the rows. -/

/-- The REX bits that the encoder writes for a ModRM operand (R97). -/
abbrev rmRex (w r : Bool) (rm : RM) : Rex where
  w := w
  r := r
  x := rm.rexX
  b := rm.rexB

section
variable {c : Ctx} {h : Head} {w : Bool} {o : Byte} {op : Opcode} {i : Instr} {rest : List Byte}
  (hh : headOk c h = true) (hw : w = true → h.rex = true)
include hh hw

/-- Rows MR and RM: the ModRM operand, and a register in the `reg` field. -/
theorem decode_rmReg_row (ho : opcodeOf o = some op) {rm : RM} {r : RegNum} (hrm : rmOk c h rm = true)
    (hr : regOk h r = true) {f : BitVec 3 × RM × List Byte → Except DecodeError (Instr × List Byte)}
    (hrow : ∀ bs, decodeRow c h (rmRex w (regHigh r) rm) op bs
      = (decodeModRM c h (rmRex w (regHigh r) rm) bs >>= f))
    (hf : f (regLow r, rm, rest) = .ok (i, rest)) : decode c (encodeRmReg h w o rm r ++ rest) = .ok (i, rest) := by
  rw [decode_encodeRmReg hh hw ho rest hrm hr, hrow, decodeModRM_encode rest rfl rfl hrm]
  exact hf

/-- Rows whose `reg` field names a segment register. -/
theorem decode_rmField_row (ho : opcodeOf o = some op) {rm : RM} (hrm : rmOk c h rm = true) (g : BitVec 3)
    {f : BitVec 3 × RM × List Byte → Except DecodeError (Instr × List Byte)}
    (hrow : ∀ bs, decodeRow c h (rmRex w false rm) op bs = (decodeModRM c h (rmRex w false rm) bs >>= f))
    (hf : f (g, rm, rest) = .ok (i, rest)) : decode c (encodeRmField h w o rm g ++ rest) = .ok (i, rest) := by
  rw [decode_encodeRmField hh hw ho rest hrm, hrow, decodeModRM_encode rest rfl rfl hrm]
  exact hf

/-- Rows FD and TD: an offset. -/
theorem decode_moffs_row (ho : opcodeOf o = some op) {a : Moffs} (ha : moffsOk c h a = true)
    {f : Moffs × List Byte → Except DecodeError (Instr × List Byte)}
    (hrow : ∀ bs, decodeRow c h { w := w, r := false, x := false, b := false } op bs = (decodeMoffs c h bs >>= f))
    (hf : f (a, rest) = .ok (i, rest)) : decode c (encodeMoffs h w o a ++ rest) = .ok (i, rest) := by
  rw [decode_encodeMoffs hh hw ho rest, hrow, decodeMoffs_encode rest ha]
  exact hf

/-- Rows MI: the ModRM operand with the digit 0, and an immediate. -/
theorem decode_rmImm_row (ho : opcodeOf o = some op) {rm : RM} (hrm : rmOk c h rm = true) {n k : Nat} (hn : n ≤ 64)
    (hk : n = 8 * k) (v : BitVec n) {g : BitVec n → Instr}
    {f : BitVec 3 × RM × List Byte → Except DecodeError (Instr × List Byte)}
    (hrow : ∀ bs, decodeRow c h (rmRex w false rm) op bs = (decodeModRM c h (rmRex w false rm) bs >>= f))
    (hf : ∀ bs, f (0, rm, bs) = (takeLE k bs >>= fun p => .ok (g (p.1.setWidth n), p.2))) :
    decode c ((encodeRmField h w o rm 0 ++ bytesLE k (v.setWidth 64)) ++ rest) = .ok (g v, rest) := by
  rw [List.append_assoc, decode_encodeRmField hh hw ho _ hrm, hrow, decodeModRM_encode _ rfl rfl hrm]
  exact (hf _).trans (takeLE_encoded rest hn hk v g)

/-- Rows OI: the register in the opcode byte, and an immediate. -/
theorem decode_opReg_row {five : BitVec 5} {d : RegNum} (ho : opcodeOf (five ++ regLow d) = some op)
    (hd : regOk h d = true) {n k : Nat} (hn : n ≤ 64) (hk : n = 8 * k) (v : BitVec n) {g : BitVec n → Instr}
    (hrow : ∀ bs, decodeRow c h { w := w, r := false, x := false, b := regHigh d } op bs
      = (takeLE k bs >>= fun p => .ok (g (p.1.setWidth n), p.2))) :
    decode c (encodeOpReg h w five d (bytesLE k (v.setWidth 64)) ++ rest) = .ok (g v, rest) := by
  rw [decode_encodeOpReg hh hw ho hd, hrow]
  exact takeLE_encoded rest hn hk v g

end

/-- A row without REX.W has the operand size of its column (R112). -/
theorem operandSize_of_sizeOk {c : Ctx} {h : Head} {sz : Size} (hs : sizeOk c h sz = true) :
    operandSize c false h.p66 = sz := of_decide_eq_true hs

/-- A row with REX.W has the operand size 64 (R94, R95). -/
theorem operandSize_of_rex {c : Ctx} {h : Head} (hh : headOk c h = true) (hr : h.rex = true) :
    operandSize c true h.p66 = .qword :=
  operandSize_of_w (by simpa [headOk, hr] using hh) h.p66

theorem rex_of_not_w {h : Head} : false = true → h.rex = true := fun e => (nomatch e)

/-- Settles O1: each row by its shape; the REX byte and the operand size choose it among the rows of its opcode. -/
theorem encodedInstructionDecodesToItself : Obligations.EncodedInstructionDecodesToItself := by
  intro c i rest hwf
  obtain ⟨hh, hr⟩ := Bool.and_eq_true_iff.mp hwf
  cases i with
  | movRm8R8 h d r | movRm8R8Rex h d r =>
    simp only [rowOk, Bool.and_eq_true, Bool.not_eq_true'] at hr
    obtain ⟨⟨hrex, hrm⟩, hreg⟩ := hr
    exact decode_rmReg_row (h := h) hh rex_of_not_w rfl hrm hreg (fun _ => rfl) (by simp [regNum_regHigh_regLow, hrex])
  | movRm16R16 h d r | movRm32R32 h d r =>
    simp only [rowOk, Bool.and_eq_true] at hr
    obtain ⟨⟨hs, hrm⟩, hreg⟩ := hr
    exact decode_rmReg_row (h := h) hh rex_of_not_w rfl hrm hreg (fun _ => rfl)
      (by simp [regNum_regHigh_regLow, operandSize_of_sizeOk hs])
  | movRm64R64 h d r =>
    simp only [rowOk, Bool.and_eq_true] at hr
    obtain ⟨⟨hrex, hrm⟩, hreg⟩ := hr
    exact decode_rmReg_row (h := h) hh (fun _ => hrex) rfl hrm hreg (fun _ => rfl)
      (by simp [regNum_regHigh_regLow, operandSize_of_rex (h := h) hh hrex])
  | movR8Rm8 h d r | movR8Rm8Rex h d r =>
    simp only [rowOk, Bool.and_eq_true, Bool.not_eq_true'] at hr
    obtain ⟨⟨hrex, hreg⟩, hrm⟩ := hr
    exact decode_rmReg_row (h := h) hh rex_of_not_w rfl hrm hreg (fun _ => rfl) (by simp [regNum_regHigh_regLow, hrex])
  | movR16Rm16 h d r | movR32Rm32 h d r =>
    simp only [rowOk, Bool.and_eq_true] at hr
    obtain ⟨⟨hs, hreg⟩, hrm⟩ := hr
    exact decode_rmReg_row (h := h) hh rex_of_not_w rfl hrm hreg (fun _ => rfl)
      (by simp [regNum_regHigh_regLow, operandSize_of_sizeOk hs])
  | movR64Rm64 h d r =>
    simp only [rowOk, Bool.and_eq_true] at hr
    obtain ⟨⟨hrex, hreg⟩, hrm⟩ := hr
    exact decode_rmReg_row (h := h) hh (fun _ => hrex) rfl hrm hreg (fun _ => rfl)
      (by simp [regNum_regHigh_regLow, operandSize_of_rex (h := h) hh hrex])
  | movRm16Sreg h d f | movR32M16Sreg h d f =>
    obtain ⟨hs, hrm⟩ := Bool.and_eq_true_iff.mp hr
    exact decode_rmField_row (h := h) hh rex_of_not_w rfl hrm _ (fun _ => rfl)
      (by simp [sregField_sregBits, operandSize_of_sizeOk hs])
  | movR64M16Sreg h d f =>
    obtain ⟨hrex, hrm⟩ := Bool.and_eq_true_iff.mp hr
    exact decode_rmField_row (h := h) hh (fun _ => hrex) rfl hrm _ (fun _ => rfl)
      (by simp [sregField_sregBits, operandSize_of_rex (h := h) hh hrex])
  | movSregRm16 h f d =>
    exact decode_rmField_row (h := h) hh rex_of_not_w rfl hr _ (fun _ => rfl) (by simp [sregField_sregBits])
  | movSregRm64 h f d =>
    obtain ⟨hrex, hrm⟩ := Bool.and_eq_true_iff.mp hr
    exact decode_rmField_row (h := h) hh (fun _ => hrex) rfl hrm _ (fun _ => rfl) (by simp [sregField_sregBits])
  | movAlMoffs8 h a | movMoffs8Al h a => exact decode_moffs_row (h := h) hh rex_of_not_w rfl hr (fun _ => rfl) rfl
  | movAlMoffs8RexW h a | movMoffs8AlRexW h a =>
    obtain ⟨hrex, ha⟩ := Bool.and_eq_true_iff.mp hr
    exact decode_moffs_row (h := h) hh (fun _ => hrex) rfl ha (fun _ => rfl) rfl
  | movAxMoffs16 h a | movEaxMoffs32 h a | movMoffs16Ax h a | movMoffs32Eax h a =>
    obtain ⟨hs, ha⟩ := Bool.and_eq_true_iff.mp hr
    exact decode_moffs_row (h := h) hh rex_of_not_w rfl ha (fun _ => rfl) (by simp [operandSize_of_sizeOk hs])
  | movRaxMoffs64 h a | movMoffs64Rax h a =>
    obtain ⟨hrex, ha⟩ := Bool.and_eq_true_iff.mp hr
    exact decode_moffs_row (h := h) hh (fun _ => hrex) rfl ha (fun _ => rfl) (by simp [operandSize_of_rex (h := h) hh hrex])
  | movR8Imm8 h d v | movR8Imm8Rex h d v =>
    simp only [rowOk, Bool.and_eq_true, Bool.not_eq_true'] at hr
    obtain ⟨hrex, hreg⟩ := hr
    rw [encode]
    exact decode_opReg_row (h := h) (n := 8) (k := 1) hh rex_of_not_w (opcodeOf_opReg (regLow d)).1 hreg (by decide) rfl v
      fun _ => by simp [decodeRow, hrex, regNum_regHigh_regLow]
  | movR16Imm16 h d v =>
    simp only [rowOk, Bool.and_eq_true] at hr
    obtain ⟨hs, hreg⟩ := hr
    rw [encode]
    exact decode_opReg_row (h := h) (n := 16) (k := 2) hh rex_of_not_w (opcodeOf_opReg (regLow d)).2 hreg (by decide) rfl v
      fun _ => by simp [decodeRow, operandSize_of_sizeOk hs, regNum_regHigh_regLow]
  | movR32Imm32 h d v =>
    simp only [rowOk, Bool.and_eq_true] at hr
    obtain ⟨hs, hreg⟩ := hr
    rw [encode]
    exact decode_opReg_row (h := h) (n := 32) (k := 4) hh rex_of_not_w (opcodeOf_opReg (regLow d)).2 hreg (by decide) rfl v
      fun _ => by simp [decodeRow, operandSize_of_sizeOk hs, regNum_regHigh_regLow]
  | movR64Imm64 h d v =>
    simp only [rowOk, Bool.and_eq_true] at hr
    obtain ⟨hrex, hreg⟩ := hr
    rw [encode]
    refine (decode_encodeOpReg (h := h) hh (fun _ => hrex) (opcodeOf_opReg (regLow d)).2 hreg _ rest).trans ?_
    simp [decodeRow, operandSize_of_rex (h := h) hh hrex, takeLE_encoded_quad, regNum_regHigh_regLow, Bind.bind, Except.bind]
  | movRm8Imm8 h d v | movRm8Imm8Rex h d v =>
    simp only [rowOk, Bool.and_eq_true, Bool.not_eq_true'] at hr
    obtain ⟨hrex, hrm⟩ := hr
    rw [encode]
    exact decode_rmImm_row (h := h) (n := 8) (k := 1) (op := .rm8Imm) hh rex_of_not_w rfl hrm (by decide) rfl v (fun _ => rfl)
      fun _ => by simp [hrex]
  | movRm16Imm16 h d v =>
    simp only [rowOk, Bool.and_eq_true] at hr
    obtain ⟨hs, hrm⟩ := hr
    rw [encode]
    exact decode_rmImm_row (h := h) (n := 16) (k := 2) (op := .rmImm) hh rex_of_not_w rfl hrm (by decide) rfl v (fun _ => rfl)
      fun _ => by simp [operandSize_of_sizeOk hs]
  | movRm32Imm32 h d v =>
    simp only [rowOk, Bool.and_eq_true] at hr
    obtain ⟨hs, hrm⟩ := hr
    rw [encode]
    exact decode_rmImm_row (h := h) (n := 32) (k := 4) (op := .rmImm) hh rex_of_not_w rfl hrm (by decide) rfl v (fun _ => rfl)
      fun _ => by simp [operandSize_of_sizeOk hs]
  | movRm64Imm32 h d v =>
    simp only [rowOk, Bool.and_eq_true] at hr
    obtain ⟨hrex, hrm⟩ := hr
    rw [encode]
    exact decode_rmImm_row (h := h) (n := 32) (k := 4) (op := .rmImm) hh (fun _ => hrex) rfl hrm (by decide) rfl v (fun _ => rfl)
      fun _ => by simp [operandSize_of_rex (h := h) hh hrex]

/-- Settles O8: the fetch finds the bytes of the instruction, of which there are at most sixteen, and decoding answers it. -/
theorem encodedBytesAreFetched : Obligations.EncodedBytesAreFetched := by
  intro s i hwf hcode
  have hdec := encodedInstructionDecodesToItself s.ctx i
  obtain ⟨-, -, ⟨front, hfront, hlen⟩, h16, -⟩ :=
    (decodedInstructionFitsContextAndLength s.ctx (encode i ++ [])).1 i [] (hdec [] hwf)
  have hl : (encode i).length ≤ 0 + Config.maxBytes := by
    rw [List.append_cancel_right hfront, hlen]
    exact h16
  obtain ⟨rest, hr⟩ := fetchFrom_of_bytes s (encode i) hcode Config.maxBytes 0 (Nat.zero_le _) hl
  rw [List.drop_zero] at hr
  rw [fetchInstr, fetchBytes, hr, hdec rest hwf]

/-- Settles O6, by evaluating the decoder on each word. -/
theorem sampleWordsDecode : Obligations.SampleWordsDecode := by
  unfold Obligations.SampleWordsDecode
  decide

end Sys2Proof.Machine
end

section
/-! PROOF. The step around an instruction (spec/00_scope.md R13, spec/10_state.md R27, R40): delivery of events, the advance of
the pc and of `inhibit_events`, and precise exceptions (spec/60_exceptions.md section 2). Every row is an operation settled in
the state it begins in (`exec_eq_settle`), which says what its faults are. -/

namespace Sys2Proof.Machine

/-- Every row settles an operation. -/
theorem exec_eq_settle (i : Instr) (s : State) : ∃ x, exec i s = settle s x := by
  cases i <;> exact ⟨_, rfl⟩

/-- Settles O14: an operation that raises leaves the state it began in. -/
theorem exceptionsArePrecise : Obligations.ExceptionsArePrecise := by
  intro i s e left hx
  obtain ⟨x, he⟩ := exec_eq_settle i s
  rw [he] at hx
  exact ((settle_eq_exception ..).mp hx).2

/-- The two ways to say that an event is delivered. -/
theorem delivers_iff (s : State) : s.delivers = true ↔ s.inhibitEvents = false ∧ s.events.head? = some true := by
  have hh : s.events.headD false = true ↔ s.events.head? = some true := by
    cases s.events with
    | nil => exact ⟨fun h => (nomatch h), fun h => (nomatch h)⟩
    | cons b bs => cases b <;> simp
  rw [State.delivers, State.eventPending, Bool.and_eq_true, Bool.not_eq_true', hh]

/-- Nothing past the boundary is an interruption. -/
theorem runInstr_ne_interrupted (s : State) : runInstr s ≠ .fault .interrupted := by
  unfold runInstr
  cases fetchInstr s with
  | error e => exact settle_ne_interrupted s _
  | ok i =>
    obtain ⟨x, he⟩ := exec_eq_settle i s
    have hn := settle_ne_interrupted s x
    simp only [he]
    cases hx : settle s x with
    | next t => exact fun h => nomatch h
    | fault f => rw [hx] at hn; exact hn
    | refused r => exact fun h => nomatch h

theorem step_of_delivers {s : State} (h : s.delivers = true) : step s = .fault .interrupted := if_pos h

theorem step_of_not_delivers {s : State} (h : s.delivers = false) : step s = runInstr s.passBoundary :=
  if_neg (by rw [h]; exact Bool.false_ne_true)

/-- Settles O9: only the boundary is interrupted, and only by an event that is delivered. -/
theorem eventsAreDeliveredUnlessInhibited : Obligations.EventsAreDeliveredUnlessInhibited := by
  intro s
  rw [← delivers_iff]
  refine ⟨fun h => ?_, step_of_delivers⟩
  cases hd : s.delivers with
  | true => rfl
  | false =>
    rw [step_of_not_delivers hd] at h
    exact absurd h (runInstr_ne_interrupted _)

/-- `loadsSS` is the destination SS (R40). -/
theorem loadsSS_eq (i : Instr) : loadsSS i = decide (destSeg i = some (.seg .ss)) := by
  cases i with
  | movSregRm16 | movSregRm64 => simp [loadsSS, destSeg]
  | _ => rfl

/-- An exception of a step leaves `inhibit_events` false, of the fetch and of the row alike (R13, R40). -/
theorem inhibit_of_exception {s left : State} {e : Exception} (h : runInstr s = .fault (.exception e left)) :
    left.inhibitEvents = false := by
  unfold runInstr at h
  cases hf : fetchInstr s with
  | error e' =>
    rw [hf] at h
    rw [((settle_eq_exception ..).mp h).2]
    rfl
  | ok i =>
    rw [hf] at h
    cases hx : exec i s with
    | next t | refused r => simp only [hx, frame] at h; cases h
    | fault f =>
      simp only [hx, frame] at h
      cases h
      rw [exceptionsArePrecise i s e left hx]

/-- Settles O10: InhibitAfter for what completes, precise exceptions for what raises, and delivery for the rest. -/
theorem movToStackSegmentInhibitsEvents : Obligations.MovToStackSegmentInhibitsEvents := by
  intro s
  refine ⟨fun t ht => ?_, fun e left h => ?_, fun hi h => ?_⟩
  · obtain ⟨-, i, u, hf, hu, rfl⟩ := (step_eq_next s t).mp ht
    obtain ⟨-, hinh, -⟩ := (exec_onlyData hu).control
    refine ⟨i, hf, fun hd hi => ?_, fun hd => ?_⟩
    · have hu' : u.inhibitEvents = false := hinh.trans hi
      show (inhibitAfter (loadsSS i) u.inhibitEvents u.draws).1 = true
      rw [loadsSS_eq, hd, hu']
      rfl
    · show (inhibitAfter (loadsSS i) u.inhibitEvents u.draws).1 = false
      rw [loadsSS_eq, decide_eq_false hd]
      rfl
  · cases hd : s.delivers with
    | true => rw [step_of_delivers hd] at h; cases h
    | false => rw [step_of_not_delivers hd] at h; exact inhibit_of_exception h
  · rw [((eventsAreDeliveredUnlessInhibited s).mp h).1] at hi
    cases hi

/-- The next pc as a number: modulo the width of the mode (R27). -/
theorem nextPc_toNat (s : State) (n : Nat) :
    (s.mode = .long64 → (nextPc s n).toNat = (s.pc.toNat + n) % 2 ^ 64)
      ∧ (s.mode ≠ .long64 → s.csD = .d32 → (nextPc s n).toNat = (s.pc.toNat + n) % 2 ^ 32)
      ∧ (s.mode ≠ .long64 → s.csD = .d16 → (nextPc s n).toNat = (s.pc.toNat + n) % 2 ^ 16) := by
  have hsum : (s.pc + BitVec.ofNat 64 n).toNat = (s.pc.toNat + n) % 2 ^ 64 := by simp
  unfold nextPc
  cases hm : s.mode with
  | long64 => exact ⟨fun _ => hsum, fun h => absurd rfl h, fun h => absurd rfl h⟩
  | real | prot | v8086 | compat =>
    refine ⟨fun h => (nomatch h), fun _ hd => ?_, fun _ hd => ?_⟩
    all_goals
      simp only [hd, AddrSize.trunc, BitVec.toNat_setWidth, hsum]
      omega

/-- Settles O11: the advance is from the state the instruction leaves, whose pc and mode are those before it. -/
theorem completedStepAdvancesPc : Obligations.CompletedStepAdvancesPc := by
  intro s t ht
  obtain ⟨-, i, u, hf, hu, rfl⟩ := (step_eq_next s t).mp ht
  obtain ⟨hpc, -, -, -, hm, hc, -⟩ := (exec_onlyData hu).control
  have hn := nextPc_toNat u i.length
  rw [hpc, hm, hc] at hn
  exact ⟨i, hf, hn⟩

/-- The advance, field by field (R27, R40). -/
theorem advance_eq (i : Instr) (t : State) : advance i t =
    { t with
      pc :=
        if t.mode = .long64 then t.pc + BitVec.ofNat 64 i.length
        else if t.csD = .d32 then ((t.pc + BitVec.ofNat 64 i.length).setWidth 32).setWidth 64
        else ((t.pc + BitVec.ofNat 64 i.length).setWidth 16).setWidth 64
      inhibitEvents := decide (destSeg i = some (.seg .ss)) && (!t.inhibitEvents || Config.freeInhibit t.draws)
      draws := if destSeg i = some (.seg .ss) ∧ t.inhibitEvents = true then t.draws + 1 else t.draws } := by
  have hpc : nextPc t i.length = if t.mode = .long64 then t.pc + BitVec.ofNat 64 i.length
      else if t.csD = .d32 then ((t.pc + BitVec.ofNat 64 i.length).setWidth 32).setWidth 64
      else ((t.pc + BitVec.ofNat 64 i.length).setWidth 16).setWidth 64 := by
    unfold nextPc
    cases t.mode with
    | long64 => rfl
    | real | prot | v8086 | compat => cases t.csD <;> rfl
  have hi : inhibitAfter (loadsSS i) t.inhibitEvents t.draws
      = (decide (destSeg i = some (.seg .ss)) && (!t.inhibitEvents || Config.freeInhibit t.draws),
        if destSeg i = some (.seg .ss) ∧ t.inhibitEvents = true then t.draws + 1 else t.draws) := by
    rw [loadsSS_eq]
    by_cases hd : destSeg i = some (.seg .ss)
    · cases t.inhibitEvents <;> simp [inhibitAfter, hd]
    · simp [inhibitAfter, hd]
  rw [advance, hi, hpc]
  rfl

/-- Settles O7: the frame of the step, unfolded at the instruction fetched. -/
theorem stepRunsTheDecodedInstruction : Obligations.StepRunsTheDecodedInstruction := by
  intro s i hd hf
  have hs : step s = frame i (exec i s.passBoundary) := by
    rw [step_of_not_delivers hd, runInstr, hf]
  refine ⟨fun f h => ?_, fun r h => ?_, fun t h => ?_⟩
  · rw [hs, h]; rfl
  · rw [hs, h]; rfl
  · rw [hs, h, frame, advance_eq]

end Sys2Proof.Machine
end

section
/-! PROOF. What a step does when an instruction byte cannot be fetched, or the bytes are refused (spec/10_state.md R28,
spec/60_exceptions.md R238). The decoder's answer, once it is not a want of bytes, does not depend on the bytes after it
(`decode_extends`); so the step ends with the stop of the first byte that cannot be fetched, or with the decoder's refusal. -/

namespace Sys2Proof.Machine

/-- A part of the decoder that answers the same when more bytes follow, unless it wanted more. -/
def Extends {α : Type} (f : List Byte → Except DecodeError (α × List Byte)) : Prop :=
  ∀ bs ys, f bs = .error .needMore ∨ f (bs ++ ys) = (f bs).map fun p => (p.1, p.2 ++ ys)

section
variable {α β : Type}

theorem Extends.pure (a : α) : Extends fun bs => .ok (a, bs) := fun _ _ => .inr rfl

theorem Extends.error (e : DecodeError) : Extends fun _ => (.error e : Except DecodeError (α × List Byte)) :=
  fun _ _ => .inr rfl

theorem Extends.bind {f : List Byte → Except DecodeError (α × List Byte)}
    {g : α × List Byte → Except DecodeError (β × List Byte)} (hf : Extends f) (hg : ∀ a, Extends fun bs => g (a, bs)) :
    Extends fun bs => f bs >>= g := by
  intro bs ys
  rcases hf bs ys with h | h
  · exact .inl (by simp only [h]; rfl)
  · cases hb : f bs with
    | error e => exact .inr (by simp only [h, hb]; rfl)
    | ok p =>
      obtain ⟨a, rest⟩ := p
      simp only [h, hb]
      exact hg a rest ys

theorem Extends.ite {p : Prop} [Decidable p] {f g : List Byte → Except DecodeError (α × List Byte)} (hf : Extends f)
    (hg : Extends g) : Extends fun bs => if p then f bs else g bs := by
  by_cases h : p
  · simpa only [if_pos h] using hf
  · simpa only [if_neg h] using hg

end

theorem takeLE_extends (n : Nat) : Extends (takeLE n) := by
  intro bs ys
  unfold takeLE
  by_cases h : bs.length < n
  · exact .inl (if_pos h)
  · have hl : ¬(bs ++ ys).length < n := by rw [List.length_append]; omega
    rw [if_neg h, if_neg hl, List.take_append_of_le_length (by omega), List.drop_append_of_le_length (by omega)]
    exact .inr rfl

theorem decodeMem16_extends (md : BitVec 2) (rm : BitVec 3) : Extends (decodeMem16 md rm) :=
  .ite (.ite ((takeLE_extends 2).bind fun _ => .pure _) (.pure _))
    (.ite ((takeLE_extends 1).bind fun _ => .pure _) ((takeLE_extends 2).bind fun _ => .pure _))

theorem decodeDisp32_extends (md : BitVec 2) : Extends (decodeDisp32 md) :=
  .ite (.pure _) (.ite ((takeLE_extends 1).bind fun _ => .pure _) ((takeLE_extends 4).bind fun _ => .pure _))

/-- A part that reads one byte first. -/
theorem Extends.of_cons {α : Type} {f : List Byte → Except DecodeError (α × List Byte)}
    (h0 : f [] = .error .needMore) (hf : ∀ b, Extends fun bs => f (b :: bs)) : Extends f := by
  intro bs ys
  cases bs with
  | nil => exact .inl h0
  | cons b bs => exact hf b bs ys

theorem decodeSib_extends (x : Rex) (md : BitVec 2) : Extends (decodeSib x md) :=
  .of_cons rfl fun _ =>
    .ite ((takeLE_extends 4).bind fun _ => .pure _) ((decodeDisp32_extends md).bind fun _ => .pure _)

theorem decodeMem32_extends (m : Mode) (x : Rex) (md : BitVec 2) (rm : BitVec 3) : Extends (decodeMem32 m x md rm) :=
  .ite (decodeSib_extends x md)
    (.ite ((takeLE_extends 4).bind fun _ => .ite (.pure _) (.pure _)) ((decodeDisp32_extends md).bind fun _ => .pure _))

section
variable (c : Ctx) (h : Head) (x : Rex)

theorem decodeModRM_extends : Extends fun bs => (decodeModRM c h x bs).map fun r => ((r.1, r.2.1), r.2.2) := by
  refine .of_cons rfl fun b => ?_
  have hmem : ∀ f : List Byte → Except DecodeError (MemOp × List Byte), Extends f →
      Extends fun bs => (f bs >>= fun r => .ok (b.extractLsb' 3 3, RM.mem r.1, r.2)).map
        fun r => ((r.1, r.2.1), r.2.2) := by
    intro f hf bs ys
    rcases hf bs ys with h | h
    · exact .inl (by simp only [h]; rfl)
    · cases hb : f bs <;> exact .inr (by simp only [h, hb]; rfl)
  unfold decodeModRM
  by_cases h3 : b.extractLsb' 6 2 = 3
  · simp only [if_pos h3]
    exact fun _ _ => .inr rfl
  · simp only [if_neg h3]
    by_cases ha : addressSize c h.p67 = .a16
    · simp only [if_pos ha]
      exact hmem _ (decodeMem16_extends _ _)
    · simp only [if_neg ha]
      exact hmem _ (decodeMem32_extends _ _ _ _)

theorem decodeModRM_bind_extends {α : Type} {f : BitVec 3 × RM × List Byte → Except DecodeError (α × List Byte)}
    (hf : ∀ reg rm, Extends fun bs => f (reg, rm, bs)) : Extends fun bs => decodeModRM c h x bs >>= f := by
  have he : (fun bs => decodeModRM c h x bs >>= f)
      = fun bs => (decodeModRM c h x bs).map (fun r => ((r.1, r.2.1), r.2.2)) >>= fun r => f (r.1.1, r.1.2, r.2) := by
    funext bs
    cases decodeModRM c h x bs <;> rfl
  rw [he]
  exact (decodeModRM_extends c h x).bind fun a => hf a.1 a.2

theorem decodeMoffs_extends : Extends (decodeMoffs c h) := by
  unfold decodeMoffs
  cases addressSize c h.p67 with
  | a16 => exact (takeLE_extends 2).bind fun _ => .pure _
  | a32 => exact (takeLE_extends 4).bind fun _ => .pure _
  | a64 => exact (takeLE_extends 8).bind fun _ => .pure _

theorem decodeRow_extends (op : Opcode) : Extends (decodeRow c h x op) := by
  unfold decodeRow
  cases op with
  | rm8R8 | r8Rm8 => exact decodeModRM_bind_extends c h x fun _ _ => .pure _
  | rmR | rRm =>
    refine decodeModRM_bind_extends c h x fun _ _ => ?_
    cases operandSize c x.w h.p66 <;> exact .pure _
  | rmSreg =>
    refine decodeModRM_bind_extends c h x fun _ _ => .ite (.error _) ?_
    cases operandSize c x.w h.p66 <;> exact .pure _
  | sregRm => exact decodeModRM_bind_extends c h x fun _ _ => .ite (.error _) (.ite (.pure _) (.pure _))
  | alMoffs | moffsAl => exact (decodeMoffs_extends c h).bind fun _ => .pure _
  | accMoffs | moffsAcc =>
    refine (decodeMoffs_extends c h).bind fun _ => ?_
    cases operandSize c x.w h.p66 <;> exact .pure _
  | r8Imm n => exact (takeLE_extends 1).bind fun _ => .pure _
  | rImm n =>
    cases operandSize c x.w h.p66 with
    | qword => exact (takeLE_extends 8).bind fun _ => .pure _
    | dword => exact (takeLE_extends 4).bind fun _ => .pure _
    | word | byte => exact (takeLE_extends 2).bind fun _ => .pure _
  | rm8Imm =>
    exact decodeModRM_bind_extends c h x fun _ _ => .ite ((takeLE_extends 1).bind fun _ => .pure _) (.error _)
  | rmImm =>
    refine decodeModRM_bind_extends c h x fun _ _ => .ite ?_ (.error _)
    cases operandSize c x.w h.p66 with
    | qword | dword => exact (takeLE_extends 4).bind fun _ => .pure _
    | word | byte => exact (takeLE_extends 2).bind fun _ => .pure _

end

theorem decodeLegacy_extends (h : Head) : Extends (decodeLegacy h) := by
  intro bs ys
  induction bs generalizing h with
  | nil => exact .inl rfl
  | cons b bs ih =>
    cases hl : legacyOf b with
    | none => exact .inr (by rw [List.cons_append, decodeLegacy_of_none hl, decodeLegacy_of_none hl]; rfl)
    | some l =>
      cases ha : h.add l with
      | error e => exact .inr (by rw [List.cons_append, decodeLegacy_of_add_error hl ha, decodeLegacy_of_add_error hl ha]; rfl)
      | ok h' => rw [List.cons_append, decodeLegacy_of_add hl ha, decodeLegacy_of_add hl ha]; exact ih h'

theorem decodeRex_extends (m : Mode) :
    Extends fun bs => (decodeRex m bs).map fun r => ((r.1, r.2.1), r.2.2) := by
  refine .of_cons rfl fun b bs ys => ?_
  by_cases hb : m = .long64 ∧ isRex b = true
  · cases bs with
    | nil => exact .inl (by simp only [decodeRex, if_pos hb]; rfl)
    | cons o bs =>
      right
      simp only [decodeRex, List.cons_append, if_pos hb]
      split <;> rfl
  · right
    simp only [decodeRex, if_neg hb]
    rfl

theorem decodeTail_extends (c : Ctx) (h : Head) : Extends (decodeTail c h) := by
  have he : decodeTail c h = fun bs => (decodeRex c.mode bs).map (fun r => ((r.1, r.2.1), r.2.2)) >>= fun r =>
      match r.2 with
      | [] => .error .needMore
      | o :: bs =>
        match opcodeOf o with
        | none => .error (.notMov o)
        | some op => decodeRow c { h with rex := r.1.1 } r.1.2 op bs := by
    funext bs
    unfold decodeTail
    cases decodeRex c.mode bs <;> rfl
  rw [he]
  refine (decodeRex_extends c.mode).bind fun r => .of_cons rfl fun o => ?_
  simp only
  cases opcodeOf o with
  | none => exact .error _
  | some op => exact decodeRow_extends c _ _ op

/-- The decoder's answer does not depend on the bytes after the instruction. -/
theorem decode_extends (c : Ctx) : Extends (decode c) :=
  (decodeLegacy_extends Head.empty).bind fun h => decodeTail_extends c h

/-! The fetch. -/

/-- Sixteen bytes are enough, so bytes that are too few are fewer (D20, log 23). -/
theorem length_of_needMore {c : Ctx} {bs : List Byte} (h : decode c bs = .error .needMore) :
    bs.length < Config.maxBytes := by
  by_contra hl
  exact (decodedInstructionFitsContextAndLength c bs).2 (Nat.le_of_not_lt hl) h

/-- Where the instruction needs a byte that cannot be fetched, the fetch stops as that byte does. -/
theorem fetchInstr_of_needMore {s : State} {bs : List Byte} {e : Stop}
    (hb : ∀ k (h : k < bs.length), fetchByte s k = .ok bs[k]) (hd : decode s.ctx bs = .error .needMore)
    (he : fetchByte s bs.length = .error e) : fetchInstr s = .error e := by
  have hf := fetchFrom_of_error s bs e hb he Config.maxBytes 0 (Nat.zero_le _)
    (by rw [Nat.zero_add]; exact length_of_needMore hd)
  rw [List.drop_zero] at hf
  rw [fetchInstr, fetchBytes, hf, hd]
  rfl

/-- Where the bytes at hand are enough to refuse, the fetch refuses, whatever lies after them. -/
theorem fetchInstr_of_refusal {s : State} {bs : List Byte} {e : DecodeError}
    (hb : ∀ k (h : k < bs.length), fetchByte s k = .ok bs[k]) (hd : decode s.ctx bs = .error e) (he : e ≠ .needMore) :
    fetchInstr s = .error (decodeStop s (fetchBytes s).2 e) := by
  suffices hs : decode s.ctx (fetchBytes s).1 = .error e by rw [fetchInstr, hs]
  by_cases hl : bs.length ≤ Config.maxBytes
  · obtain ⟨rest, hr⟩ := fetchFrom_of_bytes s bs hb Config.maxBytes 0 (Nat.zero_le _) (by omega)
    rw [List.drop_zero] at hr
    rw [fetchBytes, hr]
    rcases decode_extends s.ctx bs rest with h | h
    · rw [hd] at h; exact absurd (Except.error.inj h) he
    · rw [h, hd]; rfl
  · have hlen : (bs.take Config.maxBytes).length = Config.maxBytes := by rw [List.length_take]; omega
    obtain ⟨rest, hr⟩ := fetchFrom_of_bytes s (bs.take Config.maxBytes)
      (fun k h => by rw [List.getElem_take]; exact hb k (by rw [hlen] at h; omega)) Config.maxBytes 0 (Nat.zero_le _)
      (by omega)
    have hrest : rest = [] := by
      have h16 : ∀ n k, (fetchFrom s n k).1.length ≤ n := by
        intro n
        induction n with
        | zero => intro k; exact le_refl 0
        | succ n ih =>
          intro k
          unfold fetchFrom
          cases fetchByte s k with
          | error e => exact Nat.zero_le _
          | ok b => exact Nat.succ_le_succ (ih (k + 1))
      have := h16 Config.maxBytes 0
      rw [hr, List.drop_zero, List.length_append, hlen] at this
      exact List.length_eq_zero_iff.mp (by omega)
    rw [fetchBytes, hr, hrest, List.drop_zero, List.append_nil]
    rcases decode_extends s.ctx (bs.take Config.maxBytes) (bs.drop Config.maxBytes) with h | h
    · have := length_of_needMore h
      omega
    · rw [List.take_append_drop, hd] at h
      cases ht : decode s.ctx (bs.take Config.maxBytes) with
      | error e' => rw [ht] at h; cases h; rfl
      | ok p => rw [ht] at h; cases h

/-- The offset space as a number (R26, R28). -/
theorem offsetSpace_eq (s : State) :
    offsetSpace s = if s.mode = .long64 then 2 ^ 64 else if s.csD = .d32 then 2 ^ 32 else 2 ^ 16 := by
  unfold offsetSpace
  cases s.mode with
  | long64 => rfl
  | real | prot | v8086 | compat => cases s.csD <;> rfl

/-- A byte may be fetched within the CS limit, or in 64-bit mode at a canonical address (R28, R238). -/
theorem fetchAllowed_iff (s : State) (off : Nat) :
    fetchAllowed s off = true ↔ s.mode ≠ .long64 ∧ off ≤ (s.seg .cs).limit.toNat
      ∨ s.mode = .long64 ∧ Canonical s.params.linAddrWidth (linear s .cs (BitVec.ofNat 64 off)) := by
  unfold fetchAllowed
  cases hm : s.mode with
  | long64 => simp [canonical_iff]
  | real | prot | v8086 | compat => simp

/-- Settles O12: a byte the fetch cannot give ends it, in the order of the checks of one byte; a refusal ends it whatever
follows. -/
theorem fetchAndDecodeFailures : Obligations.FetchAndDecodeFailures := by
  intro s bs hd u off la hb
  have hstop : ∀ e, fetchInstr u = .error e → step s = settle u (.error e) := fun e => step_of_fetch_error s e hd
  have hrefuse : ∀ e r, decode u.ctx bs = .error e → e ≠ .needMore → decodeStop u (fetchBytes u).2 e = .refuse r →
      step s = .refused r := by
    intro e r he hn hr
    rw [hstop _ (fetchInstr_of_refusal hb he hn), hr]
    rfl
  refine ⟨fun hmore => ?_, fun op h => hrefuse _ _ h (fun h => nomatch h) rfl,
    fun h => hrefuse _ _ h (fun h => nomatch h) rfl, fun h => hrefuse _ _ h (fun h => nomatch h) rfl,
    fun h => hrefuse _ _ h (fun h => nomatch h) rfl, fun h => hrefuse _ _ h (fun h => nomatch h) rfl,
    fun h => hrefuse _ _ h (fun h => nomatch h) rfl⟩
  have hbyte : ∀ e, fetchByte u bs.length = .error e → step s = settle u (.error e) := fun e he =>
    hstop e (fetchInstr_of_needMore hb hmore he)
  rw [← offsetSpace_eq]
  by_cases hw : offsetSpace u ≤ off
  · rw [if_pos hw]
    exact hbyte _ (if_pos hw)
  · rw [if_neg hw]
    constructor
    · intro hout
      have hf : fetchAllowed u off = false := by
        rw [Bool.eq_false_iff, Ne, fetchAllowed_iff]
        rintro (⟨hm, hle⟩ | ⟨hm, hc⟩)
        · exact hout.elim (fun h => absurd h.2 (by omega)) fun h => hm h.1
        · exact hout.elim (fun h => h.1 hm) fun h => h.2 hc
      exact hbyte _ ((if_neg hw).trans (if_pos hf))
    · intro hin
      have hf : fetchAllowed u off = true := (fetchAllowed_iff u off).mpr hin
      have hpast : fetchByte u bs.length =
          match translate u la .fetch (decide (u.cpl = 3)) with
          | .error code => .error (.pf code la)
          | .ok pa =>
            if inRegions u.text pa.toNat = false then .error (.outsideText pa.toNat)
            else if inRegions u.populated pa.toNat = false then .error (.unpopulated pa.toNat)
            else .ok (u.mem.read pa.toNat) := by
        refine (if_neg hw).trans ((if_neg (by rw [hf]; decide)).trans ?_)
        rfl
      refine ⟨fun code hc => ?_, fun pa hp => ⟨fun ht => ?_, fun ht hpop => ?_⟩⟩
      · rw [hc] at hpast
        exact hbyte _ hpast
      · rw [hp] at hpast
        exact hbyte _ (hpast.trans (if_pos ht))
      · rw [hp] at hpast
        exact hbyte _ (hpast.trans ((if_neg (by rw [ht]; decide)).trans (if_pos hpop)))

end Sys2Proof.Machine
end

section
/-! PROOF. What the instructions leave (spec/40_mov_reg_rm.md, 42_mov_moffs.md, 43_mov_imm.md, and the stores of 41_mov_sreg.md).
Without LOCK a form with registers writes a register, and a form with memory reads or stores at its place; a write looks at the
low bits of its value only, which are those the rule names. -/

namespace Sys2Proof.Machine

/-! The forms with a register. -/

section
variable (s : State) {h : Head} (hl : h.lock = false) (len : Nat) (sz : Size) (rex : Bool) (n d : RegNum) (v : Quad)
include hl

theorem storeRM_reg : storeRM s h len sz rex (.reg n) v = .ok (regWrite s n sz rex v) := by
  rw [storeRM, (noLock_eq_ok h).mpr hl]; rfl

theorem loadRM_reg : loadRM s h len sz rex d (.reg n) = .ok (regWrite s d sz rex (regRead s n sz rex)) := by
  rw [loadRM, (noLock_eq_ok h).mpr hl]; rfl

theorem immReg_ok : immReg s h sz rex d v = .ok (regWrite s d sz rex v) := (immReg_eq_ok ..).mpr ⟨hl, rfl⟩

theorem storeSeg16_reg (r : SegReg) :
    storeSeg16 s h len (.reg n) (.seg r) = .ok (regWrite s n .word h.rex ((s.seg r).sel.setWidth 64)) := by
  rw [storeSeg16, (storeField_eq_ok h (.seg r) r).mpr ⟨hl, rfl⟩]; rfl

theorem storeSeg32_reg (r : SegReg) : storeSeg32 s h len (.reg n) (.seg r)
    = .ok ((regWrite s n .dword h.rex (upperSel s r).1).setDraws (upperSel s r).2) := by
  rw [storeSeg32, (storeField_eq_ok h (.seg r) r).mpr ⟨hl, rfl⟩]; rfl

theorem storeSeg64_reg (r : SegReg) :
    storeSeg64 s h len (.reg n) (.seg r) = .ok (s.setReg n ((s.seg r).sel.setWidth 64)) := by
  rw [storeSeg64, (storeField_eq_ok h (.seg r) r).mpr ⟨hl, rfl⟩]; rfl

end

/-- A row whose operation answers completes. -/
theorem settle_of_ok {s t : State} {x : Except Stop State} (hx : x = .ok t) : settle s x = .next t := by rw [hx]; rfl

/-! A byte, a word or a doubleword of one register written to another. -/

theorem regWrite_regRead_byte (s : State) (d r : RegNum) (rex : Bool) :
    regWrite s d .byte rex (regRead s r .byte rex) = withByte s d rex (byteValue s r rex) := by
  rw [regWrite_byte]
  exact withByte_congr s d rex _ _ fun j hj => getLsbD_regRead_byte s r rex j hj

theorem regWrite_regRead_word (s : State) (d r : RegNum) (rex : Bool) :
    regWrite s d .word rex (regRead s r .word rex) = withWord s d (s.reg r) := by
  rw [regWrite_word]
  exact withWord_congr s d _ _ fun j hj => getLsbD_regRead s r .word rex (by decide) j hj

theorem regWrite_regRead_dword (s : State) (d r : RegNum) (rex : Bool) :
    regWrite s d .dword rex (regRead s r .dword rex) = withDword s d (s.reg r) := by
  rw [regWrite_dword]
  exact withDword_congr s d _ _ fun j hj => getLsbD_regRead s r .dword rex (by decide) j hj

/-- Settles O25: the low byte that is read is the byte that is written, high bytes included. -/
theorem byteMovesBetweenRegisters : Obligations.ByteMovesBetweenRegisters := by
  intro s h d r hl
  have hb := fun rex => regWrite_regRead_byte s d r rex
  refine ⟨?_, ?_, ?_, ?_⟩
  · exact settle_of_ok ((storeRM_reg s hl ..).trans (congrArg _ (hb false)))
  · exact settle_of_ok ((storeRM_reg s hl ..).trans (congrArg _ (hb true)))
  · exact settle_of_ok ((loadRM_reg s hl ..).trans (congrArg _ (hb false)))
  · exact settle_of_ok ((loadRM_reg s hl ..).trans (congrArg _ (hb true)))

/-- Settles O26: each form is one register write, of the bits the width keeps. -/
theorem wideMovesBetweenRegisters : Obligations.WideMovesBetweenRegisters := by
  intro s h d r hl
  have hw := regWrite_regRead_word s d r h.rex
  have hd := regWrite_regRead_dword s d r h.rex
  refine ⟨?_, ?_, ?_, ?_, ?_, ?_⟩
  · exact settle_of_ok ((storeRM_reg s hl ..).trans (congrArg _ hw))
  · exact settle_of_ok ((storeRM_reg s hl ..).trans (congrArg _ hd))
  · exact settle_of_ok (storeRM_reg s hl ..)
  · exact settle_of_ok ((loadRM_reg s hl ..).trans (congrArg _ hw))
  · exact settle_of_ok ((loadRM_reg s hl ..).trans (congrArg _ hd))
  · exact settle_of_ok (loadRM_reg s hl ..)

/-- Bits replaced by themselves. -/
theorem replaceBits_self (lo w : Nat) (x : Quad) : replaceBits lo w x (x >>> lo) = x := by
  apply BitVec.eq_of_getLsbD_eq
  intro i hi
  rw [getLsbD_replaceBits _ _ _ _ i hi, BitVec.getLsbD_ushiftRight]
  split
  · rw [show lo + (i - lo) = i by omega]
  · rfl

/-- The low 32 bits alone, as a number. -/
theorem replaceBits_zero_dword (x : Quad) : replaceBits 0 32 0 x = BitVec.ofNat 64 (x.toNat % 2 ^ 32) := by
  apply BitVec.eq_of_getLsbD_eq
  intro i hi
  rw [getLsbD_replaceBits _ _ _ _ i hi, BitVec.getLsbD_ofNat, Nat.testBit_mod_two_pow]
  by_cases h : i < 32
  · simp [h, hi, BitVec.getLsbD]
  · simp [h]

/-- Settles O29: each move writes the bits that are there. -/
theorem movesToTheSameRegister : Obligations.MovesToTheSameRegister := by
  intro s h n hl
  obtain ⟨h8, h8', -, -⟩ := byteMovesBetweenRegisters s h n n hl
  obtain ⟨h16, h32, h64, -⟩ := wideMovesBetweenRegisters s h n n hl
  have hb : ∀ rex, withByte s n rex (byteValue s n rex) = s := fun rex => by
    rw [withByte, byteValue, replaceBits_self, State.setReg_reg]
  have hself : ∀ w, replaceBits 0 w (s.reg n) (s.reg n) = s.reg n := fun w => replaceBits_self 0 w (s.reg n)
  refine ⟨by rw [h8, hb], by rw [h8', hb], ?_, by rw [h64, State.setReg_reg], ?_⟩
  · rw [h16, withWord, hself, State.setReg_reg]
  · rw [h32, withDword]
    split
    · rw [replaceBits_zero_dword]
    · rw [hself]

/-- Settles O32: the immediate is written at its width. -/
theorem immediatesIntoOpcodeRegisters : Obligations.ImmediatesIntoOpcodeRegisters := by
  intro s h d b w l q hl
  refine ⟨?_, ?_, ?_, ?_, ?_⟩
  · exact settle_of_ok ((immReg_ok s hl ..).trans (congrArg _ (regWrite_byte ..)))
  · exact settle_of_ok ((immReg_ok s hl ..).trans (congrArg _ (regWrite_byte ..)))
  · exact settle_of_ok ((immReg_ok s hl ..).trans (congrArg _ (regWrite_word ..)))
  · exact settle_of_ok ((immReg_ok s hl ..).trans (congrArg _ (regWrite_dword ..)))
  · exact settle_of_ok (immReg_ok s hl ..)

/-- Settles O33: the immediate is written at its width, for T35 extended before. -/
theorem immediatesIntoRegisterOperands : Obligations.ImmediatesIntoRegisterOperands := by
  intro s h d b w l hl
  refine ⟨?_, ?_, ?_, ?_, ?_⟩
  · exact settle_of_ok ((storeRM_reg s hl ..).trans (congrArg _ (regWrite_byte ..)))
  · exact settle_of_ok ((storeRM_reg s hl ..).trans (congrArg _ (regWrite_byte ..)))
  · exact settle_of_ok ((storeRM_reg s hl ..).trans (congrArg _ (regWrite_word ..)))
  · exact settle_of_ok ((storeRM_reg s hl ..).trans (congrArg _ (regWrite_dword ..)))
  · exact settle_of_ok (storeRM_reg s hl ..)

/-- Settles O35: T12 at operand size 16 is T11's case; at 32 the upper bits are the parameter's. -/
theorem selectorIntoRegister : Obligations.SelectorIntoRegister := by
  intro s h n r hl
  have h16 : ∀ len, storeSeg16 s h len (.reg n) (.seg r) = .ok (withWord s n ((s.seg r).sel.setWidth 64)) := fun len =>
    (storeSeg16_reg s hl len n r).trans (congrArg _ (regWrite_word ..))
  have h32 : ∀ len, storeSeg32 s h len (.reg n) (.seg r)
      = .ok ((withDword s n (upperSel s r).1).setDraws (upperSel s r).2) := fun len =>
    (storeSeg32_reg s hl len n r).trans (by rw [regWrite_dword])
  have hdword : operandSize s.ctx false h.p66 = .dword → ¬operandSize s.ctx false h.p66 = .word := fun hd => by
    rw [hd]; decide
  refine ⟨settle_of_ok (h16 _), fun hd hz => ?_, fun hd hu => ⟨Config.freeUpper16 s.draws, ?_⟩, fun hw => ?_, ?_⟩
  · refine settle_of_ok ((if_neg (hdword hd)).trans ((h32 _).trans ?_))
    rw [upperSel, hz]
    rfl
  · refine settle_of_ok ((if_neg (hdword hd)).trans ((h32 _).trans ?_))
    rw [upperSel, hu]
  · exact settle_of_ok ((if_pos hw).trans (h16 _))
  · exact settle_of_ok (storeSeg64_reg s hl ..)

/-! The forms with memory. -/

/-- Stores of values with the same low bytes store the same. -/
theorem StoresBytes.congr {s t : State} {pas : List Nat} {u v : Quad} (h : StoresBytes s t pas u)
    (huv : ∀ j, j < 8 * pas.length → u.getLsbD j = v.getLsbD j) : StoresBytes s t pas v := by
  obtain ⟨hm, hframe, hbytes⟩ := h
  refine ⟨hm, hframe, fun hd k hk => ?_⟩
  rw [hbytes hd k hk]
  apply BitVec.eq_of_getLsbD_eq
  intro i hi
  simp only [BitVec.getLsbD_setWidth, BitVec.getLsbD_ushiftRight]
  rw [huv (8 * k + i) (by omega)]

/-- A row that is one store completes with its value, of which only the bytes stored count. -/
theorem storeCompletes_of_segWrite {s : State} {i : Instr} {p : SegReg × Quad} {n : Nat} {u v : Quad}
    (hx : exec i s = settle s (segWrite s p.1 p.2 n u)) (huv : ∀ j, j < 8 * n → u.getLsbD j = v.getLsbD j) :
    StoreCompletes s i p n v := by
  intro pas ha
  obtain ⟨t, ht, hst⟩ := segWrite_of_allowed u ha
  obtain ⟨-, -, ⟨hlen, -⟩, -⟩ := ha
  exact ⟨t, hx.trans (settle_of_ok ht), hst.congr fun j hj => huv j (by rwa [hlen] at hj)⟩

/-- Settles O27: each form is one store, of which only the low bytes of the register count. -/
theorem registerStoresToMemory : Obligations.RegisterStoresToMemory := by
  intro s h m r hl p
  refine ⟨?_, ?_, ?_, ?_, ?_⟩
  · exact storeCompletes_of_segWrite (storeRM_access s h _ .byte _ m _ hl) (getLsbD_regRead_byte s r false)
  · exact storeCompletes_of_segWrite (storeRM_access s h _ .byte _ m _ hl) (getLsbD_regRead_byte s r true)
  · exact storeCompletes_of_segWrite (storeRM_access s h _ .word _ m _ hl) (getLsbD_regRead s r .word _ (by decide))
  · exact storeCompletes_of_segWrite (storeRM_access s h _ .dword _ m _ hl) (getLsbD_regRead s r .dword _ (by decide))
  · exact storeCompletes_of_segWrite (storeRM_access s h _ .qword _ m _ hl) (getLsbD_regRead s r .qword _ (by decide))

/-- AL is the low byte of the accumulator (R21). -/
theorem getLsbD_regRead_al (s : State) (j : Nat) (hj : j < 8) :
    (regRead s 0 .byte true).getLsbD j = (s.reg 0).getLsbD j := by
  rw [getLsbD_regRead_byte s 0 true j hj, byteValue, BitVec.getLsbD_ushiftRight]
  exact congrArg _ (Nat.zero_add j)

/-- Settles O31: each form is one store, of which only the low bytes of the accumulator count. -/
theorem accumulatorStoresToOffset : Obligations.AccumulatorStoresToOffset := by
  intro s h o hl p
  refine ⟨?_, ?_, ?_, ?_, ?_⟩
  · exact storeCompletes_of_segWrite (storeMoffs_access s h .byte o hl) (getLsbD_regRead_al s)
  · exact storeCompletes_of_segWrite (storeMoffs_access s h .byte o hl) (getLsbD_regRead_al s)
  · exact storeCompletes_of_segWrite (storeMoffs_access s h .word o hl) (getLsbD_regRead s 0 .word _ (by decide))
  · exact storeCompletes_of_segWrite (storeMoffs_access s h .dword o hl) (getLsbD_regRead s 0 .dword _ (by decide))
  · exact storeCompletes_of_segWrite (storeMoffs_access s h .qword o hl) (getLsbD_regRead s 0 .qword _ (by decide))

/-- Settles O34: each form is one store of the immediate. -/
theorem immediatesIntoMemory : Obligations.ImmediatesIntoMemory := by
  intro s h m b w l hl
  refine ⟨?_, ?_, ?_, ?_, ?_⟩
  · exact storeCompletes_of_segWrite (storeRM_access s h _ .byte _ m _ hl) fun _ _ => rfl
  · exact storeCompletes_of_segWrite (storeRM_access s h _ .byte _ m _ hl) fun _ _ => rfl
  · exact storeCompletes_of_segWrite (storeRM_access s h _ .word _ m _ hl) fun _ _ => rfl
  · exact storeCompletes_of_segWrite (storeRM_access s h _ .dword _ m _ hl) fun _ _ => rfl
  · exact storeCompletes_of_segWrite (storeRM_access s h _ .qword _ m _ hl) fun _ _ => rfl

/-- Settles O36: at any operand size T12 stores the two bytes that T11 does. -/
theorem selectorIntoMemory : Obligations.SelectorIntoMemory := by
  intro s h m r hl p
  refine ⟨?_, ?_, ?_⟩
  · exact storeCompletes_of_segWrite (storeSeg16_access s h _ m r hl) fun _ _ => rfl
  · refine storeCompletes_of_segWrite (u := (s.seg r).sel.setWidth 64) ?_ fun _ _ => rfl
    show settle s (if _ then _ else _) = _
    split
    · exact storeSeg16_access s h _ m r hl
    · exact storeSeg32_access s h _ m r hl
  · exact storeCompletes_of_segWrite (storeSeg64_access s h _ m r hl) fun _ _ => rfl

/-- A row that is one load completes with the value at its addresses. -/
theorem load_of_allowed {s : State} {i : Instr} {r : SegReg} {ea : Quad} {n : Nat} {pas : List Nat} {f g : Quad → State}
    (hx : exec i s = settle s (segRead s r ea n >>= fun v => .ok (f v))) (ha : AccessAllowed s r ea n .read pas)
    (hf : ∀ v, f v = g v) : exec i s = .next (g (valueAt s pas)) := by
  rw [hx, segRead_of_allowed ha, ← hf]; rfl

/-- Settles O28: each form is one load, then a register write at its width. -/
theorem registerLoadsFromMemory : Obligations.RegisterLoadsFromMemory := by
  intro s h m d pas hl p
  refine ⟨fun ha => ⟨?_, ?_⟩, fun ha => ?_, fun ha => ?_, fun ha => ?_⟩
  · exact load_of_allowed (loadRM_access s h _ .byte _ d m hl) ha (regWrite_byte s _ _)
  · exact load_of_allowed (loadRM_access s h _ .byte _ d m hl) ha (regWrite_byte s _ _)
  · exact load_of_allowed (loadRM_access s h _ .word _ d m hl) ha (regWrite_word s _ _)
  · exact load_of_allowed (loadRM_access s h _ .dword _ d m hl) ha (regWrite_dword s _ _)
  · exact load_of_allowed (loadRM_access s h _ .qword _ d m hl) ha (regWrite_qword s _ _)

/-- Settles O30: each form is one load, then a write of the accumulator at its width. -/
theorem accumulatorLoadsFromOffset : Obligations.AccumulatorLoadsFromOffset := by
  intro s h o pas hl p
  refine ⟨fun ha => ⟨?_, ?_⟩, fun ha => ?_, fun ha => ?_, fun ha => ?_⟩
  · exact load_of_allowed (loadMoffs_access s h .byte o hl) ha (regWrite_byte s _ _)
  · exact load_of_allowed (loadMoffs_access s h .byte o hl) ha (regWrite_byte s _ _)
  · exact load_of_allowed (loadMoffs_access s h .word o hl) ha (regWrite_word s _ _)
  · exact load_of_allowed (loadMoffs_access s h .dword o hl) ha (regWrite_dword s _ _)
  · exact load_of_allowed (loadMoffs_access s h .qword o hl) ha (regWrite_qword s _ _)

end Sys2Proof.Machine
end

section
/-! PROOF. The exceptions of the rows (spec/60_exceptions.md sections 2, 3, 6). A row raises #UD whatever the state
(`exec_of_raisesUD`), or it is stopped on the path of its one access (`exec_of_path_error`), or it is past it: stuck, refused,
completed, or at the load of a selector (`exec_inv`). Each list is these cases at a mode. -/

namespace Sys2Proof.Machine

/-! #UD. -/

theorem storeField_of_namesNone (h : Head) {f : SregField} (hf : namesNone f = true) : storeField h f = .error .ud := by
  cases hl : h.lock with
  | true => exact storeField_of_lock hl f
  | false =>
    cases f with
    | seg r => cases hf
    | none6 | none7 => simp [storeField, hl]

theorem loadField_of_namesNone (h : Head) {f : SregField} (hf : namesNone f = true) : loadField h f = .error .ud := by
  rw [loadField, storeField_of_namesNone h hf]; rfl

theorem loadField_of_cs (h : Head) : loadField h (.seg .cs) = .error .ud := by
  cases hl : h.lock with
  | true => exact loadField_of_lock hl _
  | false => simp [loadField, storeField, hl, Bind.bind, Except.bind]

section
variable {s : State} {h : Head} {f : SregField}

theorem exec_of_storeField_error (hf : storeField h f = .error .ud) (m : RM) :
    exec (.movRm16Sreg h m f) s = raised s .ud none none ∧ exec (.movR32M16Sreg h m f) s = raised s .ud none none
      ∧ exec (.movR64M16Sreg h m f) s = raised s .ud none none := by
  have h16 : ∀ len, storeSeg16 s h len m f = .error .ud := fun len => by rw [storeSeg16, hf]; rfl
  have h32 : ∀ len, storeSeg32 s h len m f = .error .ud := fun len => by rw [storeSeg32, hf]; rfl
  refine ⟨settle_of_ud (h16 _), settle_of_ud ?_, settle_of_ud (by rw [storeSeg64, hf]; rfl)⟩
  split
  · exact h16 _
  · exact h32 _

theorem exec_of_loadField_error (hf : loadField h f = .error .ud) (m : RM) :
    exec (.movSregRm16 h f m) s = raised s .ud none none ∧ exec (.movSregRm64 h f m) s = raised s .ud none none :=
  ⟨settle_of_ud (by rw [loadSeg16, hf]; rfl), settle_of_ud (by rw [loadSeg64, hf]; rfl)⟩

end

/-- Settles O17: the field is checked before any operand. -/
theorem segmentNumbersSixAndSevenRaiseInvalidOpcode : Obligations.SegmentNumbersSixAndSevenRaiseInvalidOpcode := by
  intro i s h m f hf hi
  have hn : namesNone f = true := by rcases hf with rfl | rfl <;> rfl
  obtain ⟨h11, h12, h13⟩ := exec_of_storeField_error (s := s) (storeField_of_namesNone h hn) m
  obtain ⟨h14, h15⟩ := exec_of_loadField_error (s := s) (loadField_of_namesNone h hn) m
  rcases hi with rfl | rfl | rfl | rfl | rfl
  · exact h11
  · exact h12
  · exact h13
  · exact h14
  · exact h15

/-- Settles O16: CS is checked before the source is read; a store of its selector is as of any other. -/
theorem loadingCsRaisesInvalidOpcode : Obligations.LoadingCsRaisesInvalidOpcode := by
  intro s h src n
  obtain ⟨h14, h15⟩ := exec_of_loadField_error (s := s) (loadField_of_cs h) src
  exact ⟨rfl, h14, h15, fun hl => (selectorIntoRegister s h n .cs hl).1⟩

/-- A row that raises #UD whatever the state (R120, R121, R122). -/
theorem exec_of_raisesUD {i : Instr} (hu : raisesUD i = true) (s : State) : exec i s = raised s .ud none none := by
  by_cases hl : i.head.lock = true
  · exact lockRaisesInvalidOpcode i s hl
  · simp only [raisesUD, hl, Bool.false_or] at hu
    cases i with
    | movRm16Sreg h m f => exact (exec_of_storeField_error (storeField_of_namesNone h hu) m).1
    | movR32M16Sreg h m f => exact (exec_of_storeField_error (storeField_of_namesNone h hu) m).2.1
    | movR64M16Sreg h m f => exact (exec_of_storeField_error (storeField_of_namesNone h hu) m).2.2
    | movSregRm16 h f m =>
      rcases Bool.or_eq_true_iff.mp hu with hu | hu
      · exact (exec_of_loadField_error (loadField_of_namesNone h hu) m).1
      · rw [of_decide_eq_true hu]
        exact (exec_of_loadField_error (loadField_of_cs h) m).1
    | movSregRm64 h f m =>
      rcases Bool.or_eq_true_iff.mp hu with hu | hu
      · exact (exec_of_loadField_error (loadField_of_namesNone h hu) m).2
      · rw [of_decide_eq_true hu]
        exact (exec_of_loadField_error (loadField_of_cs h) m).2
    | _ => cases hu

/-- A row that raises no #UD has no LOCK. -/
theorem lock_of_not_raisesUD {i : Instr} (hu : raisesUD i = false) : i.head.lock = false := by
  unfold raisesUD at hu
  exact (Bool.or_eq_false_iff.mp hu).1

/-! The path of the access. -/

/-- A row whose access is stopped on its path stops there (R64, R65, R242). -/
theorem exec_of_path_error {i : Instr} {s : State} {a : DataAccess} {e : Stop} (hu : raisesUD i = false)
    (ha : dataAccess s i = some a) (he : accessPath s a = .error e) : exec i s = settle s (.error e) := by
  obtain ⟨seg, ea, n, kind⟩ := a
  rcases exec_access i s _ hu ha with ⟨hk, f, hx, -⟩ | ⟨hk, v, hx⟩
  · dsimp only at hk hx
    subst hk
    rw [hx, segRead_eq_path, he]; rfl
  · dsimp only at hk hx
    subst hk
    rw [hx, segWrite_eq_path, he]; rfl

/-- Settles O20: the exceptions of an access are the stops of its path. -/
theorem memoryOperandExceptionsAreRaised : Obligations.MemoryOperandExceptionsAreRaised := by
  intro i s a k code addr hu ha hr
  exact exec_of_path_error hu ha ((accessPath_eq_error ..).mpr ⟨k, code, addr, rfl, hr⟩)

/-- A read whose path is clear touches an unpopulated byte, or answers the value. -/
theorem segRead_of_path {s : State} {r : SegReg} {ea : Quad} {n : Nat} {pas : List Nat}
    (hp : accessPath s ⟨r, ea, n, .read⟩ = .ok pas) :
    (∃ b ∈ pas, inRegions s.populated b = false ∧ segRead s r ea n = .error (.unpopulated b))
      ∨ (∀ b ∈ pas, inRegions s.populated b = true) ∧ segRead s r ea n = .ok (valueAt s pas) := by
  rw [segRead_eq_path, hp]
  cases hf : firstUnpopulated s pas with
  | some b =>
    refine .inl ⟨b, List.mem_of_find?_eq_some hf, ?_, by simp only [Bind.bind, Except.bind, hf]⟩
    simpa using List.find?_some hf
  | none =>
    refine .inr ⟨(firstUnpopulated_eq_none s pas).mp hf, ?_⟩
    rw [← valueAt_eq]
    simp only [Bind.bind, Except.bind, hf]

/-- A write whose path is clear touches an unpopulated byte, or else a byte of the text, or completes. -/
theorem segWrite_of_path {s : State} {r : SegReg} {ea : Quad} {n : Nat} {pas : List Nat}
    (hp : accessPath s ⟨r, ea, n, .write⟩ = .ok pas) (v : Quad) :
    (∃ b ∈ pas, inRegions s.populated b = false ∧ segWrite s r ea n v = .error (.unpopulated b))
      ∨ (∀ b ∈ pas, inRegions s.populated b = true) ∧
        ((∃ b ∈ pas, inRegions s.text b = true ∧ segWrite s r ea n v = .error (.refuse (.storesIntoText b)))
          ∨ (∀ b ∈ pas, inRegions s.text b = false) ∧ ∃ t, segWrite s r ea n v = .ok t) := by
  rw [segWrite_eq_path, hp]
  cases hf : firstUnpopulated s pas with
  | some b =>
    refine .inl ⟨b, List.mem_of_find?_eq_some hf, ?_, by simp only [Bind.bind, Except.bind, hf]⟩
    simpa using List.find?_some hf
  | none =>
    refine .inr ⟨(firstUnpopulated_eq_none s pas).mp hf, ?_⟩
    cases ht : firstInText s pas with
    | some b =>
      exact .inl ⟨b, List.mem_of_find?_eq_some ht, List.find?_some ht, by simp only [Bind.bind, Except.bind, hf, ht]⟩
    | none => exact .inr ⟨(firstInText_eq_none s pas).mp ht, _, by simp only [Bind.bind, Except.bind, hf, ht]; rfl⟩

/-- Settles O22: past its path an access is stuck at an unpopulated byte, or else a store refused at a byte of the text. -/
theorem unpopulatedIsStuckAndTextIsRefused : Obligations.UnpopulatedIsStuckAndTextIsRefused := by
  intro i s a pas hu ha hs hm hmap
  have hp : accessPath s a = .ok pas := (accessPath_eq_ok ..).mpr ⟨hs, hm, hmap⟩
  obtain ⟨seg, ea, n, kind⟩ := a
  have habsurd : ∀ {P : Prop}, (∃ b ∈ pas, inRegions s.populated b = false) →
      (∀ b ∈ pas, inRegions s.populated b = true) → P := by
    rintro P ⟨b, hb, hf⟩ hall
    rw [hall b hb] at hf; cases hf
  rcases exec_access i s _ hu ha with ⟨hk, f, hx, -⟩ | ⟨hk, v, hx⟩
  · dsimp only at hk hx
    subst hk
    refine ⟨fun hun => ?_, fun _ hw => (nomatch hw)⟩
    rcases segRead_of_path hp with ⟨b, hb, hf, hr⟩ | ⟨hall, -⟩
    · exact ⟨b, hb, hf, by rw [hx, hr]; rfl⟩
    · exact habsurd hun hall
  · dsimp only at hk hx
    subst hk
    refine ⟨fun hun => ?_, fun hall _ htext => ?_⟩
    · rcases segWrite_of_path hp v with ⟨b, hb, hf, hr⟩ | ⟨hall, -⟩
      · exact ⟨b, hb, hf, by rw [hx, hr]; rfl⟩
      · exact habsurd hun hall
    · rcases segWrite_of_path hp v with ⟨b, hb, hf, -⟩ | ⟨-, ⟨b, hb, ht, hr⟩ | ⟨hno, -⟩⟩
      · exact habsurd ⟨b, hb, hf⟩ hall
      · exact ⟨b, hb, ht, by rw [hx, hr]; rfl⟩
      · obtain ⟨b, hb, ht⟩ := htext
        rw [hno b hb] at ht; cases ht

/-! What else a row can do. -/

/-- The four ends of a row that raises no #UD. -/
inductive RowEnds (i : Instr) (s : State) : Prop where
  /-- it is stopped on the path of its access -/
  | path (a : DataAccess) (e : Stop) (ha : dataAccess s i = some a) (hp : accessPath s a = .error e)
  /-- past the path it is stuck or refused -/
  | stop (h : (∃ b, exec i s = .fault (.unpopulated b)) ∨ ∃ r, exec i s = .refused r)
  /-- it completes -/
  | next (t : State) (hx : exec i s = .next t)
  /-- it has read a selector -/
  | load (q : SegReg) (sel : BitVec 16) (hq : q ≠ .cs) (hl : LoadsSelector s i q sel)

/-- A row that stores, or loads no segment register, past its path is stuck, refused or completed. -/
theorem rowEnds_of_access {i : Instr} {s : State} {a : DataAccess} (hu : raisesUD i = false)
    (ha : dataAccess s i = some a) (hd : destSeg i = none) : RowEnds i s := by
  cases hp : accessPath s a with
  | error e => exact .path a e ha hp
  | ok pas =>
    obtain ⟨seg, ea, n, kind⟩ := a
    rcases exec_access i s _ hu ha with ⟨hk, f, hx, hf⟩ | ⟨hk, v, hx⟩
    · dsimp only at hk hx
      subst hk
      rcases segRead_of_path hp with ⟨b, -, -, hr⟩ | ⟨-, hr⟩
      · exact .stop (.inl ⟨b, by rw [hx, hr]; rfl⟩)
      · obtain ⟨t, ht⟩ := hf hd (valueAt s pas)
        exact .next t (by rw [hx, hr]; exact settle_of_ok ht)
    · dsimp only at hk hx
      subst hk
      rcases segWrite_of_path hp v with ⟨b, -, -, hr⟩ | ⟨-, ⟨b, -, -, hr⟩ | ⟨-, t, hr⟩⟩
      · exact .stop (.inl ⟨b, by rw [hx, hr]; rfl⟩)
      · exact .stop (.inr ⟨_, by rw [hx, hr]; rfl⟩)
      · exact .next t (by rw [hx]; exact settle_of_ok hr)

/-- A row of registers and immediates alone completes. -/
theorem exec_of_no_access {i : Instr} {s : State} (hu : raisesUD i = false) (ha : dataAccess s i = none)
    (hd : destSeg i = none) : ∃ t, exec i s = .next t := by
  have hl := lock_of_not_raisesUD hu
  cases i with
  | movRm8R8 h d _ | movRm8R8Rex h d _ | movRm16R16 h d _ | movRm32R32 h d _ | movRm64R64 h d _
  | movRm8Imm8 h d _ | movRm8Imm8Rex h d _ | movRm16Imm16 h d _ | movRm32Imm32 h d _ | movRm64Imm32 h d _ =>
    cases d with
    | mem m => cases ha
    | reg n => exact ⟨_, settle_of_ok (storeRM_reg s hl ..)⟩
  | movR8Rm8 h _ d | movR8Rm8Rex h _ d | movR16Rm16 h _ d | movR32Rm32 h _ d | movR64Rm64 h _ d =>
    cases d with
    | mem m => cases ha
    | reg n => exact ⟨_, settle_of_ok (loadRM_reg s hl ..)⟩
  | movR8Imm8 | movR8Imm8Rex | movR16Imm16 | movR32Imm32 | movR64Imm64 => exact ⟨_, settle_of_ok (immReg_ok s hl ..)⟩
  | movRm16Sreg h d f =>
    obtain ⟨r, rfl⟩ := field_of_named (Bool.or_eq_false_iff.mp hu).2
    cases d with
    | mem m => cases ha
    | reg n => exact ⟨_, settle_of_ok (storeSeg16_reg s hl ..)⟩
  | movR32M16Sreg h d f =>
    obtain ⟨r, rfl⟩ := field_of_named (Bool.or_eq_false_iff.mp hu).2
    cases d with
    | mem m => cases ha
    | reg n =>
      by_cases hw : operandSize s.ctx false h.p66 = .word
      · exact ⟨_, settle_of_ok ((if_pos hw).trans (storeSeg16_reg s hl ..))⟩
      · exact ⟨_, settle_of_ok ((if_neg hw).trans (storeSeg32_reg s hl ..))⟩
  | movR64M16Sreg h d f =>
    obtain ⟨r, rfl⟩ := field_of_named (Bool.or_eq_false_iff.mp hu).2
    cases d with
    | mem m => cases ha
    | reg n => exact ⟨_, settle_of_ok (storeSeg64_reg s hl ..)⟩
  | movSregRm16 | movSregRm64 => cases hd
  | _ => cases ha

/-- A source of a segment load: its path stops, or it is stuck, or it holds a value. -/
theorem source_cases (s : State) (h : Head) (len n : Nat) (m : MemOp) :
    (∃ e, accessPath s ⟨(memPlace s h len m).1, (memPlace s h len m).2, n, .read⟩ = .error e)
      ∨ (∃ b, segRead s (memPlace s h len m).1 (memPlace s h len m).2 n = .error (.unpopulated b))
      ∨ ∃ v, SourceIs s h len n (.mem m) v := by
  cases hp : accessPath s ⟨(memPlace s h len m).1, (memPlace s h len m).2, n, .read⟩ with
  | error e => exact .inl ⟨e, rfl⟩
  | ok pas =>
    rcases segRead_of_path hp with ⟨b, -, -, hr⟩ | ⟨-, hr⟩
    · exact .inr (.inl ⟨b, hr⟩)
    · exact .inr (.inr ⟨_, sourceIs_of_read hr⟩)

/-- A row that raises no #UD ends in one of these ways. -/
theorem exec_inv {i : Instr} (hu : raisesUD i = false) (s : State) : RowEnds i s := by
  have hl := lock_of_not_raisesUD hu
  cases hd : destSeg i with
  | none =>
    cases ha : dataAccess s i with
    | some a => exact rowEnds_of_access hu ha hd
    | none =>
      obtain ⟨t, hx⟩ := exec_of_no_access hu ha hd
      exact .next t hx
  | some f =>
    cases i with
    | movSregRm16 h f' src =>
      simp only [raisesUD, Bool.or_eq_false_iff, decide_eq_false_iff_not] at hu
      obtain ⟨-, hn, hcs⟩ := hu
      obtain ⟨q, rfl⟩ := field_of_named hn
      have hq : q ≠ .cs := fun e => hcs (by rw [e])
      cases src with
      | reg n => exact .load q _ hq ⟨h, .reg n, s.reg n, hl, rfl, .inl ⟨rfl, rfl⟩⟩
      | mem m =>
        rcases source_cases s h (modrmLength h (.mem m) 0) 2 m with ⟨e, hp⟩ | ⟨b, hr⟩ | ⟨v, hv⟩
        · exact .path _ e rfl hp
        · exact .stop (.inl ⟨b, (loadSeg16_access s h _ m q hl hq).trans (by rw [hr]; rfl)⟩)
        · exact .load q _ hq ⟨h, .mem m, v, hl, rfl, .inl ⟨rfl, hv⟩⟩
    | movSregRm64 h f' src =>
      simp only [raisesUD, Bool.or_eq_false_iff, decide_eq_false_iff_not] at hu
      obtain ⟨-, hn, hcs⟩ := hu
      obtain ⟨q, rfl⟩ := field_of_named hn
      have hq : q ≠ .cs := fun e => hcs (by rw [e])
      cases src with
      | reg n => exact .load q _ hq ⟨h, .reg n, s.reg n, hl, rfl, .inr ⟨rfl, rfl⟩⟩
      | mem m =>
        rcases source_cases s h (modrmLength h (.mem m) 0) (m64Width s) m with ⟨e, hp⟩ | ⟨b, hr⟩ | ⟨v, hv⟩
        · exact .path _ e rfl hp
        · exact .stop (.inl ⟨b, (loadSeg64_access s h _ m q hl hq).trans (by rw [hr]; rfl)⟩)
        · exact .load q _ hq ⟨h, .mem m, v, hl, rfl, .inr ⟨rfl, hv⟩⟩
    | _ => cases hd

/-- In the modes that do not check a load, LoadSeg answers (R173). -/
theorem loadSeg_of_unchecked {s : State} (hm : isChecked s.mode = false) (q : SegReg) (sel : BitVec 16) :
    ∃ t, loadSeg s q sel = .ok t := by
  unfold loadSeg
  cases hs : s.mode with
  | real | v8086 => exact ⟨_, rfl⟩
  | prot | compat | long64 => rw [hs] at hm; cases hm

theorem raised_inj {s : State} {k k' : ExcKind} {c c' : Option (BitVec 32)} {a a' : Option (BitVec 64)} :
    raised s k c a = raised s k' c' a' ↔ k = k' ∧ c = c' ∧ a = a' := by
  simp [raised]

/-- The exceptions of a row that loads no segment register, or is in a mode that does not check the load: #UD, and those of its
one access. -/
theorem exec_eq_raised_iff {i : Instr} {s : State} (hi : destSeg i = none ∨ isChecked s.mode = false) (k : ExcKind)
    (code : Option (BitVec 32)) (addr : Option (BitVec 64)) :
    exec i s = raised s k code addr ↔
      raisesUD i = true ∧ k = .ud ∧ code = none ∧ addr = none
        ∨ raisesUD i = false ∧ ∃ a, dataAccess s i = some a ∧ AccessRaises s a k code addr := by
  cases hu : raisesUD i with
  | true =>
    rw [exec_of_raisesUD hu, raised_inj]
    simp [eq_comm]
  | false =>
    simp only [Bool.false_eq_true, false_and, false_or, true_and]
    refine ⟨fun hx => ?_, fun ⟨a, ha, hr⟩ => memoryOperandExceptionsAreRaised i s a k code addr hu ha hr⟩
    cases exec_inv hu s with
    | path a e ha hp =>
      obtain ⟨k', c', addr', rfl, hr⟩ := (accessPath_eq_error ..).mp hp
      rw [exec_of_path_error hu ha hp, settle_raiseStop, raised_inj] at hx
      obtain ⟨rfl, rfl, rfl⟩ := hx
      exact ⟨a, ha, hr⟩
    | stop h => rcases h with ⟨b, h⟩ | ⟨r, h⟩ <;> rw [h] at hx <;> cases hx
    | next t h => rw [h] at hx; cases hx
    | load q sel hq hl =>
      rcases hi with hd | hm
      · rw [destSeg_of_loads hl] at hd; cases hd
      · obtain ⟨t, ht⟩ := loadSeg_of_unchecked hm q sel
        rw [exec_load hq hl, ht] at hx
        cases hx

/-- Settles O21: `exec_eq_raised_iff` without a segment load. -/
theorem noOtherExceptionsOutsideSegmentLoads : Obligations.NoOtherExceptionsOutsideSegmentLoads := by
  intro i s e left hd hx
  have hleft : left = s.setInhibit false := exceptionsArePrecise i s e left hx
  obtain ⟨mnemonic, k, code, addr⟩ := e
  cases mnemonic
  subst hleft
  exact ⟨rfl, (exec_eq_raised_iff (.inl hd) k code addr).mp hx⟩

/-- In real-address mode an access raises the limit exception only (R251). -/
theorem accessRaises_real {s : State} (hm : s.mode = .real) (a : DataAccess) (k : ExcKind) (code : Option (BitVec 32))
    (addr : Option (BitVec 64)) : AccessRaises s a k code addr ↔
      OutsideLimit (s.seg a.seg) a.ea a.bytes ∧ k = (if a.seg = .ss then .ss else .gp) ∧ code = none ∧ addr = none := by
  have hz : zeroCode s.mode = none := if_pos hm
  constructor
  · intro h
    cases h with
    | protection hp => rw [hm] at hp; cases hp
    | limit _ _ h => exact ⟨h, rfl, hz, rfl⟩
    | nonCanonical hl => rw [hm] at hl; cases hl
    | alignment _ h => obtain ⟨-, -, hr, -⟩ := h; exact absurd hm hr
    | page _ _ c la h =>
      obtain ⟨_, -, -, ht, -⟩ := h
      rw [translate, if_pos hm] at ht
      cases ht
  · rintro ⟨h, rfl, rfl, rfl⟩
    rw [← hz]
    exact .limit (by rw [hm]; decide) (fun hp => by rw [hm] at hp; cases hp) h

/-- Settles O18: the list of R251 is the exceptions of an access in real-address mode. -/
theorem realModeExceptionList : Obligations.RealModeExceptionList := by
  intro i s k code addr hm
  rw [exec_eq_raised_iff (.inr (by rw [hm]; rfl))]
  simp only [accessRaises_real hm]
  constructor
  · rintro (⟨hu, rfl, rfl, rfl⟩ | ⟨hu, a, ha, ho, rfl, rfl, rfl⟩)
    · exact ⟨rfl, rfl, .inl ⟨hu, rfl⟩⟩
    · exact ⟨rfl, rfl, .inr ⟨hu, a, ha, ho, rfl⟩⟩
  · rintro ⟨rfl, rfl, ⟨hu, rfl⟩ | ⟨hu, a, ha, ho, rfl⟩⟩
    · exact .inl ⟨hu, rfl, rfl, rfl⟩
    · exact .inr ⟨hu, a, ha, ho, rfl, rfl, rfl⟩

/-- In virtual-8086 mode the segment checks are the limit's (R64). -/
theorem segAllowed_v8086 {s : State} (hm : s.mode = .v8086) (r : SegReg) (ea : Quad) (n : Nat) (kind : Access) :
    SegAllowed s r ea n kind ↔ ¬OutsideLimit (s.seg r) ea n := by
  simp [SegAllowed, hm, isProt]

/-- In virtual-8086 mode an access raises a limit, alignment or page exception (R252). -/
theorem accessRaises_v8086 {s : State} (hm : s.mode = .v8086) (a : DataAccess) (k : ExcKind) (code : Option (BitVec 32))
    (addr : Option (BitVec 64)) : AccessRaises s a k code addr ↔
      (OutsideLimit (s.seg a.seg) a.ea a.bytes ∧ k = (if a.seg = .ss then .ss else .gp) ∧ code = some 0 ∧ addr = none
        ∨ ¬OutsideLimit (s.seg a.seg) a.ea a.bytes ∧ Misaligned s (linear s a.seg a.ea) a.bytes
          ∧ (s.params.alignBeforePage = true
            ∨ ¬∃ c la, PageFaultAt s (linear s a.seg a.ea) a.bytes a.kind (decide (s.cpl = 3)) c la)
          ∧ k = .ac ∧ code = some 0 ∧ addr = none
        ∨ ¬OutsideLimit (s.seg a.seg) a.ea a.bytes
          ∧ (s.params.alignBeforePage = false ∨ ¬Misaligned s (linear s a.seg a.ea) a.bytes)
          ∧ ∃ c la, PageFaultAt s (linear s a.seg a.ea) a.bytes a.kind (decide (s.cpl = 3)) c la
              ∧ k = .pf ∧ code = some c ∧ addr = some la) := by
  have hz : zeroCode s.mode = some 0 := if_neg (by rw [hm]; decide)
  constructor
  · intro h
    cases h with
    | protection hp => rw [hm] at hp; cases hp
    | limit _ _ h => exact .inl ⟨h, rfl, hz, rfl⟩
    | nonCanonical hl => rw [hm] at hl; cases hl
    | alignment hs h hp => exact .inr (.inl ⟨(segAllowed_v8086 hm ..).mp hs, h, hp, rfl, rfl, rfl⟩)
    | page hs hp c la h => exact .inr (.inr ⟨(segAllowed_v8086 hm ..).mp hs, hp, c, la, h, rfl, rfl, rfl⟩)
  · rintro (⟨h, rfl, rfl, rfl⟩ | ⟨hs, h, hp, rfl, rfl, rfl⟩ | ⟨hs, hp, c, la, h, rfl, rfl, rfl⟩)
    · rw [← hz]
      exact .limit (by rw [hm]; decide) (fun hp => by rw [hm] at hp; cases hp) h
    · exact .alignment ((segAllowed_v8086 hm ..).mpr hs) h hp
    · exact .page ((segAllowed_v8086 hm ..).mpr hs) hp c la h

/-- Settles O19: the list of R252 is the exceptions of an access in virtual-8086 mode. -/
theorem virtual8086ExceptionList : Obligations.Virtual8086ExceptionList := by
  intro i s k code addr hm
  rw [exec_eq_raised_iff (.inr (by rw [hm]; rfl))]
  simp only [accessRaises_v8086 hm]

end Sys2Proof.Machine
end

section
/-! PROOF. Reads and writes of memory (spec/20_memory.md R52, R53, R72): what a write leaves at the addresses its bytes map to,
and what a narrower read gives where translation is off. -/

namespace Sys2Proof.Machine

/-- Settles O24: translation stops a write at its first faulting byte; else the write stores every byte. -/
theorem writesAreAllOrNothing : Obligations.WritesAreAllOrNothing := by
  intro s la v n user
  refine ⟨fun c a h => ?_, fun pas hp hr => ?_⟩
  · rw [memWrite, (translateAll_eq_error ..).mpr ⟨c, a, rfl, h⟩]
    rfl
  · have hpop := (firstUnpopulated_eq_none s pas).mpr fun a ha => (hr a ha).1
    have htext := (firstInText_eq_none s pas).mpr fun a ha => (hr a ha).2 rfl
    exact ⟨_, (memWrite_eq_ok ..).mpr ⟨pas, (translateAll_eq_ok ..).mpr hp, hpop, htext, rfl⟩,
      storesBytes_writeAll s pas n v hp.1⟩

end Sys2Proof.Machine
end

section
/-! PROOF. Sizes and addresses as arithmetic (spec/20_memory.md R59 to R61, spec/30_encoding.md R93, R94, R101 to R108). An
effective address is a truncated sum of quadwords, each the integer of its part modulo 2^64: the sum is the integers' sum. -/

namespace Sys2Proof.Machine

/-! The size attributes. -/

/-- Outside 64-bit mode 66 and 67 toggle CS_D. -/
theorem toggle_iff (d : CodeSize) (p : Bool) : xor (decide (d = .d32)) p = true ↔ ¬(d = .d32 ↔ p = true) := by
  cases d <;> cases p <;> decide

/-- The address size is R94's number of bits. -/
theorem addressSize_bits (c : Ctx) (p67 : Bool) : (addressSize c p67).bytes * 8
    = if c.mode = .long64 then (if p67 = true then 32 else 64) else if (c.csD = .d32 ↔ p67 = true) then 16 else 32 := by
  obtain ⟨m, d⟩ := c
  cases m <;> simp only [addressSize, toggle_iff] <;> split <;> simp_all [AddrSize.bytes]

/-- The operand size is R94's number of bits. -/
theorem operandSize_bits (c : Ctx) (w p66 : Bool) : (operandSize c w p66).bytes * 8
    = if c.mode = .long64 then (if w = true then 64 else if p66 = true then 16 else 32)
      else if (c.csD = .d32 ↔ p66 = true) then 16 else 32 := by
  obtain ⟨m, d⟩ := c
  cases m
  case long64 => cases w <;> cases p66 <;> rfl
  all_goals simp only [operandSize, toggle_iff]; split <;> simp_all [Size.bytes]

/-- Settles O57, one size after the other. -/
theorem operandAndAddressSizes : Obligations.OperandAndAddressSizes :=
  fun c w p66 p67 => ⟨operandSize_bits c w p66, addressSize_bits c p67⟩

/-! Effective addresses. -/

/-- Truncation is the remainder modulo two to the address size (R59). -/
theorem trunc_toNat (a : AddrSize) (v : Quad) : (a.trunc v).toNat = v.toNat % 2 ^ (a.bytes * 8) := by
  have := v.isLt
  cases a <;> simp only [AddrSize.trunc, AddrSize.bytes, BitVec.toNat_setWidth] <;> omega

/-- The quadword of an integer, truncated, is the integer modulo two to the address size. -/
theorem trunc_ofInt (a : AddrSize) (x : Int) : ((a.trunc (BitVec.ofInt 64 x)).toNat : Int) = x % 2 ^ (a.bytes * 8) := by
  have hd : (2 ^ (a.bytes * 8) : Int) ∣ 2 ^ 64 := by cases a <;> decide
  rw [trunc_toNat]
  push_cast
  rw [BitVec.toNat_ofInt, Int.toNat_of_nonneg (Int.emod_nonneg _ (by decide))]
  exact Int.emod_emod_of_dvd x hd

/-- A quadword is the quadword of its number. -/
theorem ofInt_toNat (v : Quad) : BitVec.ofInt 64 (v.toNat : Int) = v := by simp

/-- The displacement is the quadword of its signed number (R106). -/
theorem disp16Value_eq (d : Disp16) : disp16Value d = BitVec.ofInt 64 (disp16Int d) := by
  cases d <;> rfl

/-- The displacement is the quadword of its signed number (R106). -/
theorem disp32Value_eq (d : Disp32) : disp32Value d = BitVec.ofInt 64 (disp32Int d) := by
  cases d <;> rfl

/-- A quadword and the quadword of an integer add up to the quadword of the sum. -/
theorem add_ofInt (v : Quad) (x : Int) : v + BitVec.ofInt 64 x = BitVec.ofInt 64 (v.toNat + x) := by
  rw [BitVec.ofInt_add, ofInt_toNat]

/-- The index of a SIB form as a number: the register times the scale's power of two (R103). -/
def indexInt (s : State) (scale : BitVec 2) : Option RegNum → Int
  | none => 0
  | some n => (s.reg n).toNat * 2 ^ scale.toNat

/-- The scaled view of the index may stand for the index's number in a truncated sum. -/
theorem trunc_index_add (s : State) (a : AddrSize) (scale : BitVec 2) (i : Option RegNum) (y : Quad) :
    a.trunc (indexValue s a scale i + y) = a.trunc (BitVec.ofInt 64 (indexInt s scale i) + y) := by
  cases i with
  | none => rfl
  | some n =>
    have hn : s.reg n <<< scale.toNat = BitVec.ofInt 64 (indexInt s scale (some n)) := by
      have hcast : indexInt s scale (some n) = ((s.reg n).toNat * 2 ^ scale.toNat : Nat) := by simp [indexInt]
      rw [hcast, BitVec.ofInt_natCast]
      exact BitVec.eq_of_toNat_eq (by simp [Nat.shiftLeft_eq])
    rw [indexValue, regAddr, ← trunc_trunc_add, trunc_trunc_shiftLeft, trunc_trunc_add, hn]

section

variable (s : State) (a : AddrSize) (len : Nat)

/-- A 16-bit sum of two registers (R101). -/
theorem trunc_sum_of_two (x y : RegNum) (d : Disp16) :
    ((AddrSize.a16.trunc (regAddr s .a16 x + regAddr s .a16 y + disp16Value d)).toNat : Int)
      = ((s.reg x).toNat + (s.reg y).toNat + disp16Int d) % 2 ^ 16 := by
  rw [regAddr, regAddr, BitVec.add_assoc, trunc_trunc_add, add_left_comm (G := Quad), trunc_trunc_add, add_left_comm (G := Quad),
    disp16Value_eq, add_ofInt, add_ofInt, trunc_ofInt, add_assoc]
  rfl

/-- A 16-bit sum of one register (R101). -/
theorem trunc_sum_of_one (x : RegNum) (d : Disp16) :
    ((AddrSize.a16.trunc (regAddr s .a16 x + disp16Value d)).toNat : Int) = ((s.reg x).toNat + disp16Int d) % 2 ^ 16 := by
  rw [regAddr, trunc_trunc_add, disp16Value_eq, add_ofInt, trunc_ofInt]
  rfl

/-- A base register and a displacement (R102). -/
theorem effAddr_base (b : RegNum) (d : Disp32) :
    ((effAddr s a len (.base b d)).toNat : Int) = ((s.reg b).toNat + disp32Int d) % 2 ^ (a.bytes * 8) := by
  rw [effAddr, regAddr, trunc_trunc_add, disp32Value_eq, add_ofInt, trunc_ofInt]

/-- A displacement alone (R102). -/
theorem effAddr_abs32 (d : BitVec 32) :
    ((effAddr s a len (.abs32 d)).toNat : Int) = d.toInt % 2 ^ (a.bytes * 8) :=
  trunc_ofInt a d.toInt

/-- The address of the next instruction and a displacement (R104). -/
theorem effAddr_rip (d : BitVec 32) :
    ((effAddr s a len (.rip d)).toNat : Int) = (s.pc.toNat + len + d.toInt) % 2 ^ (a.bytes * 8) := by
  have hlen : BitVec.ofNat 64 len = BitVec.ofInt 64 len := (BitVec.ofInt_natCast ..).symm
  rw [effAddr, hlen, add_ofInt, BitVec.signExtend, ← BitVec.ofInt_add, trunc_ofInt]

/-- Base, index and displacement (R103). -/
theorem effAddr_sib (scale : BitVec 2) (i : Option RegNum) (b : RegNum) (d : Disp32) :
    ((effAddr s a len (.sib scale i b d)).toNat : Int)
      = ((s.reg b).toNat + indexInt s scale i + disp32Int d) % 2 ^ (a.bytes * 8) := by
  rw [effAddr, regAddr, BitVec.add_assoc, trunc_trunc_add, add_left_comm (G := Quad), trunc_index_add, add_left_comm (G := Quad),
    disp32Value_eq, ← BitVec.ofInt_add, add_ofInt, trunc_ofInt, add_assoc]

/-- Index and displacement without a base (R103). -/
theorem effAddr_sibAbs (scale : BitVec 2) (i : Option RegNum) (d : BitVec 32) :
    ((effAddr s a len (.sibAbs scale i d)).toNat : Int) = (indexInt s scale i + d.toInt) % 2 ^ (a.bytes * 8) := by
  rw [effAddr, trunc_index_add, BitVec.signExtend, ← BitVec.ofInt_add, trunc_ofInt]

end

/-- A register number is the number of its value. -/
theorem ofNat_regNum (n : RegNum) : (Fin.ofNat 16 n.val : RegNum) = n := Fin.ext (Nat.mod_eq_of_lt n.isLt)

/-- Settles O58: each memory form is the truncated sum of its parts. -/
theorem effectiveAddresses : Obligations.EffectiveAddresses := by
  intro s h len r ea A index
  have hA : A = 2 ^ ((addressSize s.ctx h.p67).bytes * 8) := congrArg (fun n => (2 : Int) ^ n) (addressSize_bits s.ctx h.p67).symm
  have hr (n : RegNum) : r n.val = (s.reg n).toNat := by simp only [r, ofNat_regNum]
  have hi (scale : BitVec 2) (i : Option RegNum) : index scale i = indexInt s scale i := by
    cases i with
    | none => rfl
    | some n => simp only [index, indexInt, hr]
  simp only [hA, hr, hi]
  refine ⟨fun d => ⟨?_, ?_, ?_, ?_, ?_, ?_, ?_, ?_⟩, fun d => ?_, effAddr_base s _ len, effAddr_abs32 s _ len,
    effAddr_rip s _ len, effAddr_sib s _ len, effAddr_sibAbs s _ len, fun v => ?_, fun v => ?_, fun v => ?_⟩
  · exact trunc_sum_of_two s 3 6 d
  · exact trunc_sum_of_two s 3 7 d
  · exact trunc_sum_of_two s 5 6 d
  · exact trunc_sum_of_two s 5 7 d
  · exact trunc_sum_of_one s 6 d
  · exact trunc_sum_of_one s 7 d
  · exact trunc_sum_of_one s 5 d
  · exact trunc_sum_of_one s 3 d
  · exact congrArg Nat.cast (BitVec.toNat_setWidth_of_le (by decide : 16 ≤ 64))
  · exact BitVec.toNat_setWidth_of_le (by decide : 16 ≤ 64)
  · exact BitVec.toNat_setWidth_of_le (by decide : 32 ≤ 64)
  · exact congrArg BitVec.toNat (BitVec.setWidth_eq v)

/-! Segments and linear addresses. -/

/-- Without an override the default segment is taken. -/
theorem effSeg_none (m : Mode) (d : SegReg) : effSeg m none d = d := rfl

/-- In 64-bit mode an override for CS, DS, ES or SS changes nothing (R93). -/
theorem effSeg_of_ignored {q : SegReg} (hf : q ≠ .fs) (hg : q ≠ .gs) (d : SegReg) : effSeg .long64 (some q) d = d :=
  if_pos ⟨rfl, fun h => h.elim hf hg⟩

/-- An override that counts replaces the default (R93). -/
theorem effSeg_of_override {m : Mode} {q : SegReg} (h : m ≠ .long64 ∨ q = .fs ∨ q = .gs) (d : SegReg) :
    effSeg m (some q) d = q :=
  if_neg fun hc => h.elim (fun hm => hm hc.1) hc.2

/-- The linear address as a number (R61). -/
theorem linear_toNat (s : State) (q : SegReg) (ea : Quad) : (linear s q ea).toNat
    = if s.mode = .long64 then ((if q = .fs ∨ q = .gs then (s.seg q).base.toNat else 0) + ea.toNat) % 2 ^ 64
      else ((s.seg q).base.toNat + ea.toNat) % 2 ^ 32 := by
  unfold linear
  split
  · rw [BitVec.toNat_add]
    split <;> rfl
  · rw [trunc_toNat, BitVec.toNat_add]
    exact Nat.mod_mod_of_dvd _ (by decide)

/-- The address of byte `k` of an access as a number (R71). -/
theorem byteAddr_toNat (s : State) (la : Quad) (k : Nat) :
    (byteAddr s la k).toNat = (la.toNat + k) % if s.mode = .long64 then 2 ^ 64 else 2 ^ 32 := by
  unfold byteAddr linearWidth
  split
  · simp
  · rw [trunc_toNat, BitVec.toNat_add, BitVec.toNat_ofNat, Nat.add_mod_mod]
    exact Nat.mod_mod_of_dvd _ (by decide)

/-- Settles O59: the default segment per form, what an override does, and the two addresses as numbers. -/
theorem segmentsAndLinearAddresses : Obligations.SegmentsAndLinearAddresses := by
  intro s h len seg
  refine ⟨fun hn => ?_, fun q hq => ⟨fun hc => ?_, fun hm hf hg => ?_⟩, linear_toNat s, byteAddr_toNat s⟩
  · have hseg (m : MemOp) : seg m = defaultSeg m := by simp only [seg, memPlace, hn, effSeg_none]
    refine ⟨fun d => ?_, fun d => hseg _, fun d => hseg _, fun d => hseg _, fun _ _ d => hseg _, fun b d _ h5 => ?_,
      fun _ _ b d _ => hseg _, fun o => ?_⟩
    · simp only [hseg, defaultSeg, and_self]
    · rw [hseg]
      by_cases hb : b.val = 5
      · rw [if_pos hb]
        exact if_pos ⟨hb, h5 (by omega)⟩
      · rw [if_neg hb]
        exact if_neg fun hc => hb hc.1
    · simp only [offPlace, hn, effSeg_none]
  · simp only [seg, memPlace, offPlace, hq, effSeg_of_override hc, implies_true, and_self]
  · simp only [seg, memPlace, offPlace, hq, hm, effSeg_of_ignored hf hg, effSeg_none, implies_true, and_self]

end Sys2Proof.Machine
end

section
/-! PROOF. A narrower read of a wider write where translation is off (spec/20_memory.md R52, R53, R70): the bytes of an access
are then the addresses themselves, at most eight of which are distinct, so the read finds the bytes the write left. -/

namespace Sys2Proof.Machine

/-- With translation off, the physical address is the linear one (R70, D9). -/
theorem translate_of_off {s : State} (h : s.mode = .real ∨ s.translation = []) (la : Quad) (kind : Access) (user : Bool) :
    translate s la kind user = .ok la := by
  unfold translate
  rcases h with h | h
  · rw [if_pos h]
  · rw [h]
    split <;> rfl

/-- The addresses of bytes `k` to `k + n - 1` after a linear address. -/
def bytesFrom (s : State) (la : Quad) (k n : Nat) : List Nat := (List.range n).map fun j => (byteAddr s la (k + j)).toNat

/-- With translation off, the bytes of an access lie at its linear addresses. -/
theorem translateAll_of_off {s : State} (h : s.mode = .real ∨ s.translation = []) (la : Quad) (n : Nat) (kind : Access)
    (user : Bool) : translateAll s la n kind user = .ok (bytesFrom s la 0 n) := by
  refine (translateAll_eq_ok ..).mpr ⟨by simp [bytesFrom], fun k hk => ⟨byteAddr s la k, translate_of_off h .., ?_⟩⟩
  simp [bytesFrom]

/-- Where an access lies does not depend on what memory holds. -/
theorem translateAll_setMem_of_off {s : State} (h : s.mode = .real ∨ s.translation = []) (mem : Memory) (la : Quad) (n : Nat)
    (kind : Access) (user : Bool) : translateAll (s.setMem mem) la n kind user = .ok (bytesFrom s la 0 n) :=
  translateAll_of_off (s := s.setMem mem) h la n kind user

/-- The bytes of an access at an offset are bytes of the whole. -/
theorem bytesFrom_add (s : State) (la : Quad) (k n : Nat) :
    bytesFrom s (la + BitVec.ofNat 64 k) 0 n = bytesFrom s la k n := by
  refine List.map_congr_left fun j _ => ?_
  rw [byteAddr, byteAddr, Nat.zero_add, BitVec.add_assoc, ← BitVec.ofNat_add]

/-- Eight bytes in a row lie at distinct addresses, whatever the wrap. -/
theorem bytesFrom_nodup (s : State) (la : Quad) {n : Nat} (hn : n ≤ 8) : (bytesFrom s la 0 n).Nodup := by
  refine List.nodup_range.map_on fun i hi j hj hij => ?_
  rw [List.mem_range] at hi hj
  rw [byteAddr_toNat, byteAddr_toNat] at hij
  split at hij <;> omega

/-- The bytes of a value from byte `k` on are the bytes of the value shifted down. -/
theorem bytesLE_shift_toNat (v : Quad) (k m : Nat) :
    ofBytesLE (bytesLE m (v >>> (8 * k))) = BitVec.ofNat 64 (v.toNat / 2 ^ (8 * k) % 2 ^ (8 * m)) := by
  rw [ofBytesLE_eq, littleEndian_bytesLE, BitVec.toNat_ushiftRight, Nat.shiftRight_eq_div_pow]

/-- What a write left, read from byte `k` of it on. -/
theorem read_bytesFrom_of_stores {s t : State} {la v : Quad} {n k m : Nat} (hn : n ≤ 8) (hk : k + m ≤ n)
    (h : StoresBytes s t (bytesFrom s la 0 n) v) : (bytesFrom s la k m).map t.mem.read = bytesLE m (v >>> (8 * k)) := by
  obtain ⟨-, -, hread⟩ := h
  refine List.ext_getElem (by simp [bytesFrom, bytesLE_length]) fun j hj hj' => ?_
  have hjm : j < m := by rwa [bytesLE_length] at hj'
  have hlen : k + j < (bytesFrom s la 0 n).length := by simp only [bytesFrom, List.length_map, List.length_range]; omega
  have hbyte := hread (bytesFrom_nodup s la hn) (k + j) hlen
  rw [bytesLE_getElem, ← BitVec.shiftRight_add, ← Nat.mul_add, ← hbyte]
  simp [bytesFrom]

/-- Settles O23: the addresses read are addresses written, and their bytes are the value's. -/
theorem narrowReadAfterWideWrite : Obligations.NarrowReadAfterWideWrite := by
  intro s t la v user user' n k m hn hk hoff hw
  obtain ⟨pas, hp, hpop, -, rfl⟩ := (memWrite_eq_ok ..).mp hw
  rw [translateAll_of_off hoff] at hp
  obtain rfl := Except.ok.inj hp
  have hst := storesBytes_writeAll s (bytesFrom s la 0 n) n v (by simp [bytesFrom])
  refine (memRead_eq_ok ..).mpr ⟨bytesFrom s la k m, ?_, ?_, ?_⟩
  · rw [translateAll_setMem_of_off hoff, bytesFrom_add]
  · refine (firstUnpopulated_eq_none ..).mpr fun a ha => ?_
    obtain ⟨j, hj, rfl⟩ := List.mem_map.mp ha
    rw [List.mem_range] at hj
    exact (firstUnpopulated_eq_none ..).mp hpop _ (List.mem_map.mpr ⟨k + j, List.mem_range.mpr (by omega), by simp⟩)
  · rw [read_bytesFrom_of_stores hn hk hst, bytesLE_shift_toNat]

end Sys2Proof.Machine
end

section
/-! PROOF. Segment loads (spec/41_mov_sreg.md R168 to R175). A row that loads a selector is LoadSeg of it (`exec_load`); in the
modes that check the load it is, for a selector that is not NULL, the read of the descriptor, the tests and the load itself
(`finishLoad`), each in the claims' own terms. -/

namespace Sys2Proof.Machine

/-! Real-address and virtual-8086 mode. -/

/-- The base of R173: the selector times 16. -/
theorem selectorBase_eq (sel : BitVec 16) : sel.setWidth 64 <<< 4 = BitVec.ofNat 64 (sel.toNat * 16) :=
  BitVec.eq_of_toNat_eq (by simp [Nat.shiftLeft_eq])

/-- Settles O37: in real-address mode LoadSeg tests nothing. -/
theorem realModeSegmentLoad : Obligations.RealModeSegmentLoad := by
  intro s i q sel hm hq hl
  rw [exec_load hq hl, loadSeg, hm, ← selectorBase_eq]
  rfl

/-- Settles O38: in virtual-8086 mode LoadSeg tests nothing, and takes one free value for the bits R173 does not name. -/
theorem virtual8086SegmentLoad : Obligations.Virtual8086SegmentLoad := by
  intro s i q sel hm hq hl
  refine ⟨v8086Attr (Config.freeSegAttr s.draws), rfl, rfl, rfl, rfl, rfl, ?_⟩
  rw [exec_load hq hl, loadSeg, hm, ← selectorBase_eq]
  rfl

/-! NULL selectors. -/

theorem ne_cs_of_isDataSeg {q : SegReg} (h : isDataSeg q = true) : q ≠ .cs := fun e => by subst e; cases h

theorem ne_ss_of_isDataSeg {q : SegReg} (h : isDataSeg q = true) : q ≠ .ss := fun e => by subst e; cases h

theorem isDataSeg_of_ne {q : SegReg} (hc : q ≠ .cs) (hs : q ≠ .ss) : isDataSeg q = true := by
  simp [isDataSeg, hc, hs]

/-- A selector above 3 is not NULL (R33). -/
theorem selIsNull_of_lt {sel : BitVec 16} (h : 3 < sel.toNat) : selIsNull sel = false :=
  Bool.eq_false_iff.mpr fun hn => absurd ((selIsNull_iff sel).mp hn) (by omega)

/-- A NULL selector into DS, ES, FS or GS is loaded (R168, R174). -/
theorem loadSegProt_null_data (s : State) {q : SegReg} (hq : q ≠ .ss) {sel : BitVec 16} (h : sel.toNat ≤ 3) :
    loadSegProt s q sel = .ok (loadNull s q sel) := by
  rw [loadSegProt, if_neg hq, if_pos ((selIsNull_iff sel).mpr h)]

/-- A NULL selector into SS is its own case (R168). -/
theorem loadSegProt_null_ss (s : State) {sel : BitVec 16} (h : sel.toNat ≤ 3) :
    loadSegProt s .ss sel = loadNullSS s sel := by
  rw [loadSegProt, if_pos rfl, if_pos ((selIsNull_iff sel).mpr h)]

/-- Settles O39: what is loaded is `nullSegment`. -/
theorem nullSelectorIntoDataSegment : Obligations.NullSelectorIntoDataSegment := by
  intro s i q sel hm hd hl hn
  refine ⟨nullSegment s q sel, rfl, rfl, fun h64 hfg => if_pos ⟨h64, hfg⟩, ?_⟩
  rw [exec_load (ne_cs_of_isDataSeg hd) hl, loadSeg_checked hm, loadSegProt_null_data s (ne_ss_of_isDataSeg hd) hn]
  rfl

/-- The modes that check a load have error codes (R239). -/
theorem gp0_of_checked {s : State} (hm : isChecked s.mode = true) : Stop.gp0 s = raiseStop .gp (some 0) none := by
  have hr : s.mode ≠ .real := fun e => by rw [e] at hm; cases hm
  rw [Stop.gp0, code0, if_neg hr]
  rfl

/-- The RPL is a number modulo 4. -/
theorem selRpl_eq_iff (sel : BitVec 16) (c : BitVec 2) : selRpl sel = c ↔ sel.toNat % 4 = c.toNat := by
  rw [← BitVec.toNat_inj, selRpl_toNat]

/-- The load of SS with a NULL selector, in a mode that checks it (R168, C4). -/
theorem loadNullSS_of_checked {s : State} (hm : isChecked s.mode = true) {sel : BitVec 16} (hn : sel.toNat ≤ 3) :
    loadNullSS s sel = if s.mode = .long64 ∧ s.cpl ≠ 3 ∧ sel.toNat = s.cpl.toNat then .ok (loadNull s .ss sel)
      else .error (raiseStop .gp (some 0) none) := by
  have hrpl : selRpl sel = s.cpl ↔ sel.toNat = s.cpl.toNat := by rw [selRpl_eq_iff, Nat.mod_eq_of_lt (by omega)]
  simp only [loadNullSS, gp0_of_checked hm, ne_eq, hrpl]
  split_ifs <;> tauto

/-- Settles O40: the tests of R168 for a NULL selector in SS, and what is loaded where they pass. -/
theorem nullSelectorIntoStackSegment : Obligations.NullSelectorIntoStackSegment := by
  intro s i sel hm hl hn
  rw [exec_load (by decide) hl, loadSeg_checked hm, loadSegProt_null_ss s hn, loadNullSS_of_checked hm hn]
  split_ifs with h
  · obtain ⟨-, -, hcpl⟩ := h
    have hdpl : selRpl sel = s.cpl := (selRpl_eq_iff ..).mpr (by omega)
    exact ⟨nullSegment s .ss sel, rfl, rfl, hdpl, rfl⟩
  · rfl

/-! Selectors that are not NULL. -/

/-- The last part of a load that is tested: the accessed bit, then both parts of the register (R172, R175). -/
def finishLoad (s : State) (q : SegReg) (sel : BitVec 16) (raw : Quad) : Except Stop State := do
  let t ← markAccessed s sel raw
  .ok (t.setSeg q ((descOf raw).segment sel))

/-- An exception that names a selector, as a number (R181). -/
theorem excSel_eq (k : ExcKind) (sel : BitVec 16) :
    Stop.exc k (selectorCode sel) = raiseStop k (some (BitVec.ofNat 32 (sel.toNat / 4 * 4))) none := by
  rw [selectorCode_eq]
  rfl

/-- The byte of the accessed bit, where its address is translated (R175). -/
theorem translate_of_accessByte {s : State} {sel : BitVec 16} {b : Nat} (h : accessByte s sel = some b) :
    ∃ pa, translate s (accessedAddr s sel) .write false = .ok pa ∧ b = pa.toNat := by
  unfold accessByte at h
  split at h
  · exact ⟨_, by assumption, (Option.some.inj h).symm⟩
  · cases h

/-- A write of one byte at an address that is translated maps to that one physical address. -/
theorem mapsTo_accessed {s : State} {sel : BitVec 16} {pa : Quad}
    (h : translate s (accessedAddr s sel) .write false = .ok pa) : MapsTo s (accessedAddr s sel) 1 .write false [pa.toNat] := by
  refine ⟨rfl, fun k hk => ?_⟩
  obtain rfl : k = 0 := by simpa using hk
  exact ⟨pa, by rw [accessedAddr, byteAddr_zero]; exact h, rfl⟩

/-- A write of one byte at an address that faults is stopped there. -/
theorem pageFaultAt_accessed {s : State} {sel : BitVec 16} {code : BitVec 32}
    (h : translate s (accessedAddr s sel) .write false = .error code) :
    PageFaultAt s (accessedAddr s sel) 1 .write false code (accessedAddr s sel) :=
  ⟨0, by decide, (byteAddr_zero ..).symm, h, fun j hj => absurd hj (by omega)⟩

/-- The byte written back is byte 5 of the descriptor with the accessed bit set (R175). -/
theorem accessedByte_getLsbD (raw : Quad) {j : Nat} (hj : j < 8) :
    ((raw.extractLsb' 40 8 ||| 1).setWidth 64).getLsbD j = ((raw >>> 40) ||| 1).getLsbD j := by
  have h64 : j < 64 := by omega
  simp only [BitVec.getLsbD_setWidth, BitVec.getLsbD_or, BitVec.getLsbD_extractLsb', BitVec.getLsbD_ushiftRight, hj, h64,
    decide_true, Bool.true_and]
  rfl

/-- A load that passes its tests does what the claim says of it. -/
theorem loadCompletes_of_finishLoad {s : State} {i : Instr} {q : SegReg} {sel : BitVec 16} {raw : Quad}
    (hx : exec i s = settle s (finishLoad s q sel raw)) : LoadCompletes s i q sel raw := by
  unfold LoadCompletes
  rw [hx, finishLoad, markAccessed_eq]
  split_ifs with ha
  · rfl
  · obtain ⟨hfault, hstore⟩ :=
      writesAreAllOrNothing s (accessedAddr s sel) ((raw.extractLsb' 40 8 ||| 1).setWidth 64) 1 false
    refine ⟨fun b hb hpop htext => ?_, fun code hc => ?_⟩
    · obtain ⟨pa, hpa, rfl⟩ := translate_of_accessByte hb
      obtain ⟨t, hw, hst⟩ := hstore _ (mapsTo_accessed hpa) (by simp [Reachable, hpop, htext])
      rw [hw]
      exact ⟨t, hst.congr fun j hj => accessedByte_getLsbD raw hj, rfl⟩
    · rw [hfault _ _ (pageFaultAt_accessed hc)]
      rfl

/-- A selector that is not NULL is looked up (R168). -/
theorem loadSegProt_ss {s : State} {sel : BitVec 16} (h : 3 < sel.toNat) : loadSegProt s .ss sel = loadSS s sel := by
  rw [loadSegProt, if_pos rfl, selIsNull_of_lt h]
  rfl

/-- A selector that is not NULL is looked up (R168). -/
theorem loadSegProt_data {s : State} {q : SegReg} (hq : q ≠ .ss) {sel : BitVec 16} (h : 3 < sel.toNat) :
    loadSegProt s q sel = loadDataSeg s q sel := by
  rw [loadSegProt, if_neg hq, selIsNull_of_lt h]
  rfl

/-- The load of SS, its descriptor read, in the claims' terms (R168). -/
theorem loadSS_of_lookup {s : State} {sel : BitVec 16} {raw : Quad} (h : lookup s sel = .ok raw) :
    loadSS s sel =
      if sel.toNat % 4 ≠ s.cpl.toNat ∨ (descOf raw).dpl ≠ s.cpl
          ∨ ¬((descOf raw).kind = .data ∧ (descOf raw).writable = true) then
        .error (raiseStop .gp (some (BitVec.ofNat 32 (sel.toNat / 4 * 4))) none)
      else if (descOf raw).present = false then .error (raiseStop .ss (some (BitVec.ofNat 32 (sel.toNat / 4 * 4))) none)
      else finishLoad s .ss sel raw := by
  have hw : (descOf raw).isWritableData = false ↔ ¬((descOf raw).kind = .data ∧ (descOf raw).writable = true) := by
    simp [Desc.isWritableData]
  have hrpl : selRpl sel ≠ s.cpl ↔ sel.toNat % 4 ≠ s.cpl.toNat := not_congr (selRpl_eq_iff ..)
  rw [loadSS, h, ← excSel_eq, ← excSel_eq]
  exact if_congr (or_congr hrpl (or_comm.trans (or_congr Iff.rfl hw))) rfl rfl

/-- Settles O41: the three ends of `loadSS_of_lookup`. -/
theorem stackSegmentLoad : Obligations.StackSegmentLoad := by
  intro s i sel raw hm hl hn hd d
  have hx : exec i s = settle s (loadSS s sel) := by
    rw [exec_load (by decide) hl, loadSeg_checked hm, loadSegProt_ss hn]
  rw [loadSS_of_lookup (lookup_of_descriptor hd)] at hx
  split_ifs with htest hp
  · rw [hx, if_pos htest]
    rfl
  · rw [hx, if_neg htest, if_pos hp]
    rfl
  · rw [if_neg htest, if_neg hp] at hx
    exact loadCompletes_of_finishLoad hx

/-- The load of DS, ES, FS or GS, its descriptor read, in the claims' terms (R168, C3). -/
theorem loadDataSeg_of_lookup {s : State} {sel : BitVec 16} {raw : Quad} (q : SegReg) (h : lookup s sel = .ok raw) :
    loadDataSeg s q sel =
      if ¬((descOf raw).kind = .data ∨ (descOf raw).kind = .code ∧ (descOf raw).readable = true)
          ∨ ((descOf raw).kind = .data ∨ (descOf raw).kind = .code ∧ (descOf raw).conforming = false)
            ∧ ((descOf raw).dpl.toNat < sel.toNat % 4 ∨ (descOf raw).dpl.toNat < s.cpl.toNat) then
        .error (raiseStop .gp (some (BitVec.ofNat 32 (sel.toNat / 4 * 4))) none)
      else if (descOf raw).present = false then .error (raiseStop .np (some (BitVec.ofNat 32 (sel.toNat / 4 * 4))) none)
      else finishLoad s q sel raw := by
  have hk : ((descOf raw).isData || (descOf raw).isReadableCode) = false
      ↔ ¬((descOf raw).kind = .data ∨ (descOf raw).kind = .code ∧ (descOf raw).readable = true) := by
    simp [Desc.isData, Desc.isReadableCode]
  have hn : ((descOf raw).isData || (descOf raw).isNonconformingCode) = true
      ↔ (descOf raw).kind = .data ∨ (descOf raw).kind = .code ∧ (descOf raw).conforming = false := by
    simp [Desc.isData, Desc.isNonconformingCode]
  rw [loadDataSeg, h, ← excSel_eq, ← excSel_eq]
  have hp : (descOf raw).dpl < selRpl sel ∨ (descOf raw).dpl < s.cpl
      ↔ (descOf raw).dpl.toNat < sel.toNat % 4 ∨ (descOf raw).dpl.toNat < s.cpl.toNat := by
    rw [BitVec.lt_def, BitVec.lt_def, selRpl_toNat]
  rw [ite_or]
  exact if_congr hk rfl (if_congr (and_congr hn hp) rfl rfl)

/-- Settles O42: the three ends of `loadDataSeg_of_lookup`. -/
theorem dataSegmentLoad : Obligations.DataSegmentLoad := by
  intro s i q sel raw hm hq hl hn hd d
  have hx : exec i s = settle s (loadDataSeg s q sel) := by
    rw [exec_load (ne_cs_of_isDataSeg hq) hl, loadSeg_checked hm, loadSegProt_data (ne_ss_of_isDataSeg hq) hn]
  rw [loadDataSeg_of_lookup q (lookup_of_descriptor hd)] at hx
  split_ifs with htest hp
  · rw [hx, if_pos htest]
    rfl
  · rw [hx, if_neg htest, if_pos hp]
    rfl
  · rw [if_neg htest, if_neg hp] at hx
    exact loadCompletes_of_finishLoad hx

end Sys2Proof.Machine
end

section
/-! PROOF. Segment loads that fail before or at the tests (spec/41_mov_sreg.md R170, R171, R181, spec/60_exceptions.md R235): a
descriptor that cannot be read, and that #NP comes from the presence test of DS, ES, FS and GS only. -/

namespace Sys2Proof.Machine

/-! The descriptor. -/

theorem loadSS_of_lookup_error {s : State} {sel : BitVec 16} {e : Stop} (h : lookup s sel = .error e) :
    loadSS s sel = .error e := by
  rw [loadSS, h]
  rfl

theorem loadDataSeg_of_lookup_error {s : State} (q : SegReg) {sel : BitVec 16} {e : Stop} (h : lookup s sel = .error e) :
    loadDataSeg s q sel = .error e := by
  rw [loadDataSeg, h]
  rfl

/-- A load of a selector that is not NULL stops where its lookup does. -/
theorem loadSegProt_of_lookup_error {s : State} (q : SegReg) {sel : BitVec 16} {e : Stop} (hn : 3 < sel.toNat)
    (h : lookup s sel = .error e) : loadSegProt s q sel = .error e := by
  by_cases hq : q = .ss
  · subst hq
    exact (loadSegProt_ss hn).trans (loadSS_of_lookup_error h)
  · exact (loadSegProt_data hq hn).trans (loadDataSeg_of_lookup_error q h)

/-- What the lookup answers is the descriptor in the claims' terms (R170). -/
theorem descriptorIs_of_lookup {s : State} {sel : BitVec 16} {raw : Quad} (h : lookup s sel = .ok raw) :
    DescriptorIs s sel raw := by
  obtain ⟨hout, hcan, hread⟩ := (lookup_eq_ok ..).mp h
  obtain ⟨pas, hmap, hpop, rfl⟩ := (memRead_eq_ok ..).mp hread
  rw [descAddr_eq] at hmap hcan
  refine ⟨fun ho => ?_, fun hm => (canonicalRange_iff ..).mp (hcan hm), pas, (translateAll_eq_ok ..).mp hmap,
    fun a ha => ⟨(firstUnpopulated_eq_none ..).mp hpop a ha, fun hk => nomatch hk⟩, valueAt_eq s pas⟩
  rw [(outsideTable_iff s sel).mpr ho] at hout
  cases hout

/-- An entry outside its table, or not canonical, is #GP(selector) (R171). -/
theorem lookup_of_bad_entry {s : State} {sel : BitVec 16}
    (h : OutsideTable s sel ∨ s.mode = .long64 ∧ ¬CanonicalAccess s.params.linAddrWidth (entryAddr s sel) 8) :
    lookup s sel = .error (.gpSel sel) := by
  rw [← outsideTable_iff, ← descAddr_eq, ← canonicalRange_iff, Bool.not_eq_true] at h
  rw [lookup, ← ite_or, if_pos h]

/-- A page fault of the read of the table is the lookup's (R236). -/
theorem lookup_of_page_fault {s : State} {sel : BitVec 16} (ho : ¬OutsideTable s sel)
    (hc : s.mode = .long64 → CanonicalAccess s.params.linAddrWidth (entryAddr s sel) 8) {c : BitVec 32} {la : Quad}
    (h : PageFaultAt s (entryAddr s sel) 8 .read false c la) :
    lookup s sel = .error (raiseStop .pf (some c) (some la)) := by
  rw [← outsideTable_iff] at ho
  rw [← descAddr_eq, ← canonicalRange_iff] at hc
  rw [← descAddr_eq] at h
  have hbad : ¬(s.mode = .long64 ∧ canonicalRange s.params.linAddrWidth (descAddr s sel) 8 = false) := by
    rintro ⟨hm, hf⟩
    rw [hc hm] at hf
    cases hf
  rw [lookup, if_neg ho, if_neg hbad, memRead, (translateAll_eq_error ..).mpr ⟨c, la, rfl, h⟩]
  rfl

/-- Settles O43: the lookup fails, and the load with it. -/
theorem descriptorTableFailures : Obligations.DescriptorTableFailures := by
  intro s i q sel hm hq hl hn
  rw [exec_load hq hl, loadSeg_checked hm]
  refine ⟨fun hbad => ?_, fun ho hc c la hf => ?_⟩
  · rw [loadSegProt_of_lookup_error q hn (lookup_of_bad_entry hbad), Stop.gpSel, excSel_eq]
    rfl
  · rw [loadSegProt_of_lookup_error q hn (lookup_of_page_fault ho hc hf)]
    rfl

/-! Where #NP comes from. -/

section

variable {s : State} {code : Option (BitVec 32)} {addr : Option (BitVec 64)}

/-- Exceptions of different kinds are different stops. -/
theorem kind_of_raiseStop {k k' : ExcKind} {c c' : Option (BitVec 32)} {a a' : Option (BitVec 64)}
    (h : raiseStop k c a = raiseStop k' c' a') : k = k' := by
  cases h
  rfl

/-- Translation raises #PF only. -/
theorem translateAll_ne_np (la : Quad) (n : Nat) (kind : Access) (user : Bool) :
    translateAll s la n kind user ≠ .error (raiseStop .np code addr) := fun h => by
  obtain ⟨_, _, he, -⟩ := (translateAll_eq_error ..).mp h
  cases kind_of_raiseStop he

theorem memRead_ne_np (la : Quad) (n : Nat) (user : Bool) : memRead s la n user ≠ .error (raiseStop .np code addr) := fun h => by
  rcases (bind_eq_error ..).mp h with h | ⟨pas, -, h⟩
  · exact translateAll_ne_np _ _ _ _ h
  · split at h <;> cases h

theorem memWrite_ne_np (la : Quad) (n : Nat) (v : Quad) (user : Bool) :
    memWrite s la n v user ≠ .error (raiseStop .np code addr) := fun h => by
  rcases (bind_eq_error ..).mp h with h | ⟨pas, -, h⟩
  · exact translateAll_ne_np _ _ _ _ h
  · split at h
    · cases h
    · split at h <;> cases h

/-- The lookup raises #GP and #PF only. -/
theorem lookup_ne_np (sel : BitVec 16) : lookup s sel ≠ .error (raiseStop .np code addr) := by
  unfold lookup
  split_ifs
  · exact fun h => nomatch h
  · exact fun h => nomatch h
  · exact memRead_ne_np _ _ _

/-- Past the tests a load raises #PF only. -/
theorem finishLoad_ne_np (q : SegReg) (sel : BitVec 16) (raw : Quad) :
    finishLoad s q sel raw ≠ .error (raiseStop .np code addr) := fun h => by
  rcases (bind_eq_error ..).mp h with h | ⟨t, -, h⟩
  · rw [markAccessed_eq] at h
    split at h
    · cases h
    · exact memWrite_ne_np _ _ _ _ h
  · cases h

/-- A load of SS raises #SS, not #NP, for a segment that is not present (R234). -/
theorem loadSS_ne_np (sel : BitVec 16) : loadSS s sel ≠ .error (raiseStop .np code addr) := by
  cases hlook : lookup s sel with
  | error e =>
    rw [loadSS_of_lookup_error hlook]
    rintro ⟨⟩
    exact lookup_ne_np sel hlook
  | ok raw =>
    rw [loadSS_of_lookup hlook]
    split_ifs
    · exact fun h => nomatch h
    · exact fun h => nomatch h
    · exact finishLoad_ne_np _ _ _

/-- A load of DS, ES, FS or GS raises #NP where the #GP(selector) tests pass and the segment is not present (R168). -/
theorem np_of_loadDataSeg {q : SegReg} {sel : BitVec 16} (h : loadDataSeg s q sel = .error (raiseStop .np code addr)) :
    ∃ raw, lookup s sel = .ok raw
      ∧ ((descOf raw).kind = .data ∨ (descOf raw).kind = .code ∧ (descOf raw).readable = true)
      ∧ (((descOf raw).kind = .data ∨ (descOf raw).kind = .code ∧ (descOf raw).conforming = false) →
          sel.toNat % 4 ≤ (descOf raw).dpl.toNat ∧ s.cpl.toNat ≤ (descOf raw).dpl.toNat)
      ∧ (descOf raw).present = false ∧ code = some (BitVec.ofNat 32 (sel.toNat / 4 * 4)) ∧ addr = none := by
  cases hlook : lookup s sel with
  | error e =>
    rw [loadDataSeg_of_lookup_error q hlook] at h
    cases h
    exact absurd hlook (lookup_ne_np sel)
  | ok raw =>
    rw [loadDataSeg_of_lookup q hlook] at h
    split_ifs at h with htest hp
    · cases h
    · obtain ⟨hkind, hpriv⟩ := not_or.mp htest
      cases h
      refine ⟨raw, rfl, not_not.mp hkind, fun hk => ?_, hp, rfl, rfl⟩
      have := not_and.mp hpriv hk
      omega
    · exact absurd h (finishLoad_ne_np q sel raw)

/-- No access raises #NP. -/
theorem accessRaises_ne_np {a : DataAccess} (h : AccessRaises s a .np code addr) : False := by
  generalize hk : ExcKind.np = k at h
  cases h with
  | protection | alignment | page => cases hk
  | limit | nonCanonical => split at hk <;> cases hk

/-- A row that raises #NP has read a selector whose load raises it. -/
theorem load_of_np {i : Instr} (h : exec i s = raised s .np code addr) :
    ∃ q sel, q ≠ .cs ∧ LoadsSelector s i q sel ∧ loadSeg s q sel = .error (raiseStop .np code addr) := by
  cases hu : raisesUD i with
  | true =>
    rw [exec_of_raisesUD hu] at h
    cases (raised_inj.mp h).1
  | false =>
    cases exec_inv hu s with
    | path a e ha hp =>
      obtain ⟨k, c, la, rfl, hr⟩ := (accessPath_eq_error ..).mp hp
      rw [exec_of_path_error hu ha hp, settle_raiseStop] at h
      obtain ⟨rfl, rfl, rfl⟩ := raised_inj.mp h
      exact (accessRaises_ne_np hr).elim
    | stop hs => rcases hs with ⟨b, hs⟩ | ⟨r, hs⟩ <;> rw [hs] at h <;> cases h
    | next t hx => rw [hx] at h; cases h
    | load q sel hq hl =>
      rw [exec_load hq hl] at h
      exact ⟨q, sel, hq, hl, ((settle_eq_exception ..).mp h).1⟩

/-- A checked load that raises #NP is one of DS, ES, FS or GS with a selector that is not NULL. -/
theorem loadDataSeg_of_np {q : SegReg} {sel : BitVec 16} (hm : isChecked s.mode = true)
    (h : loadSegProt s q sel = .error (raiseStop .np code addr)) :
    q ≠ .ss ∧ 3 < sel.toNat ∧ loadDataSeg s q sel = .error (raiseStop .np code addr) := by
  by_cases hn : sel.toNat ≤ 3
  · by_cases hq : q = .ss
    · subst hq
      rw [loadSegProt_null_ss s hn, loadNullSS_of_checked hm hn] at h
      split at h <;> cases h
    · rw [loadSegProt_null_data s hq hn] at h
      cases h
  · rw [not_le] at hn
    by_cases hq : q = .ss
    · subst hq
      rw [loadSegProt_ss hn] at h
      exact absurd h (loadSS_ne_np sel)
    · rw [loadSegProt_data hq hn] at h
      exact ⟨hq, hn, h⟩

end

/-- Settles O44: #NP comes from the presence test of `loadDataSeg`, and that test raises it (`dataSegmentLoad`). -/
theorem notPresentException : Obligations.NotPresentException := by
  intro i s code addr
  constructor
  · intro h
    obtain ⟨q, sel, hq, hl, hload⟩ := load_of_np h
    cases hm : isChecked s.mode with
    | false =>
      obtain ⟨t, ht⟩ := loadSeg_of_unchecked hm q sel
      rw [ht] at hload
      cases hload
    | true =>
      rw [loadSeg_checked hm] at hload
      obtain ⟨hss, hn, hdata⟩ := loadDataSeg_of_np hm hload
      obtain ⟨raw, hlook, hrest⟩ := np_of_loadDataSeg hdata
      exact ⟨q, sel, raw, rfl, isDataSeg_of_ne hq hss, hl, hn, descriptorIs_of_lookup hlook, hrest⟩
  · rintro ⟨q, sel, raw, hm, hq, hl, hn, hd, hkind, hpriv, hp, rfl, rfl⟩
    have hx := dataSegmentLoad s i q sel raw hm hq hl hn hd
    have htest : ¬(¬((descOf raw).kind = .data ∨ (descOf raw).kind = .code ∧ (descOf raw).readable = true)
        ∨ ((descOf raw).kind = .data ∨ (descOf raw).kind = .code ∧ (descOf raw).conforming = false)
          ∧ ((descOf raw).dpl.toNat < sel.toNat % 4 ∨ (descOf raw).dpl.toNat < s.cpl.toNat)) := by
      rintro (h | ⟨hk, h⟩)
      · exact h hkind
      · obtain ⟨hrpl, hcpl⟩ := hpriv hk
        omega
    rwa [if_neg htest, if_pos hp] at hx

end Sys2Proof.Machine
end

section
/-! PROOF. The parts of a descriptor as numbers (spec/41_mov_sreg.md R171): a bit is a quotient modulo 2, a field a quotient
modulo a power of two, and fields side by side a sum. -/

namespace Sys2Proof.Machine

/-- A bit as a number. -/
theorem getLsbD_iff (raw : Quad) (i : Nat) : raw.getLsbD i = true ↔ raw.toNat / 2 ^ i % 2 = 1 := by
  rw [BitVec.getLsbD, Nat.testBit_eq_decide_div_mod_eq, decide_eq_true_iff]

/-- A field as a number. -/
theorem field_toNat (raw : Quad) (i n : Nat) : (raw.extractLsb' i n).toNat = raw.toNat / 2 ^ i % 2 ^ n := by
  rw [BitVec.extractLsb'_toNat, Nat.shiftRight_eq_div_pow]

/-- Two fields side by side as a number. -/
theorem append_toNat {m n : Nat} (x : BitVec m) (y : BitVec n) : (x ++ y).toNat = y.toNat + x.toNat * 2 ^ n := by
  rw [BitVec.toNat_append, ← Nat.shiftLeft_add_eq_or_of_lt y.isLt, Nat.shiftLeft_eq, Nat.add_comm]

/-- The kind as bits 44 and 43. -/
theorem descOf_kind (raw : Quad) :
    (descOf raw).kind = if raw.getLsbD 44 then (if raw.getLsbD 43 then .code else .data) else .system := rfl

theorem kind_system_iff (raw : Quad) : (descOf raw).kind = .system ↔ raw.toNat / 2 ^ 44 % 2 = 0 := by
  have h44 := getLsbD_iff raw 44
  have hsys : (descOf raw).kind = .system ↔ ¬raw.getLsbD 44 = true := by
    rw [descOf_kind]
    split_ifs <;> simp_all
  rw [hsys, h44]
  omega

theorem kind_code_iff (raw : Quad) : (descOf raw).kind = .code ↔ raw.toNat / 2 ^ 43 % 4 = 3 := by
  have hcode : (descOf raw).kind = .code ↔ raw.getLsbD 44 = true ∧ raw.getLsbD 43 = true := by
    rw [descOf_kind]
    split_ifs <;> simp_all
  rw [hcode, getLsbD_iff, getLsbD_iff]
  omega

theorem kind_data_iff (raw : Quad) : (descOf raw).kind = .data ↔ raw.toNat / 2 ^ 43 % 4 = 2 := by
  have hdata : (descOf raw).kind = .data ↔ raw.getLsbD 44 = true ∧ ¬raw.getLsbD 43 = true := by
    rw [descOf_kind]
    split_ifs <;> simp_all
  rw [hdata, getLsbD_iff, getLsbD_iff]
  omega

/-- A bit that counts for one kind of descriptor only. -/
theorem kindBit_iff (raw : Quad) (k : DescKind) (i : Nat) :
    (decide ((descOf raw).kind = k) && raw.getLsbD i) = true ↔ raw.toNat / 2 ^ i % 2 = 1 ∧ (descOf raw).kind = k := by
  rw [Bool.and_eq_true, decide_eq_true_iff, getLsbD_iff, and_comm]

/-- The base is two fields (R171). -/
theorem descOf_base_toNat (raw : Quad) :
    (descOf raw).base.toNat = raw.toNat / 2 ^ 16 % 2 ^ 24 + raw.toNat / 2 ^ 56 * 2 ^ 24 := by
  show (raw.extractLsb' 56 8 ++ raw.extractLsb' 16 24).toNat = _
  have := raw.isLt
  rw [append_toNat, field_toNat, field_toNat]
  omega

/-- The limit's two fields, before it is scaled (R171). -/
theorem limit20_toNat (raw : Quad) : (raw.extractLsb' 48 4 ++ raw.extractLsb' 0 16).toNat
    = raw.toNat % 2 ^ 16 + raw.toNat / 2 ^ 48 % 16 * 2 ^ 16 := by
  rw [append_toNat, field_toNat, field_toNat]
  simp

/-- Granularity counts pages of 4096 bytes, the last one whole (R171). -/
theorem scaledLimit_toNat (l : BitVec 20) (g : Bool) :
    (scaledLimit l g).toNat = if g = true then l.toNat * 4096 + 4095 else l.toNat := by
  unfold scaledLimit
  split_ifs
  · rw [append_toNat]
    exact Nat.add_comm ..
  · exact BitVec.toNat_setWidth_of_le (by decide : 20 ≤ 32)

/-- The limit as a number (R171). -/
theorem descOf_limit_toNat (raw : Quad) : (descOf raw).limit.toNat =
    if raw.toNat / 2 ^ 55 % 2 = 1 then (raw.toNat % 2 ^ 16 + raw.toNat / 2 ^ 48 % 16 * 2 ^ 16) * 4096 + 4095
    else raw.toNat % 2 ^ 16 + raw.toNat / 2 ^ 48 % 16 * 2 ^ 16 := by
  show (scaledLimit (raw.extractLsb' 48 4 ++ raw.extractLsb' 0 16) (raw.getLsbD 55)).toNat = _
  rw [scaledLimit_toNat, limit20_toNat]
  exact if_congr (getLsbD_iff raw 55) rfl rfl

/-- Settles O45, part by part. -/
theorem descriptorLayout : Obligations.DescriptorLayout := fun raw =>
  ⟨kind_system_iff raw, kind_code_iff raw, kind_data_iff raw, kindBit_iff raw .data 41, kindBit_iff raw .code 41,
    kindBit_iff raw .data 42, kindBit_iff raw .code 42, field_toNat raw 45 2, getLsbD_iff raw 47, descOf_base_toNat raw,
    descOf_limit_toNat raw, getLsbD_iff raw 52, getLsbD_iff raw 53, getLsbD_iff raw 54, getLsbD_iff raw 55⟩

end Sys2Proof.Machine
end
